-- ==== Sys2Proof/Word.lean ====
section
/-! DEFINITION. The word types of the block: bytes, memory words, 20-bit word addresses, and the two byte lanes. -/

namespace Sys2Proof

/-- One byte lane of memory, or one byte of the management port. -/
abbrev Byte := BitVec 8

/-- A memory word: two byte lanes (Table 0-2). -/
abbrev Word16 := BitVec 16

/-- A 20-bit word address, on the host side (HA) or the memory side (MA). -/
abbrev Addr := BitVec 20

/-- A lane set: a subset of the low and the high byte lane (R1). -/
structure Lanes where
  low : Bool
  high : Bool
deriving DecidableEq, Repr

/-- Both lanes enabled. -/
def Lanes.both : Lanes := { low := true, high := true }

/-- The lane set with neither lane (R15). -/
def Lanes.isEmpty (l : Lanes) : Bool := !l.low && !l.high

end Sys2Proof
end

