-- ==== Sys2Proof/Syntax.lean ====
section
/-! DEFINITION. The commands of the block: one constructor for each row of spec/opcode_table.json. A command is an
event on a pin, a step the part makes by itself, or the arrival of the byte that completes a management frame's
command. -/

namespace Sys2Proof

/-- The line whose deassertion ends the driving of read data (R14). -/
inductive ReleaseLine where
  /-- HOE#, the read strobe. -/
  | hoe
  /-- HCE#, the chip enable, which also ends the host cycle (R1). -/
  | hce
deriving DecidableEq, Repr

/-- The commands of the Mevira J28. A Bool that stands for an active-low line is true when the line is asserted. -/
inductive Instr where
  /-- POWER_ON (R128): the levels then on PFAIL#, RST# and SCS#. -/
  | powerOn (pfail rst scs : Bool)
  /-- END_OF_POWER_ON (R135). -/
  | endOfPowerOn
  /-- RST_ASSERT (R133). -/
  | rstAssert
  /-- RST_RELEASE (R135). -/
  | rstRelease
  /-- PFAIL_ASSERT (R129). -/
  | pfailAssert
  /-- PFAIL_RELEASE (R132). -/
  | pfailRelease
  /-- HOST_ACCESS_TAKE (R1): HA, the strobes HOE# and HWE#, the lane enables HLB# and HUB#, and HD. -/
  | hostAccessTake (address : Addr) (hoe hwe hlb hub : Bool) (hd : Word16)
  /-- HOST_CYCLE_END (R16). -/
  | hostCycleEnd
  /-- MEMORY_WORD_ACCESS_COMPLETE (R122). -/
  | memoryWordAccessComplete
  /-- COMPLETE_END (R65). -/
  | completeEnd
  /-- SWITCH (R71). -/
  | switch
  /-- CMT, a rising edge (R59). -/
  | cmt
  /-- MOUNT_START (R98). -/
  | mountStart
  /-- FORMAT_WRITES_START (R106). -/
  | formatWritesStart
  /-- TICK (R150). -/
  | tick
  /-- DEADLINE_ABORT (R52). -/
  | deadlineAbort
  /-- HRST_PULSE_END (R116). -/
  | hrstPulseEnd
  /-- FRAME_BEGIN, a falling edge of SCS# (R137). -/
  | frameBegin
  /-- FRAME_END, a rising edge of SCS# (R140). -/
  | frameEnd
  /-- BAD_CMD (R138): the command code that arrives and names no command. -/
  | badCmd (code : Byte)
  /-- STATUS (R144): its command byte arrives. -/
  | status
  /-- CONFIG_READ (R145): its command byte arrives. -/
  | configRead
  /-- CONFIG_WRITE (R146): its last argument byte, the class enable set, arrives. -/
  | configWrite (last : Byte)
  /-- EVENT_POP (R154): its command byte arrives. -/
  | eventPop
  /-- EVENT_ACK (R155): its argument byte, the class set, arrives. -/
  | eventAck (last : Byte)
  /-- COMMIT (R60): its command byte arrives. -/
  | commit
  /-- ABORT (R49): its command byte arrives. -/
  | abort
  /-- GROUP_LIST (R149): its argument byte, the index, arrives. -/
  | groupList (last : Byte)
  /-- MAP_QUERY (R148): its last argument byte, the low byte of the page, arrives. -/
  | mapQuery (last : Byte)
  /-- GUARD_READ (R120): its last argument byte, the choice of table, arrives. -/
  | guardRead (last : Byte)
  /-- GUARD_STAGE (R118): its last argument byte, the mode, arrives. -/
  | guardStage (last : Byte)
  /-- GUARD_DISCARD (R119): its command byte arrives. -/
  | guardDiscard
  /-- FORMAT (R104): its last argument byte, the low byte of P, arrives. -/
  | format (last : Byte)
  /-- REMOUNT (R109): its command byte arrives. -/
  | remount
  /-- BYTE_ARRIVES (R137): a byte arrives at the framer. -/
  | byteArrives (byte : Byte)
  /-- READ_DATA_RELEASE (R14): HOE# or HCE# is deasserted. -/
  | readDataRelease (line : ReleaseLine)
  /-- SUPPLY_FAILURE (R136). -/
  | supplyFailure
deriving DecidableEq, Repr

end Sys2Proof
end

