-- ==== Sys2Proof/Decode.lean ====
section
/-! DEFINITION. The table's decoder. No row of spec/opcode_table.json gives bits: the rows are events, not words, so
no word spells a command. -/

namespace Sys2Proof

/-- The command that the `nbits` bits of `w` spell. The table gives no row any bits, so the answer is always none. -/
def decodeTableWord (_nbits _w : Nat) : Option Instr := none

end Sys2Proof
end

