-- ==== Sys2Proof/Config.lean ====
section
/-! DEFINITION. What the manual leaves open. -/

namespace Sys2Proof

/-- The n-th open byte. R127 says that a word access in flight completes only while the supply holds; what the
enabled bytes of a write then cut off by a failure of the supply hold is not stated. Nothing is known of this
constant: it has no body. -/
opaque Config.freeByte : Nat → Byte

end Sys2Proof
end

