-- ==== Sys2Proof/Machine/State.lean ====
section
/-! DEFINITION. The state of the block: one structure for each functional block of the manual, the memory behind the
part, and the queue of waiting commands. Everything is plain data. -/

namespace Sys2Proof.Machine

/-! ### Supply Monitor (R128) -/

/-- What began the RESET_HELD in progress (R128). -/
inductive ResetOrigin where
  | power
  | pin
deriving DecidableEq, Repr

/-- The Supply Monitor's state (R128), the power-on circuit's answer, and whether the supply is in range (R136). -/
structure SupplyMonitor where
  /-- The supply is within the range of Table 0-4 (R136). -/
  powered : Bool
  /-- The end of power-on has been taken since the supply rose (R135). -/
  powerOnEnded : Bool
  /-- The PFAIL# level as last taken: true when asserted. -/
  pfail : Bool
  /-- The RST# level as last taken: true when asserted. -/
  rst : Bool
  /-- The reset origin, held in RESET_HELD only. -/
  origin : Option ResetOrigin
deriving DecidableEq, Repr

/-! ### Host Path (R1, R2) -/

inductive AccessKind where
  | read
  | write
deriving DecidableEq, Repr

/-- The classes of Table 1-1. -/
inductive AccessClass where
  | direct
  | atomic
  | unbacked
  | guarded
  | raw
  | notReady
deriving DecidableEq, Repr

/-- The hold reason (R2). -/
inductive HoldReason where
  | none
  | lineFill
  | commitHold
deriving DecidableEq, Repr

/-- The access record of R1, with the class its take gave it (R4). -/
structure Access where
  address : Addr
  kind : AccessKind
  lanes : Lanes
  /-- The 16 bits on HD of a WRITE; absent for a READ. -/
  data : Option Word16
  cls : AccessClass
deriving DecidableEq, Repr

/-- What the J28 drives on HD: a word, on the enabled lanes (R13, R14). `notReady` tells a NOT_READY read's FFFFh,
the one word that HD carries in RESET_HELD (R2, Table 9-4). -/
structure HdDrive where
  data : Word16
  lanes : Lanes
  notReady : Bool
deriving DecidableEq, Repr

structure HostPath where
  /-- This host cycle's access has been taken; the next take needs a new cycle (R1). -/
  cycleTaken : Bool
  /-- The access in service (R2). -/
  access : Option Access
  hold : HoldReason
  /-- The drive of HD; none when HD is high-impedance. -/
  hd : Option HdDrive
  /-- What this host cycle's read has returned to the host (R13, R14, R17, R127): the word valid on HD at the end of
  the access, kept when an assertion of RST# has ended the access and HD is high-impedance (R2). -/
  returned : Option HdDrive
deriving DecidableEq, Repr

/-! ### Translation Table (Table 2-1) -/

structure Geometry where
  sizeCode : Nat
  d : Nat
  p : Nat
deriving DecidableEq, Repr

inductive Slot where
  | a
  | b
deriving DecidableEq, Repr

structure TransTable where
  geometry : Option Geometry
  /-- The map cache: entry i is the committed frame of logical page D + i. -/
  map : List Nat
  generation : BitVec 32
  activeSlot : Option Slot
deriving DecidableEq, Repr

/-! ### Group Controller (R32 to R34, R39, R51) -/

inductive Phase where
  | complete
  | retire
  | write
  | mark
deriving DecidableEq, Repr

/-- The group state; COMMITTING holds its phase (R32). `opened` is the manual's OPEN. -/
inductive GroupState where
  | idle
  | opened
  | failed
  | committing (phase : Phase)
deriving DecidableEq, Repr

/-- A group entry (R33). Bit l of `present` is set when line l is present. -/
structure Entry where
  page : Nat
  shadow : Nat
  superseded : Nat
  present : BitVec 16
deriving DecidableEq, Repr

/-- A line fill (R39, R40). -/
structure Fill where
  /-- The logical page of the fill's entry; none once an abort has taken the entry away (R47). -/
  entry : Option Nat
  line : Nat
  /-- The committed frame copied from. -/
  source : Nat
  /-- The shadow frame copied to. -/
  target : Nat
  mergeWanted : Bool
  /-- The word of the line being copied, 0 to 15. -/
  word : Nat
  /-- The word read and not yet written. -/
  held : Option Word16
deriving DecidableEq, Repr

structure GroupControl where
  state : GroupState
  /-- The group table, in first-write order. -/
  table : List Entry
  openStamp : Option (BitVec 16)
  /-- The deadline timer: its remaining count while it runs, none while it is stopped. -/
  deadline : Option Nat
  running : Option Fill
  waiting : Option Fill
deriving DecidableEq, Repr

/-! ### Commit Engine (Table 4-2) -/

inductive CommitKind where
  | group
  | guardOnly
deriving DecidableEq, Repr

inductive GuardSource where
  | staged
  | current
deriving DecidableEq, Repr

/-- What the start of WRITE fixes (R68). -/
structure CommitBody where
  generation : BitVec 32
  stamp : BitVec 16
  /-- The check accumulator. -/
  acc : BitVec 32
deriving DecidableEq, Repr

structure CommitRecord where
  kind : CommitKind
  target : Slot
  source : GuardSource
  pageCount : Nat
  /-- The COMPLETE position: an entry position and a line. -/
  copyEntry : Nat
  copyLine : Nat
  /-- The word of the line being copied, and the word read and not yet written. -/
  copyWord : Nat
  copyHeld : Option Word16
  body : Option CommitBody
  /-- The next word of the target slot to be written; none once the mark write has completed. -/
  writePos : Option Nat
deriving DecidableEq, Repr

structure CommitEngine where
  /-- The commit request latch. -/
  latch : Bool
  record : Option CommitRecord
deriving DecidableEq, Repr

/-! ### Guard Unit (R111, R112, R116) -/

inductive GuardMode where
  | off
  | write
  | all
deriving DecidableEq, Repr

structure Guard where
  first : Nat
  last : Nat
  mode : GuardMode
deriving DecidableEq, Repr

structure GuardUnit where
  /-- The current table: eight entries in READY, none elsewhere. -/
  current : List Guard
  /-- The staged table; the staged flag is set exactly when it exists (R112). -/
  staged : Option (List Guard)
  /-- The HRST# pulse timer: the length of the running period in CLK periods, none while it is stopped. -/
  pulse : Option Nat
deriving DecidableEq, Repr

/-! ### Memory Port Arbiter (R122 to R124) -/

inductive Requester where
  | host
  | engine
deriving DecidableEq, Repr

/-- A memory word access asked for: address, kind, lane set and, for a write, the data (R122). -/
structure Request where
  address : Addr
  kind : AccessKind
  lanes : Lanes
  data : Option Word16
deriving DecidableEq, Repr

/-- The access in flight. `live` is false once the host access or the operation it was made for has been given up:
the word access still completes, and its data is handed to nobody. -/
structure Flight where
  request : Request
  requester : Requester
  live : Bool
deriving DecidableEq, Repr

structure Port where
  /-- The access in flight; none when the port is idle. -/
  flight : Option Flight
  hostReq : Option Request
  engineReq : Option Request
  passCount : Nat
  /-- MA[19:0]: the last address driven. -/
  ma : Addr
  /-- RST# has been asserted under the access in flight: when that access completes MA returns to 00000h (R122), and
  the host access that it ends leaves HD high-impedance (R2), even if RST# has been released by then. -/
  underReset : Bool
deriving DecidableEq, Repr

/-! ### Mount Engine (R94) -/

inductive DeviceState where
  | resetHeld
  | mounting
  | ready
  | unformatted
  | faulted
  | formatting
  | halted
deriving DecidableEq, Repr

inductive FaultedReason where
  | noValid
  | mismatch
deriving DecidableEq, Repr

inductive MountCause where
  | power
  | pin
  | supplyReturn
  | command
deriving DecidableEq, Repr

/-- What a valid slot verdict carries (R84). -/
structure Image where
  geometry : Geometry
  generation : BitVec 32
  guards : List Guard
  entries : List Nat
deriving DecidableEq, Repr

/-- A slot verdict (R84). -/
inductive Verdict where
  | blank
  | invalid
  | valid (image : Image)
deriving DecidableEq, Repr

/-- The progress of a mount. -/
inductive MountRun where
  /-- No mount is in progress. -/
  | idle
  /-- MOUNTING has been entered and no read requested yet (R98). -/
  | waiting
  /-- `slot` is being read: the verdict of slot A once it is formed, the words of this slot read so far, and the
  mount's check accumulator (R83, R84). -/
  | reading (slot : Slot) (verdictA : Option Verdict) (words : List Word16) (acc : BitVec 32)
deriving DecidableEq, Repr

/-- The next word write of a format (R106). -/
inductive FormatStep where
  | retireA
  | retireB
  /-- Word n of slot A: header, entries, check code. -/
  | body (n : Nat)
  | mark
deriving DecidableEq, Repr

/-- A format in progress: the command's geometry, the write in hand (none before FORMAT_WRITES_START), the commit
stamp (set when the write of word 1 is requested) and the check accumulator. -/
structure FormatRun where
  geometry : Geometry
  step : Option FormatStep
  stamp : Option (BitVec 16)
  acc : BitVec 32
deriving DecidableEq, Repr

structure MountEngine where
  device : DeviceState
  reason : Option FaultedReason
  cause : Option MountCause
  run : MountRun
  format : Option FormatRun
deriving DecidableEq, Repr

/-! ### Event Unit (R150 to R152) -/

inductive EventClass where
  | access
  | group
  | commit
  | mount
  | supply
  | overrun
deriving DecidableEq, Repr

/-- The kinds of Table 11-1. -/
inductive EventKind where
  | guardedRead
  | guardedWrite
  | unbackedRead
  | unbackedWrite
  | rawWrite
  | groupFull
  | poolEmpty
  | deadlineAbort
  | abortDone
  | commitDone
  | commitRefused
  | mountReady
  | mountBlank
  | mountFault
  | formatDone
  | halt
deriving DecidableEq, Repr

/-- An event record (R151). The presence set is which of address, page and detail are there (R160). -/
structure EventRecord where
  kind : EventKind
  stamp : BitVec 16
  generation : BitVec 16
  address : Option Addr
  page : Option Nat
  detail : Option Byte
deriving DecidableEq, Repr

structure EventUnit where
  tick : BitVec 16
  /-- The length in CLK periods of the tick period that runs; none while no period runs. -/
  period : Option Nat
  /-- The class latches, laid out as the class set byte's bits 5 to 0 (Table 12-2). -/
  latches : BitVec 6
  /-- The event queue, oldest first. -/
  queue : List EventRecord
deriving DecidableEq, Repr

/-! ### Management Port (R137, R145) -/

inductive GuardAction where
  | event
  | eventAndHostReset
deriving DecidableEq, Repr

structure Configuration where
  deadline : BitVec 16
  divider : BitVec 8
  stealShare : Nat
  guardAction : GuardAction
  /-- The class enable set, laid out as the latches are. -/
  enable : BitVec 6
deriving DecidableEq, Repr

inductive FrameState where
  | outside
  | command
  | arguments
  | response
  | spent
deriving DecidableEq, Repr

structure Framer where
  state : FrameState
  /-- The command code received. -/
  code : Option Byte
  /-- The argument bytes received so far. -/
  args : List Byte
  /-- The response bytes formed at the take. -/
  response : List Byte
  /-- The position of the next response byte. -/
  next : Nat
  /-- SCS# is low. -/
  scsLow : Bool
deriving DecidableEq, Repr

/-! ### The whole state -/

/-- The memory behind the part: (byte address, byte) pairs. The byte address of the low lane of word w is 2 w, of its
high lane 2 w + 1. -/
abbrev Memory := List Host.Cell

structure State where
  supply : SupplyMonitor
  mount : MountEngine
  host : HostPath
  xlate : TransTable
  /-- The Frame Pool's free list, head first (R27). -/
  pool : List Nat
  group : GroupControl
  commit : CommitEngine
  guards : GuardUnit
  port : Port
  config : Configuration
  framer : Framer
  events : EventUnit
  mem : Memory
  /-- The model's own: how many open bytes have been used (Config.freeByte). -/
  freeNext : Nat
  /-- The commands that wait, first in, first out. -/
  pending : List Instr
deriving DecidableEq, Repr

/-- The part raises no fault: no rule of the manual gives a command that stops the part without a next state. -/
inductive Fault where
deriving DecidableEq, Repr

/-- Why a command has no meaning. -/
inductive Refusal where
  /-- Raised by the dispatcher for a row with no meaning yet; safe, since the run stops. No row raises it now. -/
  | notModelled (mnemonic : String)
deriving DecidableEq, Repr

/-! ### Cleared and reset values -/

/-- Table 2-1, last column. -/
def TransTable.cleared : TransTable := { geometry := none, map := [], generation := 0, activeSlot := none }

/-- Table 3-2, with no line fill. -/
def GroupControl.cleared : GroupControl :=
  { state := .idle, table := [], openStamp := none, deadline := none, running := none, waiting := none }

/-- R58. -/
def CommitEngine.cleared : CommitEngine := { latch := false, record := none }

/-- R111, R112, R117. -/
def GuardUnit.cleared : GuardUnit := { current := [], staged := none, pulse := none }

/-- R122, R124. -/
def Port.cleared : Port :=
  { flight := none, hostReq := none, engineReq := none, passCount := 0, ma := 0, underReset := false }

/-- R94, in RESET_HELD. -/
def MountEngine.cleared : MountEngine :=
  { device := .resetHeld, reason := none, cause := none, run := .idle, format := none }

/-- R2. -/
def HostPath.cleared : HostPath :=
  { cycleTaken := false, access := none, hold := .none, hd := none, returned := none }

/-- R157. -/
def EventUnit.cleared : EventUnit := { tick := 0, period := none, latches := 0, queue := [] }

/-- Table 10-4, third column: the class enable set is 3Bh. -/
def Configuration.default : Configuration :=
  { deadline := 0, divider := 31, stealShare := 4, guardAction := .event, enable := 0x3B }

/-- R137: OUTSIDE, with the SCS# line as given. DESIGN CHOICE (unsafe, log entry 18): no command code, no argument
bytes, no response and position 0, at power-on, at an assertion of RST# and at every rise of SCS#. -/
def Framer.outside (scsLow : Bool) : Framer :=
  { state := .outside, code := none, args := [], response := [], next := 0, scsLow := scsLow }

/-- The machine right after power-on (R128, Table 9-4): RESET_HELD with origin POWER, power-on not yet ended.
DESIGN CHOICE (unsafe): the lines are taken as PFAIL# released, RST# released and SCS# high, and memory lists
nothing. -/
def State.reset : State :=
  { supply := { powered := true, powerOnEnded := false, pfail := false, rst := false, origin := some .power }
    mount := .cleared
    host := .cleared
    xlate := .cleared
    pool := []
    group := .cleared
    commit := .cleared
    guards := .cleared
    port := .cleared
    config := .default
    framer := .outside false
    events := .cleared
    mem := []
    freeNext := 0
    pending := [] }

end Sys2Proof.Machine
end

