-- ==== Sys2Proof/Machine/Ops.lean ====
section
/-! DEFINITION. The operations shared by the commands: memory words, geometry, posting of events, the arbiter's
grant decision, the end of an access in service, and the clearings. -/

namespace Sys2Proof.Machine

/-! ### Memory -/

/-- What a byte of memory that nothing has written reads as. DESIGN CHOICE (unsafe): FFh, the example R86 gives of
fresh memory. -/
def unlistedByte : Byte := 0xFF

/-- The byte at byte address `k`. -/
def readByte : Memory → Nat → Byte
  | [], _ => unlistedByte
  | (k', b) :: m, k => if k = k' then b else readByte m k

/-- Put a byte in front unless it is what an unlisted address reads as. -/
def consByte (k : Nat) (b : Byte) (m : Memory) : Memory := if b = unlistedByte then m else (k, b) :: m

/-- Write the byte at byte address `k`, keeping the list rising and free of unlisted values. -/
def writeByte : Memory → Nat → Byte → Memory
  | [], k, b => consByte k b []
  | (k', b') :: m, k, b =>
    if k < k' then consByte k b ((k', b') :: m)
    else if k = k' then consByte k b m
    else (k', b') :: writeByte m k b

/-- The canonical form of memory, above the bound `lo`: byte addresses strictly rising and within the 2^20 words,
and no byte listed that an unlisted address would read. -/
def memoryWfFrom : Nat → Memory → Bool
  | _, [] => true
  | lo, (k, b) :: m => decide (lo ≤ k) && decide (k < 2 ^ 21) && decide (b ≠ unlistedByte) && memoryWfFrom (k + 1) m

def Memory.wf (m : Memory) : Bool := memoryWfFrom 0 m

/-- The byte addresses of the two lanes of a word. -/
def lowLane (a : Addr) : Nat := 2 * a.toNat

def highLane (a : Addr) : Nat := 2 * a.toNat + 1

/-- The word at a physical word address. -/
def readWord (m : Memory) (a : Addr) : Word16 := readByte m (highLane a) ++ readByte m (lowLane a)

def lowByte (w : Word16) : Byte := w.setWidth 8

def highByte (w : Word16) : Byte := (w >>> 8).setWidth 8

/-- Write the enabled lanes of a word (R122). -/
def writeWord (m : Memory) (a : Addr) (lanes : Lanes) (w : Word16) : Memory :=
  let m1 := if lanes.low then writeByte m (lowLane a) (lowByte w) else m
  if lanes.high then writeByte m1 (highLane a) (highByte w) else m1

/-! ### Address arithmetic and geometry (R3, R19) -/

def pageOf (a : Addr) : Nat := a.toNat / 256

def offsetOf (a : Addr) : Nat := a.toNat % 256

def lineOf (a : Addr) : Nat := offsetOf a / 16

/-- The physical word address of an offset in a frame (R3). -/
def physicalAddress (frame offset : Nat) : Addr := BitVec.ofNat 20 (frame * 256 + offset)

/-- F by size code (Table 0-2); 0 for a code that is none. -/
def framesOf (sizeCode : Nat) : Nat :=
  if sizeCode = 1 then 1024 else if sizeCode = 2 then 2048 else if sizeCode = 3 then 4096 else 0

/-- The geometry constraints (Table 0-2, R85 conditions 3 and 4, R104). -/
def Geometry.ok (g : Geometry) : Bool :=
  decide (1 ≤ g.sizeCode) && decide (g.sizeCode ≤ 3) && decide (1 ≤ g.p) && decide (g.d + g.p ≤ 4096) &&
    decide (32 + g.d + g.p + 2 ≤ framesOf g.sizeCode) && decide (g.p ≤ 4068)

/-- The geometry STATUS reports while the Translation Table is cleared: 0, 0, 0 (R18). -/
def State.geometry (s : State) : Geometry := s.xlate.geometry.getD { sizeCode := 0, d := 0, p := 0 }

/-- The pool range 32+D .. F−1 (R19). -/
def Geometry.inPool (g : Geometry) (frame : Nat) : Bool :=
  decide (32 + g.d ≤ frame) && decide (frame < framesOf g.sizeCode)

/-- The pool's frames in ascending order. -/
def Geometry.poolFrames (g : Geometry) : List Nat := List.range' (32 + g.d) (framesOf g.sizeCode - (32 + g.d))

/-- The free list a loading builds: every pool frame that no map cache entry names, ascending (R30). -/
def Geometry.freeFrames (g : Geometry) (map : List Nat) : List Nat :=
  g.poolFrames.filter fun f => !map.contains f

/-- The committed frame of a logical page (R20). -/
def State.committedFrame (s : State) (page : Nat) : Nat := (s.xlate.map[page - s.geometry.d]?).getD 0

/-- The group entry of a logical page. -/
def findEntry (table : List Entry) (page : Nat) : Option Entry := table.find? fun e => e.page == page

/-- Add a line to the present lines of a page's entry (R40). -/
def markPresent (table : List Entry) (page line : Nat) : List Entry :=
  table.map fun e => if e.page = page then { e with present := e.present ||| (1#16 <<< line) } else e

def Entry.hasLine (e : Entry) (line : Nat) : Bool := e.present.getLsbD line

/-- The tick period, and the length of an HRST# pulse, in CLK periods (Table 0-4, R116, R150). -/
def tickPeriod (divider : BitVec 8) : Nat := (divider.toNat + 1) * 1024

/-! ### Events (R151, R152) -/

/-- The bit of a class in a class set (Table 12-2). -/
def EventClass.bit : EventClass → BitVec 6
  | .access => 0x01
  | .group => 0x02
  | .commit => 0x04
  | .mount => 0x08
  | .supply => 0x10
  | .overrun => 0x20

/-- The class of a kind (Table 11-1). -/
def EventKind.cls : EventKind → EventClass
  | .guardedRead | .guardedWrite | .unbackedRead | .unbackedWrite | .rawWrite => .access
  | .groupFull | .poolEmpty | .deadlineAbort | .abortDone => .group
  | .commitDone | .commitRefused => .commit
  | .mountReady | .mountBlank | .mountFault | .formatDone => .mount
  | .halt => .supply

/-- Whether a class set names a class. -/
def names (set : BitVec 6) (c : EventClass) : Bool := set &&& c.bit != 0

/-- The records the queue can hold (Table 0-2). -/
abbrev queueDepth : Nat := 16

/-- The record a posting forms (R151). -/
def State.eventRecord (s : State) (kind : EventKind) (address : Option Addr) (page : Option Nat)
    (detail : Option Byte) : EventRecord :=
  { kind := kind, stamp := s.events.tick, generation := s.xlate.generation.setWidth 16, address := address,
    page := page, detail := detail }

/-- A posting, taken whole (R152). -/
def EventUnit.post (e : EventUnit) (enable : BitVec 6) (r : EventRecord) : EventUnit :=
  let latched := { e with latches := e.latches ||| r.kind.cls.bit }
  if names enable r.kind.cls then
    if e.queue.length < queueDepth then { latched with queue := e.queue ++ [r] }
    else { latched with latches := latched.latches ||| EventClass.overrun.bit }
  else latched

/-- Post an event. -/
def post (kind : EventKind) (address : Option Addr) (page : Option Nat) (detail : Option Byte) (s : State) : State :=
  { s with events := s.events.post s.config.enable (s.eventRecord kind address page detail) }

/-! ### The Memory Port Arbiter (R122 to R125) -/

/-- A request becomes the access in flight and its address stands on MA (R122). -/
def Port.grant (p : Port) (r : Request) (who : Requester) : Port :=
  { p with flight := some { request := r, requester := who, live := true }, ma := r.address }

/-- The grant decision (R124). It is made while the port is idle and a request waits. -/
def Port.decide (p : Port) (stealShare : Nat) : Port :=
  match p.flight, p.hostReq, p.engineReq with
  | some _, _, _ => p
  | none, none, none => p
  | none, some r, none => { p.grant r .host with hostReq := none }
  | none, none, some r => { p.grant r .engine with engineReq := none, passCount := 0 }
  | none, some h, some e =>
    if p.passCount < stealShare then { p.grant h .host with hostReq := none, passCount := p.passCount + 1 }
    else { p.grant e .engine with engineReq := none, passCount := 0 }

/-- Let the arbiter decide, with the steal share configured at this moment. DESIGN CHOICE (unsafe, log entry 15): the
decision is made at the end of each command, so of two commands that coincide at an idle port the first brings its
request alone, and is granted without a pass; only requests of one command arrive together. -/
def arbitrate (s : State) : State := { s with port := s.port.decide s.config.stealShare }

/-- The access in service has been granted its own word access. -/
def Port.hostGranted (p : Port) : Bool :=
  match p.flight with
  | some f => f.live && f.requester == .host
  | none => false

/-- Give up the access in flight if it is the given requester's: it completes, and its data goes to nobody. -/
def Port.orphan (p : Port) (who : Requester) : Port :=
  { p with flight := p.flight.map fun f => if f.requester = who then { f with live := false } else f }

/-- A word of an engine operation is in flight, made for somebody or not. -/
def Port.engineInFlight (p : Port) : Bool :=
  match p.flight with
  | some f => f.requester == .engine
  | none => false

/-- The engine requester asks for a word. It carries one operation at a time (R123): while the last word of a cancelled
COMPLETE copy is in flight that copy has not ended (R66), nothing is asked for, and the new operation asks when that
word has completed (`resumeEngine`). -/
def Port.askEngine (p : Port) (r : Request) : Port :=
  if p.engineInFlight then p else { p with engineReq := some r }

/-- Ask for one word of an engine operation, both lanes enabled (R122). -/
def requestEngine (kind : AccessKind) (address : Addr) (data : Option Word16) (s : State) : State :=
  { s with port := s.port.askEngine { address := address, kind := kind, lanes := .both, data := data } }

/-- An operation of the engine requester is abandoned: its waiting request is withdrawn and its access in flight
completes with its data discarded (R58, R125). -/
def withdrawEngine (s : State) : State :=
  { s with port := { s.port.orphan .engine with engineReq := none } }

/-- The waiting host request is withdrawn (R125). -/
def withdrawHost (s : State) : State := { s with port := { s.port with hostReq := none } }

/-! ### The access in service (R2, R12 to R17) -/

/-- The word access of a host access in a frame: a read has both lanes enabled, a write the host's (R11, R122). -/
def hostRequest (frame : Nat) (a : Access) : Request :=
  { address := physicalAddress frame (offsetOf a.address)
    kind := a.kind
    lanes := match a.kind with
      | .read => .both
      | .write => a.lanes
    data := a.data }

/-- Hold the access for its own word access in `frame` and ask for it (R11, R12). -/
def requestHost (frame : Nat) (a : Access) (s : State) : State :=
  { s with
    host := { s.host with access := some a, hold := .none }
    port := { s.port with hostReq := some (hostRequest frame a) } }

/-- Hold the access with a hold reason (R12, R14). -/
def holdAccess (why : HoldReason) (a : Access) (s : State) : State :=
  { s with host := { s.host with access := some a, hold := why } }

/-- The access in service ends: it becomes absent and the hold reason returns to none (R2). -/
def endService (s : State) : State := { s with host := { s.host with access := none, hold := .none } }

/-- Return a word to the host: it is driven on HD on the enabled lanes; with no lane enabled nothing is driven (R13 to
R15). -/
def driveHd (w : Word16) (lanes : Lanes) (notReady : Bool) (s : State) : State :=
  if lanes.isEmpty then s
  else
    let drive : HdDrive := { data := w, lanes := lanes, notReady := notReady }
    { s with host := { s.host with hd := some drive, returned := some drive } }

/-- The Host Path once an assertion of RST# has ended the access in service, and while RST# is low: no hold reason, and
HD high-impedance but for a NOT_READY read that drives FFFFh (R2, Table 9-4). -/
def HostPath.atReset (h : HostPath) : HostPath :=
  { h with hold := .none, hd := h.hd.bind fun drive => if drive.notReady then some drive else none }

/-- A refusal: the access ends without effect, and a read completes with FFFFh on its enabled lanes (R13). -/
def refuse (a : Access) (notReady : Bool) (s : State) : State :=
  match a.kind with
  | .read => driveHd 0xFFFF a.lanes notReady (endService s)
  | .write => endService s

/-- The change of device state ends the access in service: one whose word access is granted goes on to complete,
any other is released as refused (R17). -/
def releaseAccess (s : State) : State :=
  match s.host.access with
  | none => s
  | some a => if s.port.hostGranted then s else refuse a false (withdrawHost s)

/-- A fill's filling write has been given up (R16, R17, R41). -/
def dropMerge (f : Fill) : Fill := { f with mergeWanted := false }

/-! ### Clearing the volume (R23, R27, R57, R58, R111, R112) -/

/-- The Translation Table, the free list, the guard tables, the commit record and the request latch are discarded.
The HRST# pulse timer is not touched (R117). -/
def clearVolume (s : State) : State :=
  { s with
    xlate := .cleared
    pool := []
    commit := .cleared
    guards := { s.guards with current := [], staged := none } }

/-- The Group Controller's state outside READY (R32), with the fill that runs on, if any. A fill that runs on has no
entry and no filling write. -/
def GroupControl.clearedBut (running : Option Fill) : GroupControl :=
  { GroupControl.cleared with running := running.map fun f => { dropMerge f with entry := none } }

end Sys2Proof.Machine
end

