-- ==== Sys2Proof/Machine/Operands.lean ====
section
/-! DEFINITION. The operand forms: the access record of a host cycle, and the bytes and codes of management frames
(Table 12-2, Table 12-3). -/

namespace Sys2Proof.Machine

/-! ### The access record (R1) -/

/-- WRITE if HWE# is asserted, else READ (R1). -/
def accessKind (hwe : Bool) : AccessKind := if hwe then .write else .read

/-- The record formed at the take; its class is given by the Classifier. -/
def accessRecord (address : Addr) (hwe hlb hub : Bool) (hd : Word16) (cls : AccessClass) : Access :=
  { address := address
    kind := accessKind hwe
    lanes := { low := hlb, high := hub }
    data := match accessKind hwe with
      | .read => none
      | .write => some hd
    cls := cls }

/-! ### Bytes, most significant first (R159) -/

/-- A 16-bit value, most significant byte first. -/
def bytes16 (w : Word16) : List Byte := [highByte w, lowByte w]

/-- A 32-bit value, most significant byte first. -/
def bytes32 (w : BitVec 32) : List Byte := bytes16 ((w >>> 16).setWidth 16) ++ bytes16 (w.setWidth 16)

/-- Byte k of the arguments. -/
def argByte (args : List Byte) (k : Nat) : Byte := (args[k]?).getD 0

/-- The 16-bit argument whose first byte is byte k. -/
def arg16 (args : List Byte) (k : Nat) : Word16 := argByte args k ++ argByte args (k + 1)

/-- A count or a frame or page number as a 16-bit value. -/
def num16 (n : Nat) : Word16 := BitVec.ofNat 16 n

/-- A count as a byte. -/
def num8 (n : Nat) : Byte := BitVec.ofNat 8 n

/-! ### Codes (Table 12-3) -/

/-- The result codes of Table 10-1. -/
inductive Result where
  | ok
  | busy
  | badState
  | noGroup
  | groupFailed
  | tooLate
  | badArg
  | empty
  | badCmd
deriving DecidableEq, Repr

def Result.code : Result → Byte
  | .ok => 0x00
  | .busy => 0x01
  | .badState => 0x02
  | .noGroup => 0x03
  | .groupFailed => 0x04
  | .tooLate => 0x05
  | .badArg => 0x06
  | .empty => 0x07
  | .badCmd => 0x0F

/-- The device state code; RESET_HELD has none, and a HALT record gives it as 00h (Table 12-7). -/
def DeviceState.code : DeviceState → Byte
  | .resetHeld => 0x00
  | .mounting => 0x01
  | .ready => 0x02
  | .unformatted => 0x03
  | .faulted => 0x04
  | .formatting => 0x05
  | .halted => 0x06

def FaultedReason.code : FaultedReason → Byte
  | .noValid => 0x01
  | .mismatch => 0x02

def reasonCode : Option FaultedReason → Byte
  | none => 0x00
  | some r => r.code

def MountCause.code : MountCause → Byte
  | .power => 0x01
  | .pin => 0x02
  | .supplyReturn => 0x03
  | .command => 0x04

def causeCode : Option MountCause → Byte
  | none => 0x00
  | some c => c.code

def GroupState.code : GroupState → Byte
  | .idle => 0x00
  | .opened => 0x01
  | .failed => 0x02
  | .committing _ => 0x03

def GroupState.phaseCode : GroupState → Byte
  | .committing .complete => 0x01
  | .committing .retire => 0x02
  | .committing .write => 0x03
  | .committing .mark => 0x04
  | .idle | .opened | .failed => 0x00

def Slot.code : Slot → Byte
  | .a => 0x01
  | .b => 0x02

def slotCode : Option Slot → Byte
  | none => 0x00
  | some s => s.code

def GuardMode.code : GuardMode → Nat
  | .off => 0
  | .write => 1
  | .all => 2

/-- The mode a code names; 3 and above name none (Table 12-1, R159). -/
def guardModeOf (code : Nat) : Option GuardMode :=
  if code = 0 then some .off else if code = 1 then some .write else if code = 2 then some .all else none

def GuardAction.code : GuardAction → Byte
  | .event => 0x00
  | .eventAndHostReset => 0x01

def guardActionOf (b : Byte) : Option GuardAction :=
  if b = 0x00 then some .event else if b = 0x01 then some .eventAndHostReset else none

def CommitKind.code : CommitKind → Byte
  | .group => 0x00
  | .guardOnly => 0x01

/-- The codes of Table 11-1. -/
def EventKind.code : EventKind → Byte
  | .guardedRead => 0x01
  | .guardedWrite => 0x02
  | .unbackedRead => 0x03
  | .unbackedWrite => 0x04
  | .rawWrite => 0x05
  | .groupFull => 0x10
  | .poolEmpty => 0x11
  | .deadlineAbort => 0x12
  | .abortDone => 0x13
  | .commitDone => 0x20
  | .commitRefused => 0x21
  | .mountReady => 0x30
  | .mountBlank => 0x31
  | .mountFault => 0x32
  | .formatDone => 0x33
  | .halt => 0x40

/-- A class set byte: the six classes in bits 5 to 0, zero above (Table 12-2). -/
def classByte (set : BitVec 6) : Byte := set.setWidth 8

/-- The class set a byte names; none when an unused bit is set (R159). -/
def classSetOf (b : Byte) : Option (BitVec 6) := if b &&& 0xC0 = 0 then some (b.setWidth 6) else none

/-! ### Event record bytes (R160, Table 12-6) -/

/-- The presence set: bit 0 address, bit 1 page, bit 2 detail. -/
def EventRecord.presence (r : EventRecord) : Byte :=
  (if r.address.isSome then 0x01 else 0x00) ||| (if r.page.isSome then 0x02 else 0x00) |||
    (if r.detail.isSome then 0x04 else 0x00)

/-- Bytes 6 to 8: the address, the page, or zeros. -/
def EventRecord.place (r : EventRecord) : List Byte :=
  match r.address, r.page with
  | some a, _ => (a >>> 16).setWidth 8 :: bytes16 (a.setWidth 16)
  | none, some p => 0x00 :: bytes16 (num16 p)
  | none, none => [0x00, 0x00, 0x00]

/-- The ten bytes of a record. -/
def EventRecord.bytes (r : EventRecord) : List Byte :=
  [r.kind.code, r.presence] ++ bytes16 r.stamp ++ bytes16 r.generation ++ r.place ++ [r.detail.getD 0x00]

end Sys2Proof.Machine
end

