-- ==== Sys2Proof/Machine/Images.lean ====
section
/-! DEFINITION. Map images: word layout, check code, slot judgment, generation pairs and the mount decision
(Chapters 5, 6 and 12). -/

namespace Sys2Proof.Machine

/-! ### The check code (R83) -/

/-- One step of the computation. -/
def crcBit (acc : BitVec 32) : BitVec 32 :=
  if acc.getLsbD 0 then (acc >>> 1) ^^^ 0xEDB88320#32 else acc >>> 1

/-- Take one byte into the accumulator. -/
def crcByte (acc : BitVec 32) (b : Byte) : BitVec 32 :=
  crcBit (crcBit (crcBit (crcBit (crcBit (crcBit (crcBit (crcBit (acc ^^^ b.setWidth 32))))))))

/-- Take one word into the accumulator: low byte, then high byte. -/
def crcWord (acc : BitVec 32) (w : Word16) : BitVec 32 := crcByte (crcByte acc (lowByte w)) (highByte w)

/-- The accumulator's initial value. -/
def crcStart : BitVec 32 := 0xFFFFFFFF

/-- The check code from the final accumulator. -/
def crcFinal (acc : BitVec 32) : BitVec 32 := ~~~acc

def low16 (w : BitVec 32) : Word16 := w.setWidth 16

def high16 (w : BitVec 32) : Word16 := (w >>> 16).setWidth 16

/-- Whether the check code's stream covers word n of a slot. -/
def covered (n : Nat) : Bool := decide (1 ≤ n) && n != 26 && n != 27

/-! ### Word layout (R81, R158, Table 12-1) -/

/-- Word 0 of a marked slot, the first magic. -/
def markWord : Word16 := 0x4D4A

def secondMagic : Word16 := 0x5633

def layoutVersion : Word16 := 0x0001

/-- The first word of a guard entry: mode in bits 15 and 14, first page in bits 11 to 0. -/
def Guard.word0 (g : Guard) : Word16 := BitVec.ofNat 2 g.mode.code ++ 0#2 ++ BitVec.ofNat 12 g.first

/-- The second word of a guard entry: last page in bits 11 to 0. -/
def Guard.word1 (g : Guard) : Word16 := 0#4 ++ BitVec.ofNat 12 g.last

/-- A guard entry from its two words; none when it is not well-formed (R82, R158). -/
def decodeGuard (w0 w1 : Word16) : Option Guard :=
  match guardModeOf (w0 >>> 14).toNat with
  | none => none
  | some mode =>
    let first := (w0 &&& 0x0FFF).toNat
    let last := (w1 &&& 0x0FFF).toNat
    if w0 &&& 0x3000 = 0 ∧ w1 &&& 0xF000 = 0 ∧ first ≤ last then some { first := first, last := last, mode := mode }
    else none

/-- The guard entry a format writes (R106, R107). -/
def offGuard : Guard := { first := 0, last := 0, mode := .off }

/-- What an image holds besides its mark and check code. -/
structure ImageBody where
  geometry : Geometry
  generation : BitVec 32
  guards : List Guard
  stamp : BitVec 16
  pageCount : Nat
  entries : List Nat

/-- Word n of an image being written, given the accumulator at that moment (R68, R106). -/
def ImageBody.word (b : ImageBody) (acc : BitVec 32) (n : Nat) : Word16 :=
  if n = 1 then secondMagic
  else if n = 2 then layoutVersion
  else if n = 3 then num16 b.geometry.sizeCode
  else if n = 4 then num16 b.geometry.d
  else if n = 5 then num16 b.geometry.p
  else if n = 6 then low16 b.generation
  else if n = 7 then high16 b.generation
  else if n < 24 then
    let g := (b.guards[(n - 8) / 2]?).getD offGuard
    if n % 2 = 0 then g.word0 else g.word1
  else if n = 24 then b.stamp
  else if n = 25 then num16 b.pageCount
  else if n = 26 then low16 (crcFinal acc)
  else if n = 27 then high16 (crcFinal acc)
  else num16 ((b.entries[n - 28]?).getD 0)

/-- The word written after word n of an image with P entries: 1 to 25, then the entries, then 26 and 27; none after
27 (R69, R89). -/
def nextWord (p n : Nat) : Option Nat :=
  if n = 27 then none
  else if n = 26 then some 27
  else if n < 25 then some (n + 1)
  else if n = 25 then some (if p = 0 then 26 else 28)
  else if n + 1 < 28 + p then some (n + 1)
  else some 26

/-- Word n of a slot (R80). -/
def slotWord (slot : Slot) (n : Nat) : Addr :=
  match slot with
  | .a => BitVec.ofNat 20 n
  | .b => BitVec.ofNat 20 (0x1000 + n)

/-! ### Slot judgment (R84 to R86) -/

/-- Word n of the words read, 0 where it was not read. -/
def wordAt (words : List Word16) (n : Nat) : Word16 := (words[n]?).getD 0

/-- How many words of a slot a mount reads, given those read so far: 28, and P more when the slot is marked and
word 5 is from 1 to 4068 (R84). -/
def wordsToRead (words : List Word16) : Nat :=
  if 28 ≤ words.length ∧ wordAt words 0 = markWord ∧ 1 ≤ (wordAt words 5).toNat ∧ (wordAt words 5).toNat ≤ 4068 then
    28 + (wordAt words 5).toNat
  else 28

/-- The guard entries of words 8 to 23; none when one is not well-formed. -/
def readGuards (words : List Word16) : Option (List Guard) :=
  (List.range 8).mapM fun k => decodeGuard (wordAt words (8 + 2 * k)) (wordAt words (9 + 2 * k))

/-- The geometry of words 3 to 5, as whole words. -/
def readGeometry (words : List Word16) : Geometry :=
  { sizeCode := (wordAt words 3).toNat, d := (wordAt words 4).toNat, p := (wordAt words 5).toNat }

/-- A 32-bit value stored low word first. -/
def wordPair (words : List Word16) (n : Nat) : BitVec 32 := wordAt words (n + 1) ++ wordAt words n

/-- The verdict on the words read, with the accumulator advanced over the covered ones. -/
def judge (words : List Word16) (acc : BitVec 32) : Verdict :=
  if wordAt words 0 ≠ markWord then .blank
  else
    let g := readGeometry words
    let entries := (words.drop 28).map BitVec.toNat
    match readGuards words with
    | none => .invalid
    | some guards =>
      if wordAt words 1 = secondMagic ∧ wordAt words 2 = layoutVersion ∧ g.ok = true ∧
          crcFinal acc = wordPair words 26 ∧ entries.length = g.p ∧
          entries.all g.inPool = true ∧ entries.Nodup then
        .valid { geometry := g, generation := wordPair words 6, guards := guards, entries := entries }
      else .invalid

/-! ### Pairs and the mount decision (R88, R99) -/

/-- The outcome of a mount. -/
inductive MountOutcome where
  | ready (slot : Slot) (image : Image)
  | unformatted
  | faulted (reason : FaultedReason)
deriving DecidableEq, Repr

/-- Two valid images: the newer of the pair, or MISMATCH (R88). -/
def choosePair (a b : Image) : MountOutcome :=
  if a.geometry = b.geometry ∧ a.generation = b.generation + 1 then .ready .a a
  else if a.geometry = b.geometry ∧ b.generation = a.generation + 1 then .ready .b b
  else .faulted .mismatch

/-- Table 6-2. -/
def mountDecision (a b : Verdict) : MountOutcome :=
  match a, b with
  | .blank, .blank => .unformatted
  | .valid x, .blank => .ready .a x
  | .valid x, .invalid => .ready .a x
  | .blank, .valid y => .ready .b y
  | .invalid, .valid y => .ready .b y
  | .valid x, .valid y => choosePair x y
  | .invalid, .blank => .faulted .noValid
  | .blank, .invalid => .faulted .noValid
  | .invalid, .invalid => .faulted .noValid

end Sys2Proof.Machine
end

