-- ==== Sys2Proof/Machine/Groups.lean ====
section
/-! DEFINITION. The Group Controller: routing of atomic accesses, group entries, line fills, and the engine's next
operation (Chapter 3, R65, R67). -/

namespace Sys2Proof.Machine

/-- The entries a group can hold (Table 0-2). -/
abbrev groupCapacity : Nat := 32

/-! ### Line fills (R39 to R42) -/

/-- The address of a word of a line in a frame. -/
def lineAddress (frame line word : Nat) : Addr := physicalAddress frame (16 * line + word)

/-- The fill of a line of an entry, for a write that will be merged (R39). -/
def fillOf (e : Entry) (line : Nat) : Fill :=
  { entry := some e.page, line := line, source := e.superseded, target := e.shadow, mergeWanted := true, word := 0,
    held := none }

/-- A fill starts: it is the running fill at once (R39), and asks for its read (R40). DEDUCED (log entry 16): its first
read is not asked for while the last word of a cancelled COMPLETE copy is in flight. -/
def startFill (f : Fill) (s : State) : State :=
  requestEngine .read (lineAddress f.source f.line f.word) none
    { s with group := { s.group with running := some f } }

/-- A fill is ordered: it starts, joins the running fill of the same entry and line, or waits (R39). -/
def orderFill (e : Entry) (line : Nat) (s : State) : State :=
  match s.group.running with
  | none => startFill (fillOf e line) s
  | some f =>
    if f.entry = some e.page ∧ f.line = line then
      { s with group := { s.group with running := some { f with mergeWanted := true } } }
    else { s with group := { s.group with waiting := some (fillOf e line) } }

/-! ### Routing (R35 to R38, R43 to R46, R55) -/

/-- The frame an atomic read of a page and line is routed to (R43). -/
def readFrame (s : State) (page line : Nat) : Nat :=
  match s.group.state with
  | .idle => s.committedFrame page
  | .opened | .failed | .committing _ =>
    match findEntry s.group.table page with
    | some e => if e.hasLine line then e.shadow else s.committedFrame page
    | none => s.committedFrame page

/-- Route an atomic read: one word access at its frame (R43). -/
def routeRead (a : Access) (s : State) : State :=
  requestHost (readFrame s (pageOf a.address) (lineOf a.address)) a s

/-- A write that fails the group is refused: the event carries its page, and the group is FAILED (R44, R45). -/
def failGroup (kind : EventKind) (a : Access) (s : State) : State :=
  let s1 := post kind none (some (pageOf a.address)) none (refuse a false s)
  { s1 with group := { s1.group with state := .failed } }

/-- A write to a new page: one pop of the free list, a new entry, a fill of its line; or POOL_EMPTY (R28, R37, R45). -/
def newEntry (a : Access) (s : State) : State :=
  match s.pool with
  | [] => failGroup .poolEmpty a s
  | frame :: rest =>
    let page := pageOf a.address
    let e : Entry := { page := page, shadow := frame, superseded := s.committedFrame page, present := 0 }
    orderFill e (lineOf a.address)
      (holdAccess .lineFill a
        { s with pool := rest, group := { s.group with table := s.group.table ++ [e] } })

/-- Route an atomic write with the group OPEN (R35, R38, R39, R44). -/
def routeOpen (a : Access) (s : State) : State :=
  match findEntry s.group.table (pageOf a.address) with
  | some e =>
    if e.hasLine (lineOf a.address) then requestHost e.shadow a s
    else orderFill e (lineOf a.address) (holdAccess .lineFill a s)
  | none => if groupCapacity ≤ s.group.table.length then failGroup .groupFull a s else newEntry a s

/-- The group opens: open stamp, and the deadline timer loaded unless the deadline is 0 (R36, R51). -/
def openGroup (s : State) : State :=
  { s with group := { s.group with
      state := .opened
      openStamp := some s.events.tick
      deadline := if s.config.deadline = 0 then none else some s.config.deadline.toNat } }

/-- Route an atomic write with a non-empty lane set (R35). -/
def routeWrite (a : Access) (s : State) : State :=
  match s.group.state with
  | .idle => routeOpen a (openGroup s)
  | .opened => routeOpen a s
  | .failed => refuse a false s
  | .committing _ => holdAccess .commitHold a s

/-! ### The engine's next operation (R42, R56, R65, R67) -/

/-- The first absent line of an entry. -/
def firstLine (present : BitVec 16) : Option Nat := (List.range 16).find? fun l => !present.getLsbD l

/-- The first absent line in table order, and the position of its entry (R65). -/
def firstAbsent : List Entry → Nat → Option (Nat × Nat)
  | [], _ => none
  | e :: t, i =>
    match firstLine e.present with
    | some l => some (i, l)
    | none => firstAbsent t (i + 1)

/-- Replace the commit record. -/
def withRecord (r : CommitRecord) (s : State) : State := { s with commit := { s.commit with record := some r } }

/-- COMPLETE goes on to the next absent line and asks for its first read; with none left it asks for nothing (R65). DESIGN CHOICE (unsafe, log entry 17): the retire
write is then asked for by COMPLETE_END, and not at the completion of the last copy's word. -/
def requestCopy (r : CommitRecord) (s : State) : State :=
  match firstAbsent s.group.table 0 with
  | none => s
  | some (i, l) =>
    match s.group.table[i]? with
    | none => s
    | some e =>
      requestEngine .read (lineAddress e.superseded l 0) none
        (withRecord { r with copyEntry := i, copyLine := l, copyWord := 0, copyHeld := none } s)

/-- The retire write: 0000h to word 0 of the target slot (R67). -/
def requestRetire (r : CommitRecord) (s : State) : State :=
  requestEngine .write (slotWord r.target 0) (some 0x0000) s

/-- With no fill running, the engine requester passes on: to the waiting fill, else to the first word of a commit that
waited for the fills (R41, R42, R56). -/
def engineNext (s : State) : State :=
  match s.group.running with
  | some _ => s
  | none =>
    match s.group.waiting with
    | some f => startFill f { s with group := { s.group with waiting := none } }
    | none =>
      match s.group.state, s.commit.record with
      | .committing .complete, some r => requestCopy r s
      | .committing .retire, some r => requestRetire r s
      | _, _ => s

/-- An engine word that went on for nobody has completed, and with it its operation has ended (R66): the operation that
waited for the engine requester asks for its first word, the running fill or what `engineNext` gives (R42, R123). -/
def resumeEngine (s : State) : State :=
  match s.group.running with
  | some f => startFill f s
  | none => engineNext s

/-- The filling write of a fill that has ended is released: to its merge in the shadow frame, or, where an abort has
taken the entry away, to be routed afresh (R41, R48). -/
def releaseFill (f : Fill) (s : State) : State :=
  match s.host.access, s.host.hold, f.mergeWanted, f.entry with
  | some a, .lineFill, true, some _ => requestHost f.target a s
  | some a, .lineFill, true, none => routeWrite a s
  | _, _, _, _ => s

/-- A running fill ends: with its entry in the table the line becomes present, the filling write is released, and the
engine requester passes on (R40 to R42). -/
def endFill (f : Fill) (s : State) : State :=
  let s1 := { s with group := { s.group with running := none } }
  let s2 := match f.entry with
    | some page => { s1 with group := { s1.group with table := markPresent s1.group.table page f.line } }
    | none => s1
  engineNext (releaseFill f s2)

/-- A word of the running fill completes: after a read comes the write of the same word, after a write the next read,
and after the sixteenth write the fill ends (R40). -/
def fillStep (f : Fill) (w : Word16) (s : State) : State :=
  match f.held with
  | none =>
    requestEngine .write (lineAddress f.target f.line f.word) (some w)
      { s with group := { s.group with running := some { f with held := some w } } }
  | some _ =>
    if f.word < 15 then startFill { f with word := f.word + 1, held := none } s
    else endFill f s

end Sys2Proof.Machine
end

