-- ==== Sys2Proof/Machine/HostPath.lean ====
section
/-! DEFINITION. The Host Path and the Access Classifier: take, classes, the end of a host cycle, and the release of
read data (Chapter 1, R113 to R116). -/

namespace Sys2Proof.Machine

/-! ### Guards (R113) -/

/-- A guard entry covers a page unless its mode is OFF. -/
def Guard.covers (g : Guard) (page : Nat) : Bool := g.mode != .off && decide (g.first ≤ page) && decide (page ≤ g.last)

/-- The strongest mode among the current entries that cover the page (R113). -/
def effectiveMode (table : List Guard) (page : Nat) : GuardMode :=
  if table.any fun g => g.covers page && g.mode == .all then .all
  else if table.any fun g => g.covers page && g.mode == .write then .write
  else .off

/-! ### The Classifier (R4, R8) -/

/-- The class by window, once no guard refuses the access (R8, test 4). -/
def windowClass (g : Geometry) (page : Nat) : AccessClass := if page < g.d then .direct else .atomic

/-- The four tests of R8. -/
def classifyReady (g : Geometry) (table : List Guard) (page : Nat) (kind : AccessKind) : AccessClass :=
  if g.d + g.p ≤ page then .unbacked
  else
    match effectiveMode table page, kind with
    | .all, _ => .guarded
    | .write, .write => .guarded
    | .write, .read => windowClass g page
    | .off, _ => windowClass g page

/-- The class of an access at its take (R4, R8, Table 1-3). -/
def classify (s : State) (page : Nat) (kind : AccessKind) : AccessClass :=
  match s.mount.device with
  | .resetHeld | .mounting | .formatting | .halted => .notReady
  | .unformatted | .faulted => .raw
  | .ready => classifyReady s.geometry s.guards.current page kind

/-! ### Hits (R9, R10, R115, R116) -/

/-- A hit starts or restarts the HRST# pulse when the guard action asks for it (R115, R116). -/
def startPulse (s : State) : State :=
  match s.config.guardAction with
  | .event => s
  | .eventAndHostReset => { s with guards := { s.guards with pulse := some (tickPeriod s.config.divider) } }

/-- A refusal of class UNBACKED or GUARDED: its event, the guard action, and the refusal (R9, R10, R13). -/
def hit (onRead onWrite : EventKind) (a : Access) (s : State) : State :=
  let kind := match a.kind with
    | .read => onRead
    | .write => onWrite
  refuse a false (startPulse (post kind (some a.address) none none s))

/-! ### Serving a classified access (R5 to R12, R15) -/

/-- A RAW access: performed at the identical address, but a write in FAULTED is refused with RAW_WRITE (R6, R7). -/
def serveRaw (a : Access) (s : State) : State :=
  match s.mount.device, a.kind with
  | .faulted, .write => refuse a false (post .rawWrite (some a.address) none none s)
  | _, _ => if a.lanes.isEmpty then endService s else requestHost (pageOf a.address) a s

/-- An ATOMIC access with a non-empty lane set goes to the Group Controller (R12). -/
def serveAtomic (a : Access) (s : State) : State :=
  match a.kind with
  | .read => routeRead a s
  | .write => routeWrite a s

/-- What the class of an access makes of it. An access with an empty lane set that is not refused completes at once
(R15). -/
def serveClass (a : Access) (s : State) : State :=
  match a.cls with
  | .notReady => refuse a true s
  | .raw => serveRaw a s
  | .unbacked => hit .unbackedRead .unbackedWrite a s
  | .guarded => hit .guardedRead .guardedWrite a s
  | .direct => if a.lanes.isEmpty then endService s else requestHost (32 + pageOf a.address) a s
  | .atomic => if a.lanes.isEmpty then endService s else serveAtomic a s

/-- Classify an access and serve it: at its take, and again when a write is taken afresh (R4, R17). -/
def serveAccess (a : Access) (s : State) : State :=
  serveClass { a with cls := classify s (pageOf a.address) a.kind } s

/-- R1: one access in each host cycle, taken when a strobe is asserted. -/
def takeAccess (address : Addr) (hoe hwe hlb hub : Bool) (hd : Word16) (s : State) : State :=
  if s.host.cycleTaken || !(hoe || hwe) then s
  else
    arbitrate (serveAccess (accessRecord address hwe hlb hub hd .notReady)
      { s with host := { s.host with cycleTaken := true } })

/-! ### The end of a host cycle (R16) -/

/-- What becomes of the work of an access given up by the host (R16, R41). -/
def giveUp (s : State) : State :=
  match s.host.hold with
  | .none => { s with port := { s.port.orphan .host with hostReq := none } }
  | .lineFill =>
    match s.group.waiting with
    | some _ => { s with group := { s.group with waiting := none } }
    | none => { s with group := { s.group with running := s.group.running.map dropMerge } }
  | .commitHold => s

/-- HCE# is deasserted: the access in service, if held, is given up, HD is high-impedance, and a new cycle can come
(R1, R16). -/
def endCycle (s : State) : State :=
  let s1 := match s.host.access with
    | some _ => giveUp s
    | none => s
  { s1 with host := { HostPath.cleared with cycleTaken := false } }

/-- HOE# is deasserted with nothing held: HD returns to high-impedance (R14). -/
def releaseData (s : State) : State :=
  match s.host.access with
  | some _ => s
  | none => { s with host := { s.host with hd := none } }

/-! ### Completion of the access in service (R11, R14) -/

/-- The access in service completes: a read's word is returned on the enabled lanes. `underReset` says that an assertion
of RST# came while the word access was in flight: it has then ended the access in service, and HD is high-impedance,
also when RST# has been released by then (R2, R17). So it is in RESET_HELD. -/
def completeHost (underReset : Bool) (w : Word16) (s : State) : State :=
  match s.host.access with
  | none => s
  | some a =>
    match a.kind with
    | .read =>
      let s1 := driveHd w a.lanes false (endService s)
      if underReset = true ∨ s.mount.device = .resetHeld then { s1 with host := s1.host.atReset } else s1
    | .write => endService s

end Sys2Proof.Machine
end

