-- ==== Sys2Proof/Machine/Commits.lean ====
section
/-! DEFINITION. The Commit Engine and aborts: commit requests, the phases, SWITCH, cancellation, abort and what an
abort does to the access in service (Chapter 4, R47, R48, R52). -/

namespace Sys2Proof.Machine

/-! ### Abort (R47, R48, R66) -/

/-- The group is given back: shadow frames to the free list tail in table order, table emptied, IDLE; a waiting fill
is discarded and a running one loses its entry (R29, R47). -/
def dissolveGroup (s : State) : State :=
  { s with
    pool := s.pool ++ s.group.table.map Entry.shadow
    group := { GroupControl.cleared with running := s.group.running.map fun f => { f with entry := none } } }

/-- ABORT_DONE, with the number of entries the group held (R47). -/
def postAbortDone (entries : Nat) (s : State) : State := post .abortDone none none (some (num8 entries)) s

/-- A frame is the shadow frame of an entry. -/
def isShadow (table : List Entry) (frame : Nat) : Bool := table.any fun e => e.shadow == frame

/-- The frame a request is made in. -/
def Request.frame (r : Request) : Nat := pageOf r.address

/-- The access in service has a routing that the abort makes void (R48). `table` and `waited` are the group's table
and whether a fill was waiting, before the abort. -/
def reroute (table : List Entry) (waited : Bool) (s : State) : State :=
  match s.host.access with
  | none => s
  | some a =>
    match s.host.hold with
    | .commitHold => serveAccess a s
    | .lineFill => if waited then routeWrite a s else s
    | .none =>
      match s.port.hostReq with
      | none => s
      | some r =>
        if a.cls = .atomic ∧ isShadow table r.frame = true then serveAtomic a (withdrawHost s) else s

/-- Abort the group, tell it, and deal with the access in service (R47, R48). -/
def abortGroup (tell : State → State) (s : State) : State :=
  reroute s.group.table s.group.waiting.isSome (tell (dissolveGroup s))

/-- A running commit's copy stops and its record becomes absent. A line fill that still runs keeps the engine
requester (R66, R125). The copy's word in flight completes for nobody, and the copy ends with it: until then the engine
requester carries no other operation (R123, `Port.askEngine`). -/
def cancelCommit (s : State) : State :=
  let s1 := match s.group.running with
    | some _ => s
    | none => withdrawEngine s
  { s1 with commit := { s1.commit with record := none } }

/-- The deadline expires: with the group OPEN or FAILED it is aborted with DEADLINE_ABORT (R52). -/
def expire (s : State) : State :=
  match s.mount.device, s.group.deadline, s.group.state with
  | .ready, some 0, .opened | .ready, some 0, .failed =>
    arbitrate (abortGroup (post .deadlineAbort none none none) s)
  | _, _, _ => s

/-! ### Commit requests (R59 to R62) -/

/-- The slot that is not active (R62). -/
def otherSlot (active : Option Slot) : Slot :=
  match active with
  | some .a => .b
  | some .b => .a
  | none => .a

/-- The commit record formed at the start (R62). -/
def newRecord (s : State) (kind : CommitKind) : CommitRecord :=
  { kind := kind
    target := otherSlot s.xlate.activeSlot
    source := if s.guards.staged.isSome then .staged else .current
    pageCount := s.group.table.length
    copyEntry := 0
    copyLine := 0
    copyWord := 0
    copyHeld := none
    body := none
    writePos := some 0 }

/-- A commit starts: COMMITTING in COMPLETE or RETIRE, the deadline timer stopped, the record formed, and the first
word asked for unless a fill still runs (R54, R62, R65). -/
def startCommit (kind : CommitKind) (s : State) : State :=
  let phase := match kind with
    | .group => Phase.complete
    | .guardOnly => Phase.retire
  engineNext
    (withRecord (newRecord s kind) { s with group := { s.group with state := .committing phase, deadline := none } })

/-- What a commit request taken in READY finds (R61): the commit it starts, or the refusal. -/
def commitAnswer (s : State) : Except Result CommitKind :=
  match s.group.state with
  | .opened => .ok .group
  | .idle => if s.guards.staged.isSome then .ok .guardOnly else .error .noGroup
  | .failed => .error .groupFailed
  | .committing _ => .error .busy

/-- The Commit Engine takes the latched request at once: it clears the latch and answers (R59, R61). -/
def answerLatch (s : State) : State :=
  if s.commit.latch then
    let s1 := { s with commit := { s.commit with latch := false } }
    match commitAnswer s1 with
    | .ok kind => arbitrate (startCommit kind s1)
    | .error why => post .commitRefused none none (some why.code) s1
  else s

/-- A rising edge on CMT sets the latch in READY, and is ignored elsewhere (R59). -/
def takeCmt (s : State) : State :=
  match s.mount.device with
  | .ready => answerLatch { s with commit := { s.commit with latch := true } }
  | .resetHeld | .mounting | .unformatted | .faulted | .formatting | .halted => s

/-! ### COMPLETE (R56, R65) -/

/-- A host write waits for its word access, or is in it, in a shadow frame of the group (R56). -/
def shadowWritePending (s : State) : Bool :=
  let toShadow (r : Request) : Bool := r.kind == .write && isShadow s.group.table r.frame
  (match s.port.hostReq with
    | some r => toShadow r
    | none => false) ||
  (match s.port.flight with
    | some f => f.requester == .host && toShadow f.request
    | none => false)

/-- No line is absent, no fill runs or waits, and no write to a shadow frame is pending (R65). -/
def completeDone (s : State) : Bool :=
  s.group.table.all (fun e => e.present == 0xFFFF) && s.group.running.isNone && s.group.waiting.isNone &&
    s.host.hold != .lineFill && !shadowWritePending s

/-- COMPLETE ends: the phase becomes RETIRE and the retire write is requested (R65, R67). DESIGN CHOICE (unsafe, log
entry 17): COMPLETE_END is a step of its own, so the retire write's request takes no part in the grant decision at the
completion of the word that made the last line present, or of the last write to a shadow frame. -/
def endComplete (s : State) : State :=
  match s.mount.device, s.group.state, s.commit.record with
  | .ready, .committing .complete, some r =>
    if completeDone s then
      arbitrate (requestRetire r { s with group := { s.group with state := .committing .retire } })
    else s
  | _, _, _ => s

/-- A word of a COMPLETE copy completes (R65). -/
def copyStep (r : CommitRecord) (w : Word16) (s : State) : State :=
  match s.group.table[r.copyEntry]? with
  | none => s
  | some e =>
    match r.copyHeld with
    | none =>
      requestEngine .write (lineAddress e.shadow r.copyLine r.copyWord) (some w)
        (withRecord { r with copyHeld := some w } s)
    | some _ =>
      if r.copyWord < 15 then
        requestEngine .read (lineAddress e.superseded r.copyLine (r.copyWord + 1)) none
          (withRecord { r with copyWord := r.copyWord + 1, copyHeld := none } s)
      else
        requestCopy r
          { s with group := { s.group with table := markPresent s.group.table e.page r.copyLine } }

/-! ### RETIRE, WRITE and MARK (R67 to R70) -/

/-- The committed frames with the group's shadow frames in their places (R22, R68). -/
def committedMap (d : Nat) (table : List Entry) (map : List Nat) : List Nat :=
  table.foldl (fun m e => m.set (e.page - d) e.shadow) map

/-- The guard table that a guard source names (R68). -/
def sourceGuards (source : GuardSource) (g : GuardUnit) : List Guard :=
  match source with
  | .staged => g.staged.getD g.current
  | .current => g.current

/-- The image a commit writes (R68). -/
def commitImage (s : State) (r : CommitRecord) (b : CommitBody) : ImageBody :=
  { geometry := s.geometry
    generation := b.generation
    guards := sourceGuards r.source s.guards
    stamp := b.stamp
    pageCount := r.pageCount
    entries := committedMap s.geometry.d s.group.table s.xlate.map }

/-- Ask for the write of word n of the image. -/
def requestImageWord (r : CommitRecord) (b : CommitBody) (n : Nat) (s : State) : State :=
  requestEngine .write (slotWord r.target n) (some ((commitImage s r b).word b.acc n))
    (withRecord { r with body := some b, writePos := some n } s)

/-- The retire write completes: WRITE begins, fixing the new generation and the commit stamp (R67, R68). -/
def startWrite (r : CommitRecord) (s : State) : State :=
  requestImageWord r
    { generation := s.xlate.generation + 1, stamp := s.events.tick, acc := crcStart } 1
    { s with group := { s.group with state := .committing .write } }

/-- An image word completes: it is taken into the accumulator if covered, and the next word, or the mark write, is
requested (R69, R70). -/
def writeStep (r : CommitRecord) (written : Word16) (s : State) : State :=
  match r.body, r.writePos with
  | some b, some n =>
    let b' := { b with acc := if covered n then crcWord b.acc written else b.acc }
    match nextWord s.geometry.p n with
    | some n' => requestImageWord r b' n' s
    | none =>
      requestEngine .write (slotWord r.target 0) (some markWord)
        (withRecord { r with body := some b', writePos := some 0 }
          { s with group := { s.group with state := .committing .mark } })
  | _, _ => s

/-- The mark write completes: the durability point. SWITCH is now due (R70). -/
def markDone (r : CommitRecord) (s : State) : State := withRecord { r with writePos := none } s

/-- A word of the running commit completes. `w` is the word read or written. -/
def commitStep (w : Word16) (s : State) : State :=
  match s.group.state, s.commit.record with
  | .committing .complete, some r => copyStep r w s
  | .committing .retire, some r => startWrite r s
  | .committing .write, some r => writeStep r w s
  | .committing .mark, some r => markDone r s
  | _, _ => s

/-! ### SWITCH (R22, R29, R71) -/

/-- The volatile state takes the image just marked, in every block at once (R71). -/
def switchState (r : CommitRecord) (b : CommitBody) (s : State) : State :=
  { s with
    xlate := { s.xlate with
      map := committedMap s.geometry.d s.group.table s.xlate.map
      generation := b.generation
      activeSlot := some r.target }
    guards := match r.source with
      | .staged => { s.guards with current := s.guards.staged.getD s.guards.current, staged := none }
      | .current => s.guards
    pool := s.pool ++ s.group.table.map Entry.superseded
    group := { GroupControl.cleared with running := s.group.running }
    commit := { s.commit with record := none } }

/-- A write held for COMMIT_HOLD is released and taken afresh (R17, R55). -/
def releaseCommitHold (s : State) : State :=
  match s.host.access, s.host.hold with
  | some a, .commitHold => serveAccess a s
  | _, _ => s

/-- SWITCH is due once the mark write has completed (R70, R71). -/
def takeSwitch (s : State) : State :=
  match s.mount.device, s.group.state, s.commit.record with
  | .ready, .committing .mark, some r =>
    match r.body, r.writePos with
    | some b, none =>
      arbitrate
        (releaseCommitHold (post .commitDone none none (some (num8 r.pageCount)) (switchState r b s)))
    | _, _ => s
  | _, _, _ => s

end Sys2Proof.Machine
end

