-- ==== Sys2Proof/Machine/Mounts.lean ====
section
/-! DEFINITION. The Mount Engine: the mount's reads and decision, the format's writes, and the loadings that end
them; and the completion of a memory word access, which drives every engine (Chapter 6, R122). -/

namespace Sys2Proof.Machine

/-! ### Loading (R21, R30, R100, R107) -/

/-- Load a volume, in every block at once, and become READY. An access still held is ended by the change (R17). -/
def loadVolume (g : Geometry) (map : List Nat) (generation : BitVec 32) (slot : Slot) (table : List Guard)
    (s : State) : State :=
  let s1 := releaseAccess s
  { s1 with
    xlate := { geometry := some g, map := map, generation := generation, activeSlot := some slot }
    pool := g.freeFrames map
    guards := { s1.guards with current := table, staged := none }
    group := .cleared
    mount := { s1.mount with device := .ready, reason := none, run := .idle, format := none } }

/-- The detail of MOUNT_READY: cause in bits 7 to 4, slot in bits 3 to 0 (Table 12-7). -/
def mountDetail (cause : Option MountCause) (slot : Slot) : Byte := (causeCode cause <<< 4) ||| slot.code

/-- A mount ends with READY from a slot (R100). -/
def mountReady (slot : Slot) (image : Image) (s : State) : State :=
  let s1 := loadVolume image.geometry image.entries image.generation slot image.guards s
  post .mountReady none none (some (mountDetail s1.mount.cause slot)) s1

/-- A mount ends without a volume, in UNFORMATTED or FAULTED (R101, R102). -/
def mountNothing (device : DeviceState) (reason : Option FaultedReason) (s : State) : State :=
  let s1 := releaseAccess s
  { s1 with mount := { s1.mount with device := device, reason := reason, run := .idle, format := none } }

/-- The mount decision takes effect (R99 to R102). -/
def endMount (outcome : MountOutcome) (s : State) : State :=
  match outcome with
  | .ready slot image => mountReady slot image s
  | .unformatted => post .mountBlank none none none (mountNothing .unformatted none s)
  | .faulted reason => post .mountFault none none (some reason.code) (mountNothing .faulted (some reason) s)

/-! ### Mount (R98, R99) -/

/-- Ask for the next word of a slot. -/
def readSlotWord (slot : Slot) (verdictA : Option Verdict) (words : List Word16) (acc : BitVec 32) (s : State) :
    State :=
  requestEngine .read (slotWord slot words.length) none
    { s with mount := { s.mount with run := .reading slot verdictA words acc } }

/-- Enter MOUNTING with its cause; the change ends the access in service (R17, R96, R98). -/
def enterMounting (cause : MountCause) (s : State) : State :=
  { releaseAccess s with
    mount := { device := .mounting, reason := none, cause := some cause, run := .waiting, format := none } }

/-- The first read of a mount: no fill runs and no word access is in flight (R98, R127). -/
def startMount (s : State) : State :=
  match s.mount.device, s.mount.run, s.group.running, s.port.flight with
  | .mounting, .waiting, none, none => arbitrate (readSlotWord .a none [] crcStart s)
  | _, _, _, _ => s

/-- A word of a slot has been read: the next one, the other slot, or the decision (R84, R98, R99). -/
def mountStep (w : Word16) (s : State) : State :=
  match s.mount.run with
  | .idle => s
  | .waiting => s
  | .reading slot verdictA words acc =>
    let words' := words ++ [w]
    let acc' := if covered words.length then crcWord acc w else acc
    if words'.length < wordsToRead words' then readSlotWord slot verdictA words' acc' s
    else
      let v := judge words' acc'
      match slot, verdictA with
      | .a, _ => readSlotWord .b (some v) [] crcStart s
      | .b, some va => endMount (mountDecision va v) s
      | .b, none => s

/-! ### Format (R105 to R107) -/

/-- A format accepted and not yet writing, with the command's geometry. -/
def newFormat (g : Geometry) : FormatRun := { geometry := g, step := none, stamp := none, acc := crcStart }

/-- Enter FORMATTING, keeping the command's geometry; the change ends the access in service (R17, R105). -/
def enterFormatting (g : Geometry) (s : State) : State :=
  { releaseAccess s with
    mount := { s.mount with device := .formatting, reason := none, run := .idle, format := some (newFormat g) } }

/-- Entry i of a fresh volume: frame 32 + D + i (R21, R106). -/
def freshMap (g : Geometry) : List Nat := List.range' (32 + g.d) g.p

/-- The image a format writes (R106). -/
def formatImage (f : FormatRun) : ImageBody :=
  { geometry := f.geometry
    generation := 1
    guards := List.replicate 8 offGuard
    stamp := f.stamp.getD 0
    pageCount := 0
    entries := freshMap f.geometry }

/-- The address and data of a format's write (R106). -/
def formatWrite (f : FormatRun) (at' : FormatStep) : Addr × Word16 :=
  match at' with
  | .retireA => (slotWord .a 0, 0x0000)
  | .retireB => (slotWord .b 0, 0x0000)
  | .body n => (slotWord .a n, (formatImage f).word f.acc n)
  | .mark => (slotWord .a 0, markWord)

/-- Ask for a write of the format. -/
def requestFormat (f : FormatRun) (at' : FormatStep) (s : State) : State :=
  requestEngine .write (formatWrite f at').1 (some (formatWrite f at').2)
    { s with mount := { s.mount with format := some { f with step := some at' } } }

/-- The first write of a format: no fill runs and no word access is in flight (R105, R106). -/
def startFormatWrites (s : State) : State :=
  match s.mount.device, s.mount.format, s.group.running, s.port.flight with
  | .formatting, some f, none, none =>
    match f.step with
    | none => arbitrate (requestFormat f .retireA s)
    | some _ => s
  | _, _, _, _ => s

/-- The mark write of slot A completes: the format ends (R107). -/
def endFormat (f : FormatRun) (s : State) : State :=
  post .formatDone none none none
    (loadVolume f.geometry (freshMap f.geometry) 1 .a (List.replicate 8 offGuard) s)

/-- A write of the format completes: the next one, or the end (R106, R107). The commit stamp is the tick counter when
the write of word 1 is requested. -/
def formatStep (written : Word16) (s : State) : State :=
  match s.mount.format with
  | none => s
  | some f =>
    match f.step with
    | none => s
    | some .retireA => requestFormat f .retireB s
    | some .retireB => requestFormat { f with stamp := some s.events.tick, acc := crcStart } (.body 1) s
    | some (.body n) =>
      let f' := { f with acc := if covered n then crcWord f.acc written else f.acc }
      match nextWord f.geometry.p n with
      | some n' => requestFormat f' (.body n') s
      | none => requestFormat f' .mark s
    | some .mark => endFormat f s

/-! ### Completion of a memory word access (R122) -/

/-- Hand the word to the engine operation that asked for it (R123). -/
def completeEngine (w : Word16) (s : State) : State :=
  match s.group.running with
  | some f => fillStep f w s
  | none =>
    match s.mount.device with
    | .ready => commitStep w s
    | .mounting => mountStep w s
    | .formatting => formatStep w s
    | .resetHeld | .unformatted | .faulted | .halted => s

/-- What memory holds once an access has completed (R122). -/
def performRequest (r : Request) (m : Memory) : Memory :=
  match r.kind with
  | .read => m
  | .write => writeWord m r.address r.lanes (r.data.getD 0)

/-- The word an access hands over: the word read, or the word written. -/
def requestWord (r : Request) (m : Memory) : Word16 :=
  match r.kind with
  | .read => readWord m r.address
  | .write => r.data.getD 0

/-- The port becomes idle; MA returns to 00000h if RST# was asserted meanwhile (R122). -/
def Port.idleAgain (p : Port) : Port :=
  { p with flight := none, ma := if p.underReset then 0 else p.ma, underReset := false }

/-- Hand the completed access over to the host access or the engine operation it was made for, if that still waits
(R16, R17, R58, R127). `underReset` says that RST# has been asserted under it. After an engine word that went on for nobody the engine
requester is free for the operation that waits for it (R123). -/
def deliver (f : Flight) (underReset : Bool) (w : Word16) (s : State) : State :=
  match f.live, f.requester with
  | false, .host => s
  | false, .engine => resumeEngine s
  | true, .host => completeHost underReset w s
  | true, .engine => completeEngine w s

/-- The access in flight completes, its data is handed over, and the port makes its next grant decision (R122). -/
def completeWordAccess (s : State) : State :=
  match s.port.flight with
  | none => s
  | some f =>
    arbitrate
      (deliver f s.port.underReset (requestWord f.request s.mem)
        { s with mem := performRequest f.request s.mem, port := s.port.idleAgain })

end Sys2Proof.Machine
end

