-- ==== Sys2Proof/Machine/Supplies.lean ====
section
/-! DEFINITION. Supply loss, reset, power-on, and the events of time (Chapter 9, R116, R150). -/

namespace Sys2Proof.Machine

/-! ### HALTED (R129, R130) -/

/-- Entry to HALTED, taken whole (Table 9-1): the access in service ends as R17 gives, every operation is abandoned,
the volume is cleared, and HALT is posted with the state left. -/
def enterHalted (s : State) : State :=
  let s1 := withdrawEngine (withdrawHost (clearVolume (releaseAccess s)))
  post .halt none none (some s.mount.device.code)
    { s1 with
      group := .cleared
      guards := { s1.guards with pulse := none }
      port := { s1.port with passCount := 0 }
      mount := { s1.mount with device := .halted, reason := none, run := .idle, format := none } }

/-- The PFAIL# level as last taken. -/
def setPfail (level : Bool) (s : State) : State := { s with supply := { s.supply with pfail := level } }

/-- An assertion of PFAIL# (R128, R129): in RESET_HELD it sets the level, in HALTED it changes nothing. -/
def assertPfail (s : State) : State :=
  match s.mount.device with
  | .resetHeld => setPfail true s
  | .halted => s
  | .mounting | .ready | .unformatted | .faulted | .formatting => enterHalted (setPfail true s)

/-- A release of PFAIL# (R132): in HALTED the part mounts with cause SUPPLY_RETURN. -/
def releasePfail (s : State) : State :=
  match s.mount.device with
  | .halted => enterMounting .supplyReturn (setPfail false s)
  | .resetHeld | .mounting | .ready | .unformatted | .faulted | .formatting => setPfail false s

/-! ### Reset (R133 to R135) -/

/-- The arbiter at an assertion of RST#: requests withdrawn, pass count 0, and MA at 00000h once the access in flight
has completed (R122, R127). -/
def Port.atReset (p : Port) : Port :=
  { p.orphan .engine with
    hostReq := none
    engineReq := none
    passCount := 0
    ma := if p.flight.isSome then p.ma else 0
    underReset := p.flight.isSome }

/-- Entry to RESET_HELD by RST#: the access in service ends as R17 gives and HD is released (R2), every operation is
abandoned, and every volatile item takes its reset value (Table 9-4). -/
def enterReset (s : State) : State :=
  let s1 := releaseAccess s
  { s1 with
    host := s1.host.atReset
    supply := { s1.supply with rst := true, origin := some .pin }
    mount := .cleared
    xlate := .cleared
    pool := []
    group := .cleared
    commit := .cleared
    guards := .cleared
    port := s1.port.atReset
    config := .default
    framer := .outside s1.framer.scsLow
    events := .cleared }

/-- An assertion of RST# (R128, R133): in RESET_HELD it sets the level only. -/
def assertRst (s : State) : State :=
  match s.mount.device with
  | .resetHeld => { s with supply := { s.supply with rst := true } }
  | .mounting | .ready | .unformatted | .faulted | .formatting | .halted => enterReset s

/-- The mount cause that a reset origin gives (R96). -/
def causeOf (origin : Option ResetOrigin) : MountCause :=
  match origin with
  | some .pin => .pin
  | some .power => .power
  | none => .power

/-- RESET_HELD ends: the first tick period begins, and the PFAIL# level decides the next device state (R135). -/
def leaveReset (s : State) : State :=
  let s1 := { s with
    supply := { s.supply with origin := none }
    events := { s.events with period := some (tickPeriod s.config.divider) } }
  if s.supply.pfail then enterHalted s1 else enterMounting (causeOf s.supply.origin) s1

/-- A release of RST#: RESET_HELD ends if power-on has ended (R135). -/
def releaseRst (s : State) : State :=
  let s1 := { s with supply := { s.supply with rst := false } }
  match s.mount.device, s.supply.rst, s.supply.powerOnEnded with
  | .resetHeld, true, true => leaveReset s1
  | _, _, _ => s1

/-- The end of power-on: RESET_HELD ends if RST# is released (R128, R135). -/
def endPowerOn (s : State) : State :=
  if s.mount.device = .resetHeld ∧ s.supply.powerOnEnded = false then
    let s1 := { s with supply := { s.supply with powerOnEnded := true } }
    if s.supply.rst then s1 else leaveReset s1
  else s

/-! ### Power (R128, R136) -/

/-- Memory when the supply fails: the enabled bytes of a write in flight are left open (R127, R136). -/
def tornMemory (s : State) : Memory :=
  match s.port.flight with
  | none => s.mem
  | some f =>
    match f.request.kind with
    | .read => s.mem
    | .write =>
      writeWord s.mem f.request.address f.request.lanes
        (Config.freeByte (s.freeNext + 1) ++ Config.freeByte s.freeNext)

/-- Every volatile item is lost; memory, the open bytes' counter and the queue are not the part's. -/
def loseSupply (s : State) : State :=
  { State.reset with
    supply := { powered := false, powerOnEnded := false, pfail := s.supply.pfail, rst := s.supply.rst, origin := none }
    framer := .outside s.framer.scsLow
    mem := tornMemory s
    freeNext := s.freeNext + 2
    pending := s.pending }

/-- The supply rises: RESET_HELD with reset origin POWER, every volatile item at its reset value, the levels as they
are on the lines (R128, Table 9-4). A part that still had its supply has first lost it. -/
def risePower (pfail rst scs : Bool) (s : State) : State :=
  let s1 := if s.supply.powered then loseSupply s else s
  { State.reset with
    supply := { powered := true, powerOnEnded := false, pfail := pfail, rst := rst, origin := some .power }
    framer := .outside scs
    mem := s1.mem
    freeNext := s1.freeNext
    pending := s1.pending }

/-! ### Time (R51, R116, R150) -/

/-- A tick is taken: the counter is increased, a new period begins with the configured length, and a running deadline
timer counts down (R51, R150). -/
def takeTick (s : State) : State :=
  match s.events.period with
  | none => s
  | some _ =>
    { s with
      events := { s.events with tick := s.events.tick + 1, period := some (tickPeriod s.config.divider) }
      group := { s.group with deadline := s.group.deadline.map fun n => n - 1 } }

/-- The HRST# pulse timer runs out (R116). -/
def endPulse (s : State) : State := { s with guards := { s.guards with pulse := none } }

end Sys2Proof.Machine
end

