-- ==== Sys2Proof/Machine/PowerCommands.lean ====
section
/-! DEFINITION. The meanings of the power, reset and supply-warning commands, and of the events of time. -/

namespace Sys2Proof.Machine

/-- Run an effect on a part that has its supply. A part whose supply has failed has stopped: nothing but a power-on
reaches it (R136). -/
def whenPowered (s : State) (effect : State → State) : Host.Outcome State Fault Refusal :=
  .next (if s.supply.powered then effect s else s)

/-- POWER_ON (R128). -/
def execPowerOn (pfail rst scs : Bool) (s : State) : Host.Outcome State Fault Refusal :=
  .next (risePower pfail rst scs s)

/-- END_OF_POWER_ON (R135). -/
def execEndOfPowerOn (s : State) : Host.Outcome State Fault Refusal := whenPowered s endPowerOn

/-- RST_ASSERT (R133). -/
def execRstAssert (s : State) : Host.Outcome State Fault Refusal := whenPowered s assertRst

/-- RST_RELEASE (R135). -/
def execRstRelease (s : State) : Host.Outcome State Fault Refusal := whenPowered s releaseRst

/-- PFAIL_ASSERT (R129). -/
def execPfailAssert (s : State) : Host.Outcome State Fault Refusal := whenPowered s assertPfail

/-- PFAIL_RELEASE (R132). -/
def execPfailRelease (s : State) : Host.Outcome State Fault Refusal := whenPowered s releasePfail

/-- SUPPLY_FAILURE (R136). -/
def execSupplyFailure (s : State) : Host.Outcome State Fault Refusal := whenPowered s loseSupply

/-- TICK (R150). -/
def execTick (s : State) : Host.Outcome State Fault Refusal := whenPowered s takeTick

/-- DEADLINE_ABORT (R52). -/
def execDeadlineAbort (s : State) : Host.Outcome State Fault Refusal := whenPowered s expire

/-- HRST_PULSE_END (R116). -/
def execHrstPulseEnd (s : State) : Host.Outcome State Fault Refusal := whenPowered s endPulse

end Sys2Proof.Machine
end

