-- ==== Sys2Proof/Machine/AccessCommands.lean ====
section
/-! DEFINITION. The meanings of the host-side commands and of the steps the part's engines make. A step of the part
that is not due in a state cannot come about there, and changes nothing. -/

namespace Sys2Proof.Machine

/-- HOST_ACCESS_TAKE (R1). -/
def execHostAccessTake (address : Addr) (hoe hwe hlb hub : Bool) (hd : Word16) (s : State) :
    Host.Outcome State Fault Refusal :=
  whenPowered s (takeAccess address hoe hwe hlb hub hd)

/-- HOST_CYCLE_END (R16). -/
def execHostCycleEnd (s : State) : Host.Outcome State Fault Refusal := whenPowered s endCycle

/-- READ_DATA_RELEASE (R14): HCE# deasserted also ends the host cycle (R1). -/
def execReadDataRelease (line : ReleaseLine) (s : State) : Host.Outcome State Fault Refusal :=
  whenPowered s (match line with
    | .hoe => releaseData
    | .hce => endCycle)

/-- MEMORY_WORD_ACCESS_COMPLETE (R122). -/
def execMemoryWordAccessComplete (s : State) : Host.Outcome State Fault Refusal := whenPowered s completeWordAccess

/-- COMPLETE_END (R65). -/
def execCompleteEnd (s : State) : Host.Outcome State Fault Refusal := whenPowered s endComplete

/-- SWITCH (R71). -/
def execSwitch (s : State) : Host.Outcome State Fault Refusal := whenPowered s takeSwitch

/-- CMT (R59). -/
def execCmt (s : State) : Host.Outcome State Fault Refusal := whenPowered s takeCmt

/-- MOUNT_START (R98). -/
def execMountStart (s : State) : Host.Outcome State Fault Refusal := whenPowered s startMount

/-- FORMAT_WRITES_START (R106). -/
def execFormatWritesStart (s : State) : Host.Outcome State Fault Refusal := whenPowered s startFormatWrites

end Sys2Proof.Machine
end

