-- ==== Sys2Proof/Machine/Flags.lean ====
section
/-! DEFINITION. The output lines of the part, each a function of the state. -/

namespace Sys2Proof.Machine

/-- READY is high in READY and UNFORMATTED (R97). -/
def State.readyPin (s : State) : Bool :=
  match s.mount.device with
  | .ready | .unformatted => true
  | .resetHeld | .mounting | .faulted | .formatting | .halted => false

/-- FAULT# is asserted exactly when some set latch belongs to an enabled class (R156). -/
def State.faultLine (s : State) : Bool := s.events.latches &&& s.config.enable != 0

/-- HRST# is asserted while the pulse timer runs (R116). -/
def State.hrstLine (s : State) : Bool := s.guards.pulse.isSome

/-- HWAIT# is asserted until the access in service ends (R14). -/
def State.hwaitLine (s : State) : Bool := s.host.access.isSome

/-- The byte the J28 shifts out on SDO, none while SDO is high-impedance (R137). -/
def State.sdo (s : State) : Option Byte :=
  match s.framer.state with
  | .outside => none
  | .command | .arguments | .spent => some 0xFF
  | .response => some ((s.framer.response[s.framer.next]?).getD 0xFF)

/-- MCE#, asserted for the length of an access (R122). -/
def State.mceLine (s : State) : Bool := s.port.flight.isSome

/-- MOE#, asserted for a read (R122). -/
def State.moeLine (s : State) : Bool :=
  match s.port.flight with
  | some f => f.request.kind == .read
  | none => false

/-- MWE#, asserted for a write (R122). -/
def State.mweLine (s : State) : Bool :=
  match s.port.flight with
  | some f => f.request.kind == .write
  | none => false

/-- The lanes on MLB# and MUB# (R122). -/
def State.memoryLanes (s : State) : Lanes :=
  match s.port.flight with
  | some f => f.request.lanes
  | none => { low := false, high := false }

/-- The word driven on MD, none while MD is high-impedance: a write drives its data (R122). -/
def State.mdDrive (s : State) : Option Word16 :=
  match s.port.flight with
  | some f =>
    match f.request.kind with
    | .write => f.request.data
    | .read => none
  | none => none

end Sys2Proof.Machine
end

