-- ==== Sys2Proof/Machine/Management.lean ====
section
/-! DEFINITION. The Management Port: the framer, and what each command's take answers and does (Chapters 10 to 12 and
the commands' own rules). A take answers the response bytes and the state. -/

namespace Sys2Proof.Machine

/-! ### Frames (R137 to R140) -/

/-- A falling edge of SCS#: a frame begins, unless the port does not answer (R134, R137). -/
def beginFrame (s : State) : State :=
  if s.framer.scsLow then s
  else
    match s.mount.device with
    | .resetHeld => { s with framer := { s.framer with scsLow := true } }
    | .mounting | .ready | .unformatted | .faulted | .formatting | .halted =>
      { s with framer := { Framer.outside true with state := .command } }

/-- A rising edge of SCS#: the frame ends, with what it had received and had left to send (R139, R140). -/
def endFrame (s : State) : State := { s with framer := .outside false }

/-- The number of argument bytes of a command, none for a code that names no command (Table 12-2, R138). -/
def argumentCount (code : Byte) : Option Nat :=
  if code = 0x01 then some 0
  else if code = 0x02 then some 0
  else if code = 0x03 then some 6
  else if code = 0x10 then some 0
  else if code = 0x11 then some 1
  else if code = 0x20 then some 0
  else if code = 0x21 then some 0
  else if code = 0x22 then some 1
  else if code = 0x23 then some 2
  else if code = 0x30 then some 2
  else if code = 0x31 then some 6
  else if code = 0x32 then some 0
  else if code = 0x40 then some 5
  else if code = 0x41 then some 0
  else none

/-- The framer waits for the byte that completes a command: its code, or its last argument (R138). -/
def Framer.awaits (f : Framer) (code : Byte) (count : Nat) : Bool :=
  if count = 0 then f.state == .command
  else f.state == .arguments && f.code == some code && f.args.length + 1 == count

/-- The part answers on the management port (R134). -/
def portAnswers (s : State) : Bool := s.mount.device != .resetHeld

/-- The response stands in the framer, to be shifted out from the next byte (R139). -/
def respond (code : Byte) (args response : List Byte) (s : State) : State :=
  { s with framer := { s.framer with
      state := .response, code := some code, args := args, response := response, next := 0 } }

/-- A result with no data. -/
def resultOnly (r : Result) (s : State) : List Byte × State := ([r.code], s)

/-- OK with its data. -/
def okWith (data : List Byte) (s : State) : List Byte × State := (Result.ok.code :: data, s)

/-- Take a command when the framer waits for its last byte; otherwise no take can come about and nothing changes. -/
def takeCommand (code : Byte) (count : Nat) (last : Option Byte) (take : List Byte → State → List Byte × State)
    (s : State) : State :=
  if portAnswers s && s.framer.awaits code count then
    let args := match last with
      | none => []
      | some b => s.framer.args ++ [b]
    let r := take args s
    respond code args r.1 r.2
  else s

/-- A code that names no command is answered BAD_CMD (R138). -/
def takeBadCmd (code : Byte) (s : State) : State :=
  if portAnswers s && s.framer.state == .command && argumentCount code == none then
    respond code [] [Result.badCmd.code] s
  else s

/-! ### Service by state (R143) -/

/-- The answer of a command that acts on the volume, outside READY (Table 10-2). -/
def volumeRefusal (s : State) : Option Result :=
  match s.mount.device with
  | .ready => none
  | .unformatted | .faulted => some .badState
  | .resetHeld | .mounting | .formatting | .halted => some .busy

/-- Serve a command in READY, or answer as `volumeRefusal` gives. -/
def onVolume (serve : State → List Byte × State) (s : State) : List Byte × State :=
  match volumeRefusal s with
  | some r => resultOnly r s
  | none => serve s

def GroupState.isCommitting : GroupState → Bool
  | .committing _ => true
  | .idle | .opened | .failed => false

/-! ### STATUS and the configuration (R144 to R147) -/

/-- The 23 bytes of Table 12-4. -/
def statusData (s : State) : List Byte :=
  [s.mount.device.code, reasonCode s.mount.reason, causeCode s.mount.cause, s.group.state.code,
      s.group.state.phaseCode, num8 s.group.table.length] ++
    bytes16 (num16 s.pool.length) ++ bytes32 s.xlate.generation ++
    [slotCode s.xlate.activeSlot, if s.guards.staged.isSome then 0x01 else 0x00, classByte s.events.latches,
      num8 s.events.queue.length, num8 s.geometry.sizeCode] ++
    bytes16 (num16 s.geometry.d) ++ bytes16 (num16 s.geometry.p) ++ bytes16 s.events.tick

def takeStatus (_ : List Byte) (s : State) : List Byte × State := okWith (statusData s) s

/-- The 6 bytes of Table 12-5. -/
def Configuration.bytes (c : Configuration) : List Byte :=
  bytes16 c.deadline ++ [c.divider, num8 c.stealShare, c.guardAction.code, classByte c.enable]

def takeConfigRead (_ : List Byte) (s : State) : List Byte × State := okWith s.config.bytes s

/-- The configuration that the six argument bytes name, if every argument passes (R146). -/
def configOf (args : List Byte) : Option Configuration :=
  let share := (argByte args 3).toNat
  match guardActionOf (argByte args 4), classSetOf (argByte args 5) with
  | some action, some enable =>
    if 1 ≤ share ∧ share ≤ 8 then
      some { deadline := arg16 args 0, divider := argByte args 2, stealShare := share, guardAction := action,
             enable := enable }
    else none
  | _, _ => none

def takeConfigWrite (args : List Byte) (s : State) : List Byte × State :=
  match s.mount.device with
  | .ready | .unformatted | .faulted =>
    match configOf args with
    | some c => resultOnly .ok { s with config := c }
    | none => resultOnly .badArg s
  | .resetHeld | .mounting | .formatting | .halted => resultOnly .busy s

/-! ### Events (R154, R155) -/

def takeEventPop (_ : List Byte) (s : State) : List Byte × State :=
  match s.events.queue with
  | [] => resultOnly .empty s
  | r :: rest => okWith r.bytes { s with events := { s.events with queue := rest } }

def takeEventAck (args : List Byte) (s : State) : List Byte × State :=
  match classSetOf (argByte args 0) with
  | none => resultOnly .badArg s
  | some set =>
    let latches := s.events.latches &&& ~~~set
    okWith [classByte latches] { s with events := { s.events with latches := latches } }

/-! ### COMMIT and ABORT (R49, R60, R66) -/

def takeCommit (_ : List Byte) : State → List Byte × State :=
  onVolume fun s =>
    match commitAnswer s with
    | .ok kind => okWith [kind.code, num8 s.group.table.length] (arbitrate (startCommit kind s))
    | .error why => resultOnly why s

def takeAbort (_ : List Byte) : State → List Byte × State :=
  onVolume fun s =>
    let entries := s.group.table.length
    match s.group.state with
    | .idle => resultOnly .noGroup s
    | .opened | .failed =>
      okWith [num8 entries] (arbitrate (abortGroup (postAbortDone entries) s))
    | .committing .complete =>
      okWith [num8 entries] (arbitrate (abortGroup (postAbortDone entries) (cancelCommit s)))
    | .committing _ => resultOnly .tooLate s

/-! ### GROUP_LIST and MAP_QUERY (R148, R149) -/

def Entry.bytes (e : Entry) : List Byte :=
  bytes16 (num16 e.page) ++ bytes16 (num16 e.shadow) ++ bytes16 (num16 e.superseded) ++ bytes16 e.present

def takeGroupList (args : List Byte) : State → List Byte × State :=
  onVolume fun s =>
    match s.group.table[(argByte args 0).toNat]? with
    | none => resultOnly .badArg s
    | some e => okWith ([num8 s.group.table.length] ++ bytes16 (s.group.openStamp.getD 0) ++ e.bytes) s

/-- The 8 data bytes of MAP_QUERY (R148, R160). -/
def mapQueryData (s : State) (page : Nat) : List Byte :=
  if page < s.geometry.d then [0x00] ++ bytes16 (num16 (32 + page)) ++ [0x00, 0xFF, 0xFF, 0x00, 0x00]
  else if page < s.geometry.d + s.geometry.p then
    [0x01] ++ bytes16 (num16 (s.committedFrame page)) ++
      match findEntry s.group.table page with
      | some e => [0x01] ++ bytes16 (num16 e.shadow) ++ bytes16 e.present
      | none => [0x00, 0xFF, 0xFF, 0x00, 0x00]
  else [0x02, 0xFF, 0xFF, 0x00, 0xFF, 0xFF, 0x00, 0x00]

def takeMapQuery (args : List Byte) : State → List Byte × State :=
  onVolume fun s =>
    let page := (arg16 args 0).toNat
    if 4095 < page then resultOnly .badArg s else okWith (mapQueryData s page) s

/-! ### Guard commands (R118 to R120) -/

def Guard.bytes (g : Guard) (staged : Bool) : List Byte :=
  bytes16 (num16 g.first) ++ bytes16 (num16 g.last) ++ [num8 g.mode.code, if staged then 0x01 else 0x00]

/-- The table that GUARD_READ reads: the staged one when it is chosen and exists (R120). -/
def chosenTable (choice : Byte) (g : GuardUnit) : List Guard :=
  if choice = 0x01 then g.staged.getD g.current else g.current

def takeGuardRead (args : List Byte) : State → List Byte × State :=
  onVolume fun s =>
    let index := (argByte args 0).toNat
    let choice := argByte args 1
    if 7 < index ∨ 1 < choice.toNat then resultOnly .badArg s
    else
      okWith
        (((chosenTable choice s.guards)[index]?.getD offGuard).bytes
          (decide (choice = 0x01) && s.guards.staged.isSome)) s

/-- The guard entry that the arguments of GUARD_STAGE name, if every argument passes (R118). -/
def guardOf (args : List Byte) : Option (Nat × Guard) :=
  let index := (argByte args 0).toNat
  let first := (arg16 args 1).toNat
  let last := (arg16 args 3).toNat
  match guardModeOf (argByte args 5).toNat with
  | none => none
  | some mode =>
    if index ≤ 7 ∧ first ≤ 4095 ∧ last ≤ 4095 ∧ first ≤ last then
      some (index, { first := first, last := last, mode := mode })
    else none

/-- Stage one entry, copying the current table first if nothing is staged (R118). -/
def stageGuard (index : Nat) (g : Guard) (s : State) : State :=
  { s with guards := { s.guards with staged := some ((s.guards.staged.getD s.guards.current).set index g) } }

def takeGuardStage (args : List Byte) : State → List Byte × State :=
  onVolume fun s =>
    if s.group.state.isCommitting then resultOnly .busy s
    else
      match guardOf args with
      | none => resultOnly .badArg s
      | some (index, g) => resultOnly .ok (stageGuard index g s)

def takeGuardDiscard (_ : List Byte) : State → List Byte × State :=
  onVolume fun s =>
    if s.group.state.isCommitting then resultOnly .busy s
    else resultOnly .ok { s with guards := { s.guards with staged := none } }

/-! ### FORMAT and REMOUNT (R104, R105, R109, R110) -/

/-- Leaving READY, UNFORMATTED or FAULTED by command: the volume and the group are discarded; a line fill left
running goes on to its end (R42, R105, R109). -/
def discardVolume (s : State) : State :=
  { clearVolume s with group := .clearedBut s.group.running }

/-- The geometry that the arguments of FORMAT name. -/
def geometryOf (args : List Byte) : Geometry :=
  { sizeCode := (argByte args 0).toNat, d := (arg16 args 1).toNat, p := (arg16 args 3).toNat }

/-- FORMAT with the state checks passed: the geometry check and the acceptance (R104, R105). -/
def formatChecked (args : List Byte) (s : State) : List Byte × State :=
  if (geometryOf args).ok then resultOnly .ok (discardVolume (enterFormatting (geometryOf args) s))
  else resultOnly .badArg s

def takeFormat (args : List Byte) (s : State) : List Byte × State :=
  match s.mount.device with
  | .resetHeld | .mounting | .formatting | .halted => resultOnly .busy s
  | .unformatted | .faulted => formatChecked args s
  | .ready =>
    match s.group.state with
    | .committing _ => resultOnly .busy s
    | .opened | .failed => resultOnly .badState s
    | .idle => formatChecked args s

/-- An OPEN or FAILED group is aborted with ABORT_DONE before the volume is discarded (R50). What the abort would
route afresh is released as refused by the change of device state (R48). -/
def remountAbort (s : State) : State :=
  match s.group.state with
  | .opened | .failed => postAbortDone s.group.table.length (dissolveGroup s)
  | .idle | .committing _ => s

/-- The acceptance of REMOUNT (R109, R110): the device enters MOUNTING with cause COMMAND and the pass count returns
to 0. -/
def acceptRemount (s : State) : State :=
  let s1 := discardVolume (enterMounting .command (remountAbort s))
  { s1 with port := { s1.port with passCount := 0 } }

def takeRemount (_ : List Byte) (s : State) : List Byte × State :=
  match s.mount.device with
  | .resetHeld | .mounting | .formatting | .halted => resultOnly .busy s
  | .unformatted | .faulted => resultOnly .ok (acceptRemount s)
  | .ready =>
    match s.group.state with
    | .committing _ => resultOnly .busy s
    | .idle | .opened | .failed => resultOnly .ok (acceptRemount s)

/-! ### Bytes (R137, R138) -/

/-- The take that a command's code names. -/
def takeOf (code : Byte) : List Byte → State → List Byte × State :=
  if code = 0x01 then takeStatus
  else if code = 0x02 then takeConfigRead
  else if code = 0x03 then takeConfigWrite
  else if code = 0x10 then takeEventPop
  else if code = 0x11 then takeEventAck
  else if code = 0x20 then takeCommit
  else if code = 0x21 then takeAbort
  else if code = 0x22 then takeGroupList
  else if code = 0x23 then takeMapQuery
  else if code = 0x30 then takeGuardRead
  else if code = 0x31 then takeGuardStage
  else if code = 0x32 then takeGuardDiscard
  else if code = 0x40 then takeFormat
  else takeRemount

/-- A byte arrives in COMMAND: the command code (R138). -/
def commandByte (b : Byte) (s : State) : State :=
  match argumentCount b with
  | none => takeBadCmd b s
  | some 0 => takeCommand b 0 none (takeOf b) s
  | some _ => { s with framer := { s.framer with state := .arguments, code := some b, args := [] } }

/-- A byte arrives in ARGUMENTS: it is collected, and the last one brings the take (R138). -/
def argumentByte (b : Byte) (s : State) : State :=
  match s.framer.code with
  | none => s
  | some code =>
    match argumentCount code with
    | none => s
    | some count =>
      if s.framer.args.length + 1 < count then
        { s with framer := { s.framer with args := s.framer.args ++ [b] } }
      else takeCommand code count (some b) (takeOf code) s

/-- A byte has been shifted out in RESPONSE: the next one, or SPENT after the last (R139). -/
def responseByte (s : State) : State :=
  let next := s.framer.next + 1
  if next < s.framer.response.length then { s with framer := { s.framer with next := next } }
  else { s with framer := { s.framer with next := next, state := .spent } }

/-- A byte arrives at the framer (R137 to R139). In OUTSIDE no byte arrives, and in SPENT it is ignored. -/
def arriveByte (b : Byte) (s : State) : State :=
  if portAnswers s then
    match s.framer.state with
    | .outside => s
    | .command => commandByte b s
    | .arguments => argumentByte b s
    | .response => responseByte s
    | .spent => s
  else s

end Sys2Proof.Machine
end

