-- ==== Sys2Proof/Machine/PortCommands.lean ====
section
/-! DEFINITION. The meanings of the management port's commands: the edges of SCS#, the arrival of a byte, and the
take of each of the fourteen commands (Table 12-2). -/

namespace Sys2Proof.Machine

/-- FRAME_BEGIN (R137). -/
def execFrameBegin (s : State) : Host.Outcome State Fault Refusal := whenPowered s beginFrame

/-- FRAME_END (R140). -/
def execFrameEnd (s : State) : Host.Outcome State Fault Refusal := whenPowered s endFrame

/-- BYTE_ARRIVES (R137). -/
def execByteArrives (byte : Byte) (s : State) : Host.Outcome State Fault Refusal := whenPowered s (arriveByte byte)

/-- BAD_CMD (R138). -/
def execBadCmd (code : Byte) (s : State) : Host.Outcome State Fault Refusal := whenPowered s (takeBadCmd code)

/-- STATUS (R144). -/
def execStatus (s : State) : Host.Outcome State Fault Refusal :=
  whenPowered s (takeCommand 0x01 0 none takeStatus)

/-- CONFIG_READ (R145). -/
def execConfigRead (s : State) : Host.Outcome State Fault Refusal :=
  whenPowered s (takeCommand 0x02 0 none takeConfigRead)

/-- CONFIG_WRITE (R146). -/
def execConfigWrite (last : Byte) (s : State) : Host.Outcome State Fault Refusal :=
  whenPowered s (takeCommand 0x03 6 (some last) takeConfigWrite)

/-- EVENT_POP (R154). -/
def execEventPop (s : State) : Host.Outcome State Fault Refusal :=
  whenPowered s (takeCommand 0x10 0 none takeEventPop)

/-- EVENT_ACK (R155). -/
def execEventAck (last : Byte) (s : State) : Host.Outcome State Fault Refusal :=
  whenPowered s (takeCommand 0x11 1 (some last) takeEventAck)

/-- COMMIT (R60). -/
def execCommit (s : State) : Host.Outcome State Fault Refusal :=
  whenPowered s (takeCommand 0x20 0 none takeCommit)

/-- ABORT (R49). -/
def execAbort (s : State) : Host.Outcome State Fault Refusal :=
  whenPowered s (takeCommand 0x21 0 none takeAbort)

/-- GROUP_LIST (R149). -/
def execGroupList (last : Byte) (s : State) : Host.Outcome State Fault Refusal :=
  whenPowered s (takeCommand 0x22 1 (some last) takeGroupList)

/-- MAP_QUERY (R148). -/
def execMapQuery (last : Byte) (s : State) : Host.Outcome State Fault Refusal :=
  whenPowered s (takeCommand 0x23 2 (some last) takeMapQuery)

/-- GUARD_READ (R120). -/
def execGuardRead (last : Byte) (s : State) : Host.Outcome State Fault Refusal :=
  whenPowered s (takeCommand 0x30 2 (some last) takeGuardRead)

/-- GUARD_STAGE (R118). -/
def execGuardStage (last : Byte) (s : State) : Host.Outcome State Fault Refusal :=
  whenPowered s (takeCommand 0x31 6 (some last) takeGuardStage)

/-- GUARD_DISCARD (R119). -/
def execGuardDiscard (s : State) : Host.Outcome State Fault Refusal :=
  whenPowered s (takeCommand 0x32 0 none takeGuardDiscard)

/-- FORMAT (R104). -/
def execFormat (last : Byte) (s : State) : Host.Outcome State Fault Refusal :=
  whenPowered s (takeCommand 0x40 5 (some last) takeFormat)

/-- REMOUNT (R109). -/
def execRemount (s : State) : Host.Outcome State Fault Refusal :=
  whenPowered s (takeCommand 0x41 0 none takeRemount)

end Sys2Proof.Machine
end

