-- ==== Sys2Proof/Machine/Dispatch.lean ====
section
/-! DEFINITION. One arm per command, each one call of its meaning. -/

namespace Sys2Proof.Machine

def exec (i : Instr) (s : State) : Host.Outcome State Fault Refusal :=
  match i with
  | .powerOn pfail rst scs => Sys2Proof.Machine.execPowerOn pfail rst scs s
  | .endOfPowerOn => Sys2Proof.Machine.execEndOfPowerOn s
  | .rstAssert => Sys2Proof.Machine.execRstAssert s
  | .rstRelease => Sys2Proof.Machine.execRstRelease s
  | .pfailAssert => Sys2Proof.Machine.execPfailAssert s
  | .pfailRelease => Sys2Proof.Machine.execPfailRelease s
  | .hostAccessTake address hoe hwe hlb hub hd => Sys2Proof.Machine.execHostAccessTake address hoe hwe hlb hub hd s
  | .hostCycleEnd => Sys2Proof.Machine.execHostCycleEnd s
  | .memoryWordAccessComplete => Sys2Proof.Machine.execMemoryWordAccessComplete s
  | .completeEnd => Sys2Proof.Machine.execCompleteEnd s
  | .switch => Sys2Proof.Machine.execSwitch s
  | .cmt => Sys2Proof.Machine.execCmt s
  | .mountStart => Sys2Proof.Machine.execMountStart s
  | .formatWritesStart => Sys2Proof.Machine.execFormatWritesStart s
  | .tick => Sys2Proof.Machine.execTick s
  | .deadlineAbort => Sys2Proof.Machine.execDeadlineAbort s
  | .hrstPulseEnd => Sys2Proof.Machine.execHrstPulseEnd s
  | .frameBegin => Sys2Proof.Machine.execFrameBegin s
  | .frameEnd => Sys2Proof.Machine.execFrameEnd s
  | .badCmd code => Sys2Proof.Machine.execBadCmd code s
  | .status => Sys2Proof.Machine.execStatus s
  | .configRead => Sys2Proof.Machine.execConfigRead s
  | .configWrite last => Sys2Proof.Machine.execConfigWrite last s
  | .eventPop => Sys2Proof.Machine.execEventPop s
  | .eventAck last => Sys2Proof.Machine.execEventAck last s
  | .commit => Sys2Proof.Machine.execCommit s
  | .abort => Sys2Proof.Machine.execAbort s
  | .groupList last => Sys2Proof.Machine.execGroupList last s
  | .mapQuery last => Sys2Proof.Machine.execMapQuery last s
  | .guardRead last => Sys2Proof.Machine.execGuardRead last s
  | .guardStage last => Sys2Proof.Machine.execGuardStage last s
  | .guardDiscard => Sys2Proof.Machine.execGuardDiscard s
  | .format last => Sys2Proof.Machine.execFormat last s
  | .remount => Sys2Proof.Machine.execRemount s
  | .byteArrives byte => Sys2Proof.Machine.execByteArrives byte s
  | .readDataRelease line => Sys2Proof.Machine.execReadDataRelease line s
  | .supplyFailure => Sys2Proof.Machine.execSupplyFailure s

end Sys2Proof.Machine
end

