-- ==== Sys2Proof/Safety.lean ====
section
/-! DEFINITION. What a safe run is: every step answers a next state. -/

namespace Sys2Proof.Machine

/-- A step that answers a next state. -/
def StepsOn (s : State) : Prop := ∃ t, step s = .next t

/-- k steps from a state, none of which stops. -/
def RunsFor (k : Nat) (s : State) : Prop := ∃ t, Host.Core.run Sys2Proof.core k s = .next t

end Sys2Proof.Machine
end

