-- ==== Sys2Proof/WellFormed.lean ====
section
/-! DEFINITION. The checks a command of the table meets: a host access is taken with a strobe, and BAD_CMD carries a
code that names no command. Widths are right by the types of the operands. -/

namespace Sys2Proof

/-- Whether a code names one of the fourteen management commands of Table 12-2. -/
def namesCommand (code : Byte) : Bool :=
  [0x01#8, 0x02#8, 0x03#8, 0x10#8, 0x11#8, 0x20#8, 0x21#8, 0x22#8, 0x23#8, 0x30#8, 0x31#8, 0x32#8, 0x40#8,
    0x41#8].contains code

/-- R1: an access is taken only when a strobe is asserted. R138: BAD_CMD is the answer to a code that names no
command. -/
def Instr.wellFormed : Instr → Bool
  | .powerOn _ _ _ => true
  | .endOfPowerOn => true
  | .rstAssert => true
  | .rstRelease => true
  | .pfailAssert => true
  | .pfailRelease => true
  | .hostAccessTake _ hoe hwe _ _ _ => hoe || hwe
  | .hostCycleEnd => true
  | .memoryWordAccessComplete => true
  | .completeEnd => true
  | .switch => true
  | .cmt => true
  | .mountStart => true
  | .formatWritesStart => true
  | .tick => true
  | .deadlineAbort => true
  | .hrstPulseEnd => true
  | .frameBegin => true
  | .frameEnd => true
  | .badCmd code => !namesCommand code
  | .status => true
  | .configRead => true
  | .configWrite _ => true
  | .eventPop => true
  | .eventAck _ => true
  | .commit => true
  | .abort => true
  | .groupList _ => true
  | .mapQuery _ => true
  | .guardRead _ => true
  | .guardStage _ => true
  | .guardDiscard => true
  | .format _ => true
  | .remount => true
  | .byteArrives _ => true
  | .readDataRelease _ => true
  | .supplyFailure => true

end Sys2Proof
end

