-- ==== Sys2Proof/Certificates/Slice0/Obligations.lean ====
section
/-! DEFINITION. The statements for the provers, and the vocabulary they are written in. -/

namespace Sys2Proof.Claims

open Sys2Proof.Machine

/-! ### Vocabulary -/

/-- The supply is in range: the part works (R136). -/
abbrev Powered (s : State) : Prop := s.supply.powered = true

/-- The framer waits for the byte of a command with no arguments: a frame has begun and no byte has arrived. -/
abbrev AwaitsCode (s : State) : Prop := s.mount.device ≠ .resetHeld ∧ s.framer.state = .command

/-- The framer waits for the last of the `count` argument bytes of the command `code`. -/
abbrev AwaitsLast (s : State) (code : Byte) (count : Nat) : Prop :=
  s.mount.device ≠ .resetHeld ∧ s.framer.state = .arguments ∧ s.framer.code = some code ∧
    s.framer.args.length + 1 = count

/-- The framer after a take: the response stands ready from its first byte (R139). -/
def answering (f : Framer) (code : Byte) (args response : List Byte) : Framer :=
  { f with state := .response, code := some code, args := args, response := response, next := 0 }

/-- A state whose framer answers a command without arguments. -/
def answered (code : Byte) (response : List Byte) (s : State) : State :=
  { s with framer := answering s.framer code [] response }

/-- A state whose framer answers a command whose last argument byte is `last`; `old` is the framer before. -/
def answeredArgs (old : Framer) (code last : Byte) (response : List Byte) (s : State) : State :=
  { s with framer := answering old code (old.args ++ [last]) response }

/-- The device states in which a command on the volume is answered BUSY (Table 10-2). -/
abbrev BusyDevice (s : State) : Prop :=
  s.mount.device = .mounting ∨ s.mount.device = .formatting ∨ s.mount.device = .halted

/-- The device states in which a command on the volume is answered BAD_STATE (Table 10-2). -/
abbrev RawDevice (s : State) : Prop := s.mount.device = .unformatted ∨ s.mount.device = .faulted

/-- A request waits at the arbiter only while an access is in flight. -/
abbrev PortSettled (s : State) : Prop := s.port.flight ≠ none ∨ (s.port.hostReq = none ∧ s.port.engineReq = none)

/-- The Host Path once a take has ended its access at once: nothing in service. -/
def endedHost (h : HostPath) : HostPath := { h with cycleTaken := true, access := none, hold := .none }

/-- A read's word on the enabled lanes; none for a write, and with no lane enabled (R13, R15). -/
def readWordOn (word : Word16) (write : Bool) (lanes : Lanes) (notReady : Bool) : Option HdDrive :=
  if write = true ∨ (lanes.low = false ∧ lanes.high = false) then none
  else some { data := word, lanes := lanes, notReady := notReady }

/-- A read returns its word to the host: it is driven on HD (R13, R14). -/
def returning (read : Option HdDrive) (h : HostPath) : HostPath :=
  match read with
  | none => h
  | some d => { h with hd := some d, returned := some d }

/-- The Host Path once an assertion of RST# has ended the access in service, and while RST# is low: no hold reason, and
HD high-impedance but for a NOT_READY read (R2, Table 9-4). -/
def heldReset (h : HostPath) : HostPath :=
  { h with hold := .none, hd := h.hd.bind fun d => if d.notReady then some d else none }

/-- The Host Path between host cycles (R1, R2). -/
def emptyHost : HostPath := { cycleTaken := false, access := none, hold := .none, hd := none, returned := none }

/-- The access record formed at a take (R1). -/
def recordOf (address : Addr) (hwe hlb hub : Bool) (hd : Word16) (cls : AccessClass) : Access :=
  { address := address, kind := if hwe then .write else .read, lanes := { low := hlb, high := hub },
    data := if hwe then some hd else none, cls := cls }

/-- The word access of a host access at a physical address: a read with both lanes, a write with the host's (R11). -/
def hostWord (address : Addr) (a : Access) : Request :=
  { address := address, kind := a.kind,
    lanes := if a.kind = .read then { low := true, high := true } else a.lanes, data := a.data }

/-- The physical address of an offset of a frame: frame × 256 + offset (R3). -/
def inFrame (frame : Nat) (a : Addr) : Addr := BitVec.ofNat 20 (frame * 256 + a.toNat % 256)

/-- The state in which a taken access waits for its word access at `target` (R11, R14). -/
def waitingFor (target : Addr) (a : Access) (s : State) : State :=
  { s with
    host := { s.host with cycleTaken := true, access := some a, hold := .none }
    port := { s.port with hostReq := some (hostWord target a) } }

/-- The state in which a taken write is held (R14). -/
def heldFor (why : HoldReason) (a : Access) (s : State) : State :=
  { s with host := { s.host with cycleTaken := true, access := some a, hold := why } }

/-- One engine word access, both lanes enabled (R122). -/
def engineWord (kind : AccessKind) (address : Addr) (data : Option Word16) : Request :=
  { address := address, kind := kind, lanes := { low := true, high := true }, data := data }

/-- A word of the engine requester is in flight, made for an operation or, after it was cancelled, for nobody. -/
def engineFlies (s : State) : Bool :=
  match s.port.flight with
  | some f => f.requester == .engine
  | none => false

/-- The engine asks for a word, unless a word of its former operation is still in flight (R66, R123; log entry 16). -/
def withEngine (kind : AccessKind) (address : Addr) (data : Option Word16) (s : State) : State :=
  { s with port :=
      if engineFlies s then s.port else { s.port with engineReq := some (engineWord kind address data) } }

/-- A word of a line of a frame (R40). -/
def lineWord (frame line word : Nat) : Addr := BitVec.ofNat 20 (frame * 256 + (16 * line + word))

/-- A fill of a line of an entry, as it is ordered (R39). -/
def newFill (e : Entry) (line : Nat) : Fill :=
  { entry := some e.page, line := line, source := e.superseded, target := e.shadow, mergeWanted := true, word := 0,
    held := none }

/-- The arbiter after the port has become idle at a completion (R122). -/
def idlePort (p : Port) : Port :=
  { p with flight := none, ma := if p.underReset then 0 else p.ma, underReset := false }

/-- The Group Controller once the group is IDLE and no fill waits. -/
def idleGroup (running : Option Fill) : GroupControl :=
  { state := .idle, table := [], openStamp := none, deadline := none, running := running, waiting := none }

/-- The Translation Table cleared (Table 2-1). -/
def clearedTable : TransTable := { geometry := none, map := [], generation := 0, activeSlot := none }

/-- What a change of device state does to the Host Path when the access in service is not granted (R17). -/
def releasedHost (h : HostPath) : HostPath :=
  match h.access with
  | none => h
  | some a =>
    returning (readWordOn 0xFFFF (a.kind == .write) a.lanes false) { h with access := none, hold := .none }

/-- The Host Path after a change of device state: an access whose word access is granted stays (R17). -/
def changedHost (granted : Bool) (h : HostPath) : HostPath := if granted then h else releasedHost h

/-- Whether the word access in flight is that of the access in service. -/
def isGranted (s : State) : Bool :=
  match s.port.flight with
  | some f => f.live && f.requester == .host
  | none => false

/-- The waiting host request after a change of device state: withdrawn with the access in service (R17, R125). -/
def changedRequest (s : State) : Option Request :=
  if isGranted s = true ∨ s.host.access = none then s.port.hostReq else none

/-- The access in flight goes on for nobody when it was the engine's (R58). -/
def orphaned (f : Option Flight) : Option Flight :=
  f.map fun f => if f.requester = .engine then { f with live := false } else f

/-- The access in flight goes on for nobody when it was the host's (R16). -/
def hostOrphaned (f : Option Flight) : Option Flight :=
  f.map fun f => if f.requester = .host then { f with live := false } else f

/-- The code of a device state, 00h for RESET_HELD (Tables 12-3 and 12-7). -/
def deviceByte : DeviceState → Byte
  | .resetHeld => 0x00
  | .mounting => 0x01
  | .ready => 0x02
  | .unformatted => 0x03
  | .faulted => 0x04
  | .formatting => 0x05
  | .halted => 0x06

/-- Table 9-1, from a state whose PFAIL# level is already set: the state of every block at the entry to HALTED, with
its HALT event. -/
def halted (s : State) : State :=
  post .halt none none (some (deviceByte s.mount.device))
    { s with
      mount := { s.mount with device := .halted, reason := none, run := .idle, format := none }
      host := changedHost (isGranted s) s.host
      xlate := clearedTable
      pool := []
      group := idleGroup none
      commit := { latch := false, record := none }
      guards := { current := [], staged := none, pulse := none }
      port := { s.port with flight := orphaned s.port.flight, hostReq := none, engineReq := none, passCount := 0 } }

/-- The entry to MOUNTING (R96, R98). -/
def mounting (cause : MountCause) (s : State) : State :=
  { s with
    mount := { device := .mounting, reason := none, cause := some cause, run := .waiting, format := none }
    host := changedHost (isGranted s) s.host
    port := { s.port with hostReq := changedRequest s } }

/-- The bytes that a request writes when it is a write: the enabled lanes of its word (R122). -/
abbrev WritesByte (r : Request) (k : Nat) : Prop :=
  r.kind = .write ∧
    ((r.lanes.low = true ∧ k = 2 * r.address.toNat) ∨ (r.lanes.high = true ∧ k = 2 * r.address.toNat + 1))

/-- RESET_HELD has ended: the tick period begins (R135). -/
def resetEnded (s : State) : State :=
  { s with
    supply := { s.supply with rst := false, powerOnEnded := true, origin := none }
    events := { s.events with period := some ((s.config.divider.toNat + 1) * 1024) } }

/-! ### The pages of the volume and the group -/

/-- The page, and the line, of an address (R3). -/
def pageNo (a : Addr) : Nat := a.toNat / 256

def lineNo (a : Addr) : Nat := a.toNat % 256 / 16

/-- A guard entry of a mode covers a page. -/
abbrev Covered (table : List Guard) (mode : GuardMode) (page : Nat) : Prop :=
  ∃ g ∈ table, g.mode = mode ∧ g.first ≤ page ∧ page ≤ g.last

/-- Tests 2 and 3 of R8. -/
abbrev Refuses (table : List Guard) (page : Nat) (write : Bool) : Prop :=
  Covered table .all page ∨ (write = true ∧ Covered table .write page)

/-- READY with a loaded geometry. -/
abbrev Mounted (s : State) (g : Geometry) : Prop := s.mount.device = .ready ∧ s.xlate.geometry = some g

/-- An access in the atomic window that no guard refuses. -/
abbrev AtomicPlace (s : State) (g : Geometry) (a : Addr) (write : Bool) : Prop :=
  Mounted s g ∧ g.d ≤ pageNo a ∧ pageNo a < g.d + g.p ∧ ¬ Refuses s.guards.current (pageNo a) write

/-- The committed frame of a page of the atomic window (R20). -/
def committed (g : Geometry) (s : State) (page : Nat) : Nat := (s.xlate.map[page - g.d]?).getD 0

/-- The entry of a page in the group table. -/
def entryOf (s : State) (page : Nat) : Option Entry := s.group.table.find? fun e => e.page == page

/-- The frame an atomic read is routed to (R43). -/
def readTarget (g : Geometry) (s : State) (a : Addr) : Nat :=
  match entryOf s (pageNo a) with
  | some e =>
    if s.group.state ≠ .idle ∧ e.present.getLsbD (lineNo a) = true then e.shadow else committed g s (pageNo a)
  | none => committed g s (pageNo a)

/-- A fill of a line of an entry is ordered (R39). With no fill running it is the running fill at once. That its first
read waits for the last word of a cancelled COMPLETE copy is read from the manual (log entry 16). -/
def fillOrdered (e : Entry) (line : Nat) (s : State) : State :=
  match s.group.running with
  | none =>
    withEngine .read (lineWord e.superseded line 0) none
      { s with group := { s.group with running := some (newFill e line) } }
  | some f =>
    if f.entry = some e.page ∧ f.line = line then
      { s with group := { s.group with running := some { f with mergeWanted := true } } }
    else { s with group := { s.group with waiting := some (newFill e line) } }

/-- The entry of a page that joins the group with the popped frame (R37). -/
def entryFor (g : Geometry) (s : State) (page frame : Nat) : Entry :=
  { page := page, shadow := frame, superseded := committed g s page, present := 0 }

/-- The Group Controller with a line of a page's entry added to its present lines (R40). -/
def lineAdded (table : List Entry) (page line : Nat) : List Entry :=
  table.map fun e => if e.page = page then { e with present := e.present ||| (1#16 <<< line) } else e

/-- A group opened by its first write (R36). -/
def openedGroup (s : State) (e : Entry) : GroupControl :=
  { s.group with
    state := .opened, table := [e], openStamp := some s.events.tick
    deadline := if s.config.deadline = 0 then none else some s.config.deadline.toNat }

/-- A hit: its event, and the HRST# pulse when the guard action asks for it (R115, R116). -/
def afterHit (kind : EventKind) (a : Addr) (s : State) : State :=
  post kind (some a) none none
    { s with guards := { s.guards with
        pulse := if s.config.guardAction = .eventAndHostReset then some ((s.config.divider.toNat + 1) * 1024)
                 else s.guards.pulse } }

/-- A word access in flight has completed (R122): what memory holds, and the port idle. -/
def completed (mem : Memory) (s : State) : State := { s with mem := mem, port := idlePort s.port }

/-- The access in flight, with what it is for. -/
abbrev InFlight (s : State) (r : Request) (who : Requester) : Prop :=
  s.port.flight = some { request := r, requester := who, live := true }

/-- The first absent line in table order, lines ascending within an entry: the position of the entry, the entry and
the line (R65). -/
def firstAbsentLine (table : List Entry) : Option (Nat × Entry × Nat) :=
  ((List.range (16 * table.length)).find? fun k =>
      match table[k / 16]? with
      | some e => !e.present.getLsbD (k % 16)
      | none => false).bind fun k => (table[k / 16]?).map fun e => (k / 16, e, k % 16)

/-- COMPLETE goes on: the first read of the next absent line, if there is one (R65). That nothing is asked for when
there is none, until COMPLETE_END, is the model's choice (log entry 17). -/
def copyNext (r : CommitRecord) (s : State) : State :=
  match firstAbsentLine s.group.table with
  | none => s
  | some (i, e, l) =>
    withEngine .read (lineWord e.superseded l 0) none
      { s with commit := { s.commit with
          record := some { r with copyEntry := i, copyLine := l, copyWord := 0, copyHeld := none } } }

/-- Word n of a slot (R80). -/
def slotAddr (slot : Slot) (n : Nat) : Addr := BitVec.ofNat 20 ((if slot = .a then 0 else 0x1000) + n)

/-- With no fill running the engine requester passes on: to the waiting fill, else to the first word of a commit (R42,
R56, R65, R67). -/
def engineGoesOn (s : State) : State :=
  match s.group.waiting, s.group.state, s.commit.record with
  | some f, _, _ =>
    withEngine .read (lineWord f.source f.line f.word) none
      { s with group := { s.group with running := some f, waiting := none } }
  | none, .committing .complete, some r => copyNext r s
  | none, .committing .retire, some r => withEngine .write (slotAddr r.target 0) (some 0x0000) s
  | none, _, _ => s

/-- An engine word that went on for nobody has completed: the engine requester passes to the fill that waited for it as
the running one, else on (R66, R123; log entry 16). -/
def engineResumes (s : State) : State :=
  match s.group.running with
  | some f => withEngine .read (lineWord f.source f.line f.word) none s
  | none => engineGoesOn s

/-- The order in which the words 1 and above of an image are written (R69, R89, R106). -/
def writeOrder (p : Nat) : List Nat := List.range' 1 25 ++ List.range' 28 p ++ [26, 27]

/-- The slots' other one. -/
def inactive (active : Option Slot) : Slot := if active = some .a then .b else .a

/-- The record of a commit at its start (R62). -/
def recordAt (s : State) (kind : CommitKind) : CommitRecord :=
  { kind := kind, target := inactive s.xlate.activeSlot
    source := if s.guards.staged = none then .current else .staged
    pageCount := s.group.table.length
    copyEntry := 0, copyLine := 0, copyWord := 0, copyHeld := none, body := none, writePos := some 0 }

/-- A commit has started (R54, R62): with no fill running, its first word is asked for (R42, R65, R67). That it waits
for the last word of a cancelled COMPLETE copy is read from the manual (log entry 16). -/
def commitStarted (kind : CommitKind) (s : State) : State :=
  let r := recordAt s kind
  let phase := if kind = .group then Phase.complete else Phase.retire
  let u : State :=
    { s with
      group := { s.group with state := .committing phase, deadline := none }
      commit := { latch := false, record := some r } }
  if s.group.running ≠ none then u
  else if kind = .group then copyNext r u
  else withEngine .write (slotAddr r.target 0) (some 0x0000) u

/-- The image of a running commit (R68). -/
def imageOf (s : State) (g : Geometry) (r : CommitRecord) (b : CommitBody) : ImageBody :=
  { geometry := g, generation := b.generation
    guards := if r.source = .staged then s.guards.staged.getD s.guards.current else s.guards.current
    stamp := b.stamp, pageCount := r.pageCount
    entries := s.group.table.foldl (fun m e => m.set (e.page - g.d) e.shadow) s.xlate.map }

/-- The frames of a memory by size code (Table 0-2). -/
def frameCount (code : Nat) : Nat :=
  match code with
  | 1 => 1024
  | 2 => 2048
  | 3 => 4096
  | _ => 0

/-- The pool frames in ascending order (R19). -/
def poolList (g : Geometry) : List Nat := List.range' (32 + g.d) (frameCount g.sizeCode - (32 + g.d))

/-- The geometry constraints (Table 0-2). -/
abbrev GeometryOk (g : Geometry) : Prop :=
  (g.sizeCode = 1 ∨ g.sizeCode = 2 ∨ g.sizeCode = 3) ∧ 1 ≤ g.p ∧ g.d + g.p ≤ 4096 ∧
    32 + g.d + g.p + 2 ≤ frameCount g.sizeCode ∧ g.p ≤ 4068

/-- A volume is loaded, and the device is READY (R21, R30, R100, R107). An access not granted is released (R17). -/
def loaded (g : Geometry) (map : List Nat) (generation : BitVec 32) (slot : Slot) (table : List Guard)
    (s : State) : State :=
  { s with
    host := changedHost (isGranted s) s.host
    port := { s.port with hostReq := changedRequest s }
    xlate := { geometry := some g, map := map, generation := generation, activeSlot := some slot }
    pool := (poolList g).filter fun f => !map.contains f
    guards := { s.guards with current := table, staged := none }
    group := idleGroup none
    mount := { s.mount with device := .ready, reason := none, run := .idle, format := none } }

/-- A mount has ended without a volume (R101, R102). -/
def mountedNothing (device : DeviceState) (reason : Option FaultedReason) (s : State) : State :=
  { s with
    host := changedHost (isGranted s) s.host
    port := { s.port with hostReq := changedRequest s }
    mount := { s.mount with device := device, reason := reason, run := .idle, format := none } }

/-- The detail of MOUNT_READY (Table 12-7). -/
def mountByte (cause : Option MountCause) (slot : Slot) : Byte :=
  (match cause with
    | none => 0x00
    | some .power => 0x10
    | some .pin => 0x20
    | some .supplyReturn => 0x30
    | some .command => 0x40) + (if slot = .a then 0x01 else 0x02)

/-- All the words of a slot that a mount reads have been read (R84). -/
def SlotRead (words : List Word16) : Prop :=
  words.length =
    28 + (if words[0]? = some 0x4D4A ∧ ∃ w, words[5]? = some w ∧ 1 ≤ w.toNat ∧ w.toNat ≤ 4068 then
            ((words[5]?).getD 0).toNat else 0)

/-- The check accumulator after word n of a slot (R83): words 0, 26 and 27 are not taken. -/
def accumulated (acc : BitVec 32) (n : Nat) (w : Word16) : BitVec 32 :=
  if n = 0 ∨ n = 26 ∨ n = 27 then acc else crcWord acc w

/-- A format's guard table (R106). -/
def offTable : List Guard := List.replicate 8 { first := 0, last := 0, mode := .off }

/-- The image of a format (R106). -/
def freshImage (g : Geometry) (stamp : BitVec 16) : ImageBody :=
  { geometry := g, generation := 1, guards := offTable, stamp := stamp, pageCount := 0,
    entries := (List.range g.p).map fun i => 32 + g.d + i }

/-- The group has been given back (R47). -/
def abortedGroup (s : State) : State :=
  { s with
    pool := s.pool ++ s.group.table.map Entry.shadow
    group := idleGroup (s.group.running.map fun f => { f with entry := none }) }

/-- A commit has been cancelled in COMPLETE: the group is given back and the record discarded. Its copy stops after the
word in flight; a line fill that runs keeps the engine requester (R66, R125). -/
def cancelled (s : State) : State :=
  { abortedGroup s with
    commit := { s.commit with record := none }
    port := if s.group.running = none then { s.port with flight := orphaned s.port.flight, engineReq := none }
      else s.port }

/-- A host write to a shadow frame of the group waits for its word access, or is in it, given up or not (R56). -/
def ShadowWrite (s : State) : Prop :=
  ∃ q : Request,
    (s.port.hostReq = some q ∨ ∃ live, s.port.flight = some { request := q, requester := .host, live := live }) ∧
      q.kind = .write ∧ ∃ e ∈ s.group.table, e.shadow = pageNo q.address

/-- ABORT_DONE, with the number of entries that the group of `s` held (R47). -/
def abortTold (s : State) (t : State) : State :=
  post .abortDone none none (some (BitVec.ofNat 8 s.group.table.length)) t

/-- ABORT answers OK with the number of entries that the group of `s` held (R49). -/
def abortAnswered (s : State) (t : State) : State :=
  answered 0x21 [0x00, BitVec.ofNat 8 s.group.table.length] t

/-- What R48 makes of the access in service: `base` is the state with the group given back, `t` the state after. A
write that waits for its word in a shadow frame, for a fill that has not started, or for the commit, is taken afresh; a
read goes to the committed frame; a write that waits for the running fill, and a granted access, stay. -/
def Rerouted (s : State) (a : Access) (g : Geometry) (base t : State) : Prop :=
  (∀ w, a.kind = .write → a.data = some w → s.host.cycleTaken = true →
    (s.host.hold = .lineFill ∧ s.group.waiting ≠ none ∧ s.port.hostReq = none) ∨
      (s.host.hold = .none ∧ ∃ q, s.port.hostReq = some q ∧ ∃ e ∈ s.group.table, e.shadow = pageNo q.address) ∨
      (s.host.hold = .commitHold ∧ s.port.hostReq = none) →
    exec (.hostAccessTake a.address false true a.lanes.low a.lanes.high w)
      { base with
        host := { s.host with cycleTaken := false }
        port := { base.port with hostReq := none } } = .next t) ∧
  (∀ q, a.kind = .read → s.host.hold = .none → s.port.hostReq = some q →
    (∃ e ∈ s.group.table, e.shadow = pageNo q.address) →
    t = arbitrate { base with port := { base.port with
      hostReq := some (hostWord (inFrame (committed g s (pageNo a.address)) a.address) a) } }) ∧
  (s.host.hold = .lineFill → s.group.waiting = none → t = arbitrate base) ∧
  (s.host.hold = .none → s.port.hostReq = none → t = arbitrate base)

/-- The access in service, if any, has no routing that an abort makes void (R48). -/
def Unaffected (s : State) : Prop :=
  ∀ a, s.host.access = some a →
    (s.host.hold = .none ∧
      (a.cls ≠ .atomic ∨ ∀ r, s.port.hostReq = some r → ∀ e ∈ s.group.table, e.shadow ≠ pageNo r.address)) ∨
    (s.host.hold = .lineFill ∧ s.group.waiting = none)

end Sys2Proof.Claims

open Sys2Proof Sys2Proof.Machine Sys2Proof.Claims

/-! ### The machine -/

/-- A step runs the command at the front of the queue on the state with the rest of the queue; on an empty queue it
idles (the model's choice, log entry 6). -/
def Obligations.StepRunsTheFrontCommand : Prop :=
  (∀ (c : Instr) (rest : List Instr) (s : State),
    step { s with pending := c :: rest } = exec c { s with pending := rest }) ∧
  ∀ s : State, s.pending = [] → step s = .next s

/-- No command stops the part, and none touches the queue: the model's choice for a command that is not due (log entry
5), and for the queue, which is the model's own (log entry 13). -/
def Obligations.EveryCommandAnswersANextState : Prop :=
  ∀ (c : Instr) (s : State), ∃ t, exec c s = .next t ∧ t.pending = s.pending

/-! ### Power, reset and the supply warning -/

/-- After R128 and Table 9-4: what reset leaves. -/
def Obligations.ResetStateHoldsTheResetValues : Prop :=
  let s := State.reset
  s.supply.origin = some .power ∧ s.supply.powerOnEnded = false ∧
  s.mount.device = .resetHeld ∧ s.mount.reason = none ∧ s.mount.cause = none ∧
  s.xlate = clearedTable ∧ s.pool = [] ∧ s.group = idleGroup none ∧
  s.commit = { latch := false, record := none } ∧
  s.guards = { current := [], staged := none, pulse := none } ∧
  s.port.flight = none ∧ s.port.hostReq = none ∧ s.port.engineReq = none ∧ s.port.passCount = 0 ∧ s.port.ma = 0 ∧
  s.config = { deadline := 0, divider := 31, stealShare := 4, guardAction := .event, enable := 0x3B } ∧
  s.events = { tick := 0, period := none, latches := 0, queue := [] } ∧
  s.framer.state = .outside ∧ s.host.access = none ∧ s.host.hold = .none ∧ s.host.hd = none ∧
  s.readyPin = false ∧ s.faultLine = false ∧ s.hrstLine = false ∧ s.hwaitLine = false ∧ s.sdo = none ∧
  s.mdDrive = none

/-- After R128, R133 and Table 9-4: POWER_ON. A part that still had its supply has lost it first. That the framer holds
no code, arguments or response then is the model's choice (log entry 18). -/
def Obligations.PowerOnEntersResetHeld : Prop :=
  (∀ (pfail rst scs : Bool) (s : State), s.supply.powered = false →
    exec (.powerOn pfail rst scs) s =
      .next { State.reset with
        supply := { powered := true, powerOnEnded := false, pfail := pfail, rst := rst, origin := some .power }
        framer := { State.reset.framer with scsLow := scs }
        mem := s.mem, freeNext := s.freeNext, pending := s.pending }) ∧
  ∀ (pfail rst scs : Bool) (s u : State), Powered s → exec .supplyFailure s = .next u →
    exec (.powerOn pfail rst scs) s = exec (.powerOn pfail rst scs) u

/-- After R136: SUPPLY_FAILURE loses what is volatile and leaves memory, but for the bytes of a write then in flight,
which are open (log entry 4). The part has then stopped: no command but POWER_ON changes it (the model's form of it:
log entry 3). -/
def Obligations.SupplyFailureLosesVolatileState : Prop :=
  (∀ (c : Instr) (s : State), s.supply.powered = false → (∀ pfail rst scs, c ≠ .powerOn pfail rst scs) →
    exec c s = .next s) ∧
  ∀ s : State, Powered s → ∃ t, exec .supplyFailure s = .next t ∧
    t.supply.powered = false ∧ t.mount.device = .resetHeld ∧ t.mount.reason = none ∧ t.mount.cause = none ∧
    t.xlate = clearedTable ∧ t.pool = [] ∧ t.group = idleGroup none ∧
    t.commit = { latch := false, record := none } ∧ t.guards = { current := [], staged := none, pulse := none } ∧
    t.host = emptyHost ∧
    t.port = State.reset.port ∧ t.config = State.reset.config ∧ t.events = State.reset.events ∧
    t.framer.state = .outside ∧ t.pending = s.pending ∧
    ∀ k, (∀ f, s.port.flight = some f → ¬ WritesByte f.request k) → readByte t.mem k = readByte s.mem k

/-- After R2, R127, R133 and Table 9-4: RST_ASSERT outside RESET_HELD. The access in flight stays to complete, the
engine's for nobody. That a granted host access stays in service until then, and what a released read returns, are read
from the manual (log entries 7 and 8); that the framer holds no code, arguments or response is the model's choice (log
entry 18). -/
def Obligations.RstAssertEntersResetHeld : Prop :=
  ∀ s : State, Powered s → s.mount.device ≠ .resetHeld →
    exec .rstAssert s =
      .next { s with
        supply := { s.supply with rst := true, origin := some .pin }
        mount := { device := .resetHeld, reason := none, cause := none, run := .idle, format := none }
        host := heldReset (changedHost (isGranted s) s.host)
        xlate := clearedTable
        pool := []
        group := idleGroup none
        commit := { latch := false, record := none }
        guards := { current := [], staged := none, pulse := none }
        port := { flight := orphaned s.port.flight, hostReq := none, engineReq := none, passCount := 0,
                  ma := if s.port.flight = none then 0 else s.port.ma, underReset := s.port.flight.isSome }
        config := { deadline := 0, divider := 31, stealShare := 4, guardAction := .event, enable := 0x3B }
        framer := { state := .outside, code := none, args := [], response := [], next := 0,
                    scsLow := s.framer.scsLow }
        events := { tick := 0, period := none, latches := 0, queue := [] } }

/-- After R135: the end of RESET_HELD, by RST_RELEASE with power-on ended or by END_OF_POWER_ON with RST# released. -/
def Obligations.ResetHeldEndsByThePfailLevel : Prop :=
  ∀ (c : Instr) (s : State), Powered s → s.mount.device = .resetHeld →
    (c = .rstRelease ∧ s.supply.rst = true ∧ s.supply.powerOnEnded = true) ∨
      (c = .endOfPowerOn ∧ s.supply.rst = false ∧ s.supply.powerOnEnded = false) →
    (s.supply.pfail = false →
      (s.supply.origin = some .power → exec c s = .next (mounting .power (resetEnded s))) ∧
      (s.supply.origin = some .pin → exec c s = .next (mounting .pin (resetEnded s)))) ∧
    (s.supply.pfail = true → exec c s = .next (halted (resetEnded s)))

/-- After R129 and Table 9-1: PFAIL_ASSERT halts the part from every state but RESET_HELD, where it sets the level,
and HALTED, where it changes nothing. That an access whose word access is granted stays in service, with that word in
flight, until its completion is read from the manual (log entry 7). -/
def Obligations.PfailAssertHalts : Prop :=
  ∀ s : State, Powered s →
    (s.mount.device ≠ .resetHeld → s.mount.device ≠ .halted →
      exec .pfailAssert s = .next (halted { s with supply := { s.supply with pfail := true } })) ∧
    (s.mount.device = .halted → exec .pfailAssert s = .next s) ∧
    (s.mount.device = .resetHeld →
      exec .pfailAssert s = .next { s with supply := { s.supply with pfail := true } })

/-- After R132, R128 and R135: PFAIL_RELEASE mounts from HALTED with cause SUPPLY_RETURN; in RESET_HELD the events of
the lines only set their levels, and elsewhere the releases do. An END_OF_POWER_ON that is not due changes nothing (log
entry 5). -/
def Obligations.PfailReleaseMounts : Prop :=
  ∀ s : State, Powered s →
    (s.mount.device = .halted →
      exec .pfailRelease s = .next (mounting .supplyReturn { s with supply := { s.supply with pfail := false } })) ∧
    (s.mount.device = .resetHeld →
      exec .pfailRelease s = .next { s with supply := { s.supply with pfail := false } } ∧
      exec .rstAssert s = .next { s with supply := { s.supply with rst := true } } ∧
      (s.supply.powerOnEnded = false →
        exec .rstRelease s = .next { s with supply := { s.supply with rst := false } }) ∧
      (s.supply.powerOnEnded = false → s.supply.rst = true →
        exec .endOfPowerOn s = .next { s with supply := { s.supply with powerOnEnded := true } })) ∧
    (s.mount.device ≠ .halted → s.mount.device ≠ .resetHeld →
      exec .pfailRelease s = .next { s with supply := { s.supply with pfail := false } }) ∧
    (s.mount.device ≠ .resetHeld →
      exec .rstRelease s = .next { s with supply := { s.supply with rst := false } }) ∧
    (s.mount.device ≠ .resetHeld ∨ s.supply.powerOnEnded = true → exec .endOfPowerOn s = .next s)

/-! ### Host accesses -/

/-- After R5: an access taken in RESET_HELD, MOUNTING, FORMATTING or HALTED. -/
def Obligations.NotReadyAccessIsRefusedSilently : Prop :=
  ∀ (a : Addr) (hoe hwe hlb hub : Bool) (hd : Word16) (s : State), Powered s → s.host.cycleTaken = false →
    (hoe = true ∨ hwe = true) → PortSettled s → (s.mount.device = .resetHeld ∨ BusyDevice s) →
    exec (.hostAccessTake a hoe hwe hlb hub hd) s =
      .next { s with host := returning (readWordOn 0xFFFF hwe { low := hlb, high := hub } true) (endedHost s.host) }

/-- After R6 and R7: a RAW access waits for its word at the identical address; a write in FAULTED is refused with
RAW_WRITE. -/
def Obligations.RawAccessGoesToTheIdenticalAddress : Prop :=
  ∀ (a : Addr) (hoe hwe hlb hub : Bool) (hd : Word16) (s : State), Powered s → s.host.cycleTaken = false →
    (hoe = true ∨ hwe = true) →
    ((s.mount.device = .unformatted ∨ (s.mount.device = .faulted ∧ hwe = false)) → (hlb = true ∨ hub = true) →
      exec (.hostAccessTake a hoe hwe hlb hub hd) s =
        .next (arbitrate (waitingFor a (recordOf a hwe hlb hub hd .raw) s))) ∧
    (s.mount.device = .faulted → hwe = true → PortSettled s →
      exec (.hostAccessTake a hoe hwe hlb hub hd) s =
        .next (post .rawWrite (some a) none none { s with host := endedHost s.host }))

/-- After R9, R10 and R115: UNBACKED and GUARDED accesses are refused, posted and follow the guard action. -/
def Obligations.HitsAreRefusedPostedAndFollowTheGuardAction : Prop :=
  ∀ (a : Addr) (hoe hwe hlb hub : Bool) (hd : Word16) (s : State) (g : Geometry), Powered s →
    s.host.cycleTaken = false → (hoe = true ∨ hwe = true) → PortSettled s → Mounted s g →
    (g.d + g.p ≤ pageNo a →
      exec (.hostAccessTake a hoe hwe hlb hub hd) s =
        .next (afterHit (if hwe then .unbackedWrite else .unbackedRead) a
          { s with host := returning (readWordOn 0xFFFF hwe { low := hlb, high := hub } false) (endedHost s.host) })) ∧
    (pageNo a < g.d + g.p → Refuses s.guards.current (pageNo a) hwe →
      exec (.hostAccessTake a hoe hwe hlb hub hd) s =
        .next (afterHit (if hwe then .guardedWrite else .guardedRead) a
          { s with host := returning (readWordOn 0xFFFF hwe { low := hlb, high := hub } false) (endedHost s.host) }))

/-- After R11 and R15: a DIRECT access waits for its word in frame 32 + page; with no lane enabled an access that is
not refused ends at once, in every group state. -/
def Obligations.DirectAccessAndEmptyLanes : Prop :=
  ∀ (a : Addr) (hoe hwe hlb hub : Bool) (hd : Word16) (s : State) (g : Geometry), Powered s →
    s.host.cycleTaken = false → (hoe = true ∨ hwe = true) →
    (Mounted s g → pageNo a < g.d → ¬ Refuses s.guards.current (pageNo a) hwe → (hlb = true ∨ hub = true) →
      exec (.hostAccessTake a hoe hwe hlb hub hd) s =
        .next (arbitrate (waitingFor (inFrame (32 + pageNo a) a) (recordOf a hwe hlb hub hd .direct) s))) ∧
    (PortSettled s → hlb = false → hub = false →
      (Mounted s g ∧ pageNo a < g.d + g.p ∧ ¬ Refuses s.guards.current (pageNo a) hwe) ∨
        s.mount.device = .unformatted ∨ (s.mount.device = .faulted ∧ hwe = false) →
      exec (.hostAccessTake a hoe hwe hlb hub hd) s = .next { s with host := endedHost s.host })

/-- After R43: an ATOMIC read waits for its word in the shadow frame of a present line, else in the committed
frame. -/
def Obligations.AtomicReadIsRoutedByLine : Prop :=
  ∀ (a : Addr) (hlb hub : Bool) (hd : Word16) (s : State) (g : Geometry), Powered s → s.host.cycleTaken = false →
    AtomicPlace s g a false → (hlb = true ∨ hub = true) →
    exec (.hostAccessTake a true false hlb hub hd) s =
      .next (arbitrate (waitingFor (inFrame (readTarget g s a) a) (recordOf a false hlb hub hd .atomic) s))

/-- After R36 and R37: an ATOMIC write with the group IDLE opens it, with one pop and one fill, whose first read waits
for the last word of a cancelled copy (log entry 16). -/
def Obligations.AtomicWriteOpensAGroup : Prop :=
  ∀ (a : Addr) (hoe hlb hub : Bool) (hd : Word16) (s : State) (g : Geometry) (frame : Nat) (rest : List Nat),
    Powered s → s.host.cycleTaken = false → AtomicPlace s g a true → (hlb = true ∨ hub = true) →
    s.group.state = .idle → s.group.table = [] → s.pool = frame :: rest →
    exec (.hostAccessTake a hoe true hlb hub hd) s =
      .next (arbitrate (fillOrdered (entryFor g s (pageNo a) frame) (lineNo a)
        (heldFor .lineFill (recordOf a true hlb hub hd .atomic)
          { s with pool := rest, group := openedGroup s (entryFor g s (pageNo a) frame) })))

/-- After R37, R38 and R39: an ATOMIC write in OPEN, to a present line, to an absent line and to a new page. A fill's
first read waits for the last word of a cancelled copy (log entry 16). -/
def Obligations.AtomicWriteInAnOpenGroup : Prop :=
  ∀ (a : Addr) (hoe hlb hub : Bool) (hd : Word16) (s : State) (g : Geometry),
    Powered s → s.host.cycleTaken = false → AtomicPlace s g a true → (hlb = true ∨ hub = true) →
    s.group.state = .opened →
    (∀ e, entryOf s (pageNo a) = some e → e.present.getLsbD (lineNo a) = true →
      exec (.hostAccessTake a hoe true hlb hub hd) s =
        .next (arbitrate (waitingFor (inFrame e.shadow a) (recordOf a true hlb hub hd .atomic) s))) ∧
    (∀ e, entryOf s (pageNo a) = some e → e.present.getLsbD (lineNo a) = false →
      exec (.hostAccessTake a hoe true hlb hub hd) s =
        .next (arbitrate (fillOrdered e (lineNo a)
          (heldFor .lineFill (recordOf a true hlb hub hd .atomic) s)))) ∧
    (∀ frame rest, entryOf s (pageNo a) = none → s.group.table.length < 32 → s.pool = frame :: rest →
      exec (.hostAccessTake a hoe true hlb hub hd) s =
        .next (arbitrate (fillOrdered (entryFor g s (pageNo a) frame) (lineNo a)
          (heldFor .lineFill (recordOf a true hlb hub hd .atomic)
            { s with
              pool := rest
              group := { s.group with table := s.group.table ++ [entryFor g s (pageNo a) frame] } }))))

/-- After R44, R45, R46 and R55: the ATOMIC writes that fail the group, that a FAILED group refuses, and that a commit
holds. -/
def Obligations.AtomicWriteRefusedOrHeldForACommit : Prop :=
  ∀ (a : Addr) (hoe hlb hub : Bool) (hd : Word16) (s : State) (g : Geometry),
    Powered s → s.host.cycleTaken = false → AtomicPlace s g a true → (hlb = true ∨ hub = true) → PortSettled s →
    (s.group.state = .opened → entryOf s (pageNo a) = none → 32 ≤ s.group.table.length →
      exec (.hostAccessTake a hoe true hlb hub hd) s =
        .next (post .groupFull none (some (pageNo a)) none
          { s with host := endedHost s.host, group := { s.group with state := .failed } })) ∧
    (s.group.state = .opened → entryOf s (pageNo a) = none → s.group.table.length < 32 → s.pool = [] →
      exec (.hostAccessTake a hoe true hlb hub hd) s =
        .next (post .poolEmpty none (some (pageNo a)) none
          { s with host := endedHost s.host, group := { s.group with state := .failed } })) ∧
    (s.group.state = .failed →
      exec (.hostAccessTake a hoe true hlb hub hd) s = .next { s with host := endedHost s.host }) ∧
    (∀ phase, s.group.state = .committing phase →
      exec (.hostAccessTake a hoe true hlb hub hd) s =
        .next (heldFor .commitHold (recordOf a true hlb hub hd .atomic) s))

/-- After R1: one access in each host cycle, and none without a strobe. -/
def Obligations.OneAccessInEachHostCycle : Prop :=
  ∀ (a : Addr) (hoe hwe hlb hub : Bool) (hd : Word16) (s : State),
    s.host.cycleTaken = true ∨ (hoe = false ∧ hwe = false) →
    exec (.hostAccessTake a hoe hwe hlb hub hd) s = .next s

/-- After R16, R41 and R14: HOST_CYCLE_END row by row, and READ_DATA_RELEASE. What HOE# does while an access is in
service, and HCE# with nothing held, is read from the manual (log entry 11). -/
def Obligations.HostCycleEndAndReadDataRelease : Prop :=
  ∀ s : State, Powered s →
    (s.host.access = none → exec .hostCycleEnd s = .next { s with host := emptyHost }) ∧
    (∀ a, s.host.access = some a →
      (s.host.hold = .none →
        exec .hostCycleEnd s =
          .next { s with
            host := emptyHost
            port := { s.port with flight := hostOrphaned s.port.flight, hostReq := none } }) ∧
      (s.host.hold = .lineFill → s.group.waiting = none →
        exec .hostCycleEnd s =
          .next { s with
            host := emptyHost
            group := { s.group with
              running := s.group.running.map fun f => { f with mergeWanted := false } } }) ∧
      (∀ f, s.host.hold = .lineFill → s.group.waiting = some f →
        exec .hostCycleEnd s = .next { s with host := emptyHost, group := { s.group with waiting := none } }) ∧
      (s.host.hold = .commitHold → exec .hostCycleEnd s = .next { s with host := emptyHost })) ∧
    (s.host.access = none →
      exec (.readDataRelease .hoe) s = .next { s with host := { s.host with hd := none } }) ∧
    (s.host.access ≠ none → exec (.readDataRelease .hoe) s = .next s) ∧
    exec (.readDataRelease .hce) s = exec .hostCycleEnd s

/-! ### Completion of a memory word access -/

/-- After R2, R11, R14, R16, R17 and R122: the word of the access in service completes, also in RESET_HELD (log entry 7).
There, and when RST# has been asserted under the word access, also if it has been released by then, HD is released with
it. A word access that was given up completes for nobody; after one of the engine's the operation that waited
for the engine requester asks for its first word (R66, R123; log entry 16). With no access in
flight there is no completion, and nothing changes (log entry 5). -/
def Obligations.HostWordCompletes : Prop :=
  ∀ (s : State) (r : Request), Powered s →
    (s.port.flight = none → exec .memoryWordAccessComplete s = .next s) ∧
    (∀ a, s.host.access = some a →
      (InFlight s r .host → r.kind = .read → a.kind = .read →
        let h := returning (readWordOn (readWord s.mem r.address) false a.lanes false)
          { s.host with access := none, hold := .none }
        exec .memoryWordAccessComplete s =
          .next (arbitrate (completed s.mem
            { s with host := if s.port.underReset = true ∨ s.mount.device = .resetHeld then heldReset h else h }))) ∧
      (∀ w, InFlight s r .host → r.kind = .write → r.data = some w → a.kind = .write →
        exec .memoryWordAccessComplete s =
          .next (arbitrate (completed (writeWord s.mem r.address r.lanes w)
            { s with host := { s.host with access := none, hold := .none } })))) ∧
    (∀ who, s.port.flight = some { request := r, requester := who, live := false } →
      let goesOn (u : State) : State := if who = .engine then engineResumes u else u
      (r.kind = .read → exec .memoryWordAccessComplete s = .next (arbitrate (goesOn (completed s.mem s)))) ∧
      (∀ w, r.kind = .write → r.data = some w →
        exec .memoryWordAccessComplete s =
          .next (arbitrate (goesOn (completed (writeWord s.mem r.address r.lanes w) s)))))

/-- After R40: a word of the running fill completes: the write of the word just read, then the next read. -/
def Obligations.LineFillCopiesWordByWord : Prop :=
  ∀ (s : State) (r : Request) (f : Fill), Powered s → InFlight s r .engine → s.group.running = some f →
    (f.held = none → r.kind = .read →
      exec .memoryWordAccessComplete s =
        .next (arbitrate (withEngine .write (lineWord f.target f.line f.word) (some (readWord s.mem r.address))
          (completed s.mem
            { s with group := { s.group with
                running := some { f with held := some (readWord s.mem r.address) } } })))) ∧
    (∀ v w, f.held = some v → f.word < 15 → r.kind = .write → r.data = some w →
      exec .memoryWordAccessComplete s =
        .next (arbitrate (withEngine .read (lineWord f.source f.line (f.word + 1)) none
          (completed (writeWord s.mem r.address r.lanes w)
            { s with group := { s.group with
                running := some { f with word := f.word + 1, held := none } } }))))

/-- After R40, R41, R42, R48 and R56: the sixteenth write of a fill completes. With its entry in the table the line
becomes present and a filling write that still waits is released to its merge in the shadow frame, in every group
state; a fill that an abort has left without an entry releases its write to be routed afresh, which with the group
IDLE opens a group and in COMMITTING is held for COMMIT_HOLD. The engine requester then passes on. That a commit's
first word waits for a fill of no entry is log entry 9, and that a COMPLETE with no absent line asks for nothing until
COMPLETE_END is the model's choice (log entry 17). -/
def Obligations.LineFillEnds : Prop :=
  ∀ (s : State) (r : Request) (f : Fill) (v w : Word16), Powered s → InFlight s r .engine →
    s.group.running = some f → f.held = some v → f.word = 15 → r.kind = .write → r.data = some w →
    let ended := completed (writeWord s.mem r.address r.lanes w) { s with group := { s.group with running := none } }
    let filled (page : Nat) : State :=
      { ended with group := { ended.group with table := lineAdded s.group.table page f.line } }
    (∀ page a, f.entry = some page → f.mergeWanted = true → s.host.access = some a → s.host.hold = .lineFill →
      exec .memoryWordAccessComplete s =
        .next (arbitrate (engineGoesOn
          { filled page with
            host := { s.host with hold := .none }
            port := { ended.port with hostReq := some (hostWord (inFrame f.target a.address) a) } }))) ∧
    (∀ page, f.entry = some page → f.mergeWanted = false →
      exec .memoryWordAccessComplete s = .next (arbitrate (engineGoesOn (filled page)))) ∧
    (f.entry = none → f.mergeWanted = false →
      exec .memoryWordAccessComplete s = .next (arbitrate (engineGoesOn ended))) ∧
    (∀ a g frame rest, f.entry = none → f.mergeWanted = true → s.host.access = some a → s.host.hold = .lineFill →
      s.xlate.geometry = some g → s.group.state = .idle → s.group.table = [] → s.group.waiting = none →
      s.pool = frame :: rest →
      exec .memoryWordAccessComplete s =
        .next (arbitrate (fillOrdered (entryFor g s (pageNo a.address) frame) (lineNo a.address)
          { ended with
            pool := rest
            group := { openedGroup s (entryFor g s (pageNo a.address) frame) with running := none } }))) ∧
    (∀ a phase, f.entry = none → f.mergeWanted = true → s.host.access = some a → s.host.hold = .lineFill →
      s.group.state = .committing phase →
      exec .memoryWordAccessComplete s =
        .next (arbitrate (engineGoesOn { ended with host := { s.host with hold := .commitHold } })))

/-- After R65: a word of a COMPLETE copy completes. The sixteenth write makes the line present, and the copy goes on to
the next absent line. That with none absent nothing is asked for is the model's choice (log entry 17). -/
def Obligations.CompleteCopiesEachAbsentLine : Prop :=
  ∀ (s : State) (req : Request) (r : CommitRecord) (e : Entry), Powered s → s.mount.device = .ready →
    s.group.running = none → s.group.state = .committing .complete → s.commit.record = some r →
    s.group.table[r.copyEntry]? = some e → InFlight s req .engine →
    (r.copyHeld = none → req.kind = .read →
      exec .memoryWordAccessComplete s =
        .next (arbitrate (withEngine .write (lineWord e.shadow r.copyLine r.copyWord)
          (some (readWord s.mem req.address))
          (completed s.mem { s with commit := { s.commit with
              record := some { r with copyHeld := some (readWord s.mem req.address) } } })))) ∧
    (∀ v w, r.copyHeld = some v → r.copyWord < 15 → req.kind = .write → req.data = some w →
      exec .memoryWordAccessComplete s =
        .next (arbitrate (withEngine .read (lineWord e.superseded r.copyLine (r.copyWord + 1)) none
          (completed (writeWord s.mem req.address req.lanes w)
            { s with commit := { s.commit with
                record := some { r with copyWord := r.copyWord + 1, copyHeld := none } } })))) ∧
    (∀ v w, r.copyHeld = some v → r.copyWord = 15 → req.kind = .write → req.data = some w →
      exec .memoryWordAccessComplete s =
        .next (arbitrate (copyNext r (completed (writeWord s.mem req.address req.lanes w)
          { s with group := { s.group with table := lineAdded s.group.table e.page r.copyLine } }))))

/-- After R67 to R70: the writes of a commit. The retire write is followed by word 1, each word by the next of the
order, the last by the mark, and after the mark SWITCH is due. -/
def Obligations.CommitWritesTheImageInOrder : Prop :=
  ∀ (s : State) (req : Request) (r : CommitRecord) (g : Geometry) (w : Word16), Powered s → Mounted s g →
    s.group.running = none → s.commit.record = some r → InFlight s req .engine → req.kind = .write →
    req.data = some w →
    let mem := writeWord s.mem req.address req.lanes w
    (s.group.state = .committing .retire →
      exec .memoryWordAccessComplete s =
        .next (arbitrate (withEngine .write (slotAddr r.target 1) (some 0x5633)
          (completed mem
            { s with
              group := { s.group with state := .committing .write }
              commit := { s.commit with record := some { r with
                body := some { generation := s.xlate.generation + 1, stamp := s.events.tick, acc := 0xFFFFFFFF }
                writePos := some 1 } } })))) ∧
    (∀ b n n' i, s.group.state = .committing .write → r.body = some b → r.writePos = some n →
      (writeOrder g.p)[i]? = some n → (writeOrder g.p)[i + 1]? = some n' →
      let b' : CommitBody := { b with acc := accumulated b.acc n w }
      exec .memoryWordAccessComplete s =
        .next (arbitrate (withEngine .write (slotAddr r.target n') (some ((imageOf s g r b').word b'.acc n'))
          (completed mem { s with commit := { s.commit with
              record := some { r with body := some b', writePos := some n' } } })))) ∧
    (∀ b, s.group.state = .committing .write → r.body = some b → r.writePos = some 27 →
      exec .memoryWordAccessComplete s =
        .next (arbitrate (withEngine .write (slotAddr r.target 0) (some 0x4D4A)
          (completed mem
            { s with
              group := { s.group with state := .committing .mark }
              commit := { s.commit with record := some { r with writePos := some 0 } } })))) ∧
    (s.group.state = .committing .mark →
      exec .memoryWordAccessComplete s =
        .next (arbitrate (completed mem
          { s with commit := { s.commit with record := some { r with writePos := none } } })))

/-- After R84 and R98: a word of a mount completes: the next word of the slot, and slot B after slot A. -/
def Obligations.MountReadsSlotAThenSlotB : Prop :=
  ∀ (s : State) (r : Request) (slot : Slot) (va : Option Verdict) (words : List Word16) (acc : BitVec 32),
    Powered s → s.mount.device = .mounting → s.group.running = none → InFlight s r .engine → r.kind = .read →
    s.mount.run = .reading slot va words acc →
    let words' := words ++ [readWord s.mem r.address]
    let acc' := accumulated acc words.length (readWord s.mem r.address)
    (words'.length < 28 ∨
        (words'[0]? = some 0x4D4A ∧ ∃ w5, words'[5]? = some w5 ∧ 1 ≤ w5.toNat ∧ w5.toNat ≤ 4068 ∧
          words'.length < 28 + w5.toNat) →
      exec .memoryWordAccessComplete s =
        .next (arbitrate (withEngine .read (slotAddr slot words'.length) none
          (completed s.mem { s with mount := { s.mount with run := .reading slot va words' acc' } })))) ∧
    (SlotRead words' → slot = .a →
      exec .memoryWordAccessComplete s =
        .next (arbitrate (withEngine .read (slotAddr .b 0) none
          (completed s.mem { s with mount := { s.mount with
              run := .reading .b (some (judge words' acc')) [] 0xFFFFFFFF } }))))

/-- After R99 to R102: the last word of slot B brings the mount decision and its effect. -/
def Obligations.MountEndsByItsDecision : Prop :=
  ∀ (s : State) (r : Request) (va : Verdict) (words : List Word16) (acc : BitVec 32),
    Powered s → s.mount.device = .mounting → s.group.running = none → InFlight s r .engine → r.kind = .read →
    s.mount.run = .reading .b (some va) words acc → SlotRead (words ++ [readWord s.mem r.address]) →
    let vb := judge (words ++ [readWord s.mem r.address]) (accumulated acc words.length (readWord s.mem r.address))
    (∀ slot im, mountDecision va vb = .ready slot im →
      exec .memoryWordAccessComplete s =
        .next (arbitrate (post .mountReady none none (some (mountByte s.mount.cause slot))
          (loaded im.geometry im.entries im.generation slot im.guards (completed s.mem s))))) ∧
    (mountDecision va vb = .unformatted →
      exec .memoryWordAccessComplete s =
        .next (arbitrate (post .mountBlank none none none
          (mountedNothing .unformatted none (completed s.mem s))))) ∧
    (∀ reason, mountDecision va vb = .faulted reason →
      exec .memoryWordAccessComplete s =
        .next (arbitrate (post .mountFault none none (some (if reason = .noValid then 0x01 else 0x02))
          (mountedNothing .faulted (some reason) (completed s.mem s)))))

/-- After R106 and R107: the writes of a format in order, and its end. -/
def Obligations.FormatWritesInOrderAndLoads : Prop :=
  ∀ (s : State) (r : Request) (f : FormatRun) (w : Word16), Powered s → s.mount.device = .formatting →
    s.group.running = none → s.mount.format = some f → InFlight s r .engine → r.kind = .write → r.data = some w →
    let mem := writeWord s.mem r.address r.lanes w
    (f.step = some .retireA →
      exec .memoryWordAccessComplete s =
        .next (arbitrate (withEngine .write 0x01000 (some 0x0000)
          (completed mem { s with mount := { s.mount with format := some { f with step := some .retireB } } })))) ∧
    (f.step = some .retireB →
      exec .memoryWordAccessComplete s =
        .next (arbitrate (withEngine .write 0x00001 (some 0x5633)
          (completed mem { s with mount := { s.mount with format := some { f with
              step := some (.body 1), stamp := some s.events.tick, acc := 0xFFFFFFFF } } })))) ∧
    (∀ n n' i, f.step = some (.body n) → (writeOrder f.geometry.p)[i]? = some n →
      (writeOrder f.geometry.p)[i + 1]? = some n' →
      let acc := accumulated f.acc n w
      exec .memoryWordAccessComplete s =
        .next (arbitrate (withEngine .write (slotAddr .a n')
          (some ((freshImage f.geometry (f.stamp.getD 0)).word acc n'))
          (completed mem { s with mount := { s.mount with
              format := some { f with step := some (.body n'), acc := acc } } })))) ∧
    (f.step = some (.body 27) →
      exec .memoryWordAccessComplete s =
        .next (arbitrate (withEngine .write 0x00000 (some 0x4D4A)
          (completed mem { s with mount := { s.mount with format := some { f with step := some .mark } } })))) ∧
    (f.step = some .mark →
      exec .memoryWordAccessComplete s =
        .next (arbitrate (post .formatDone none none none
          (loaded f.geometry ((List.range f.geometry.p).map fun i => 32 + f.geometry.d + i) 1 .a offTable
            (completed mem s)))))

/-! ### Commits and aborts -/

/-- After R65 and R56: COMPLETE_END, once every line is present, no fill runs or waits and no host write to a shadow
frame is pending. While a line is absent, a fill runs or waits, or such a write waits or is in flight, and outside
COMPLETE, it is not due and changes nothing (log entry 5). That a write given up but granted counts as pending is read
from the manual (log entry 9), and that the retire write is asked for in this step, after the completion that made it
due, is the model's choice (log entry 17). -/
def Obligations.CompleteEndsWhenAllIsPresent : Prop :=
  ∀ s : State, Powered s →
    (∀ r, s.mount.device = .ready → s.group.state = .committing .complete → s.commit.record = some r →
      (∀ e ∈ s.group.table, e.present = 0xFFFF) → s.group.running = none → s.group.waiting = none →
      s.host.hold ≠ .lineFill → ¬ ShadowWrite s →
      exec .completeEnd s =
        .next (arbitrate (withEngine .write (slotAddr r.target 0) (some 0x0000)
          { s with group := { s.group with state := .committing .retire } }))) ∧
    (s.mount.device ≠ .ready ∨ s.group.state ≠ .committing .complete ∨ (∃ e ∈ s.group.table, e.present ≠ 0xFFFF) ∨
        s.group.running ≠ none ∨ s.group.waiting ≠ none ∨ s.host.hold = .lineFill ∨ ShadowWrite s →
      exec .completeEnd s = .next s)

/-- After R22, R29 and R71: SWITCH is taken whole; a write held for COMMIT_HOLD is then taken afresh, as a take of the
same record on the switched state (R17). That COMMIT_DONE is posted before that take is read from the manual (log entry
12). Before the mark write has completed SWITCH is not due and changes nothing (R70; log entry 5). -/
def Obligations.SwitchIsTakenWhole : Prop :=
  (∀ s : State, Powered s →
    s.mount.device ≠ .ready ∨ s.group.state ≠ .committing .mark ∨
      (∃ r, s.commit.record = some r ∧ r.writePos ≠ none) →
    exec .switch s = .next s) ∧
  ∀ (s : State) (r : CommitRecord) (b : CommitBody) (g : Geometry), Powered s → Mounted s g →
    s.group.state = .committing .mark → s.commit.record = some r → r.body = some b → r.writePos = none →
    let switched : State := post .commitDone none none (some (BitVec.ofNat 8 r.pageCount))
      { s with
        xlate := { s.xlate with
          map := s.group.table.foldl (fun m e => m.set (e.page - g.d) e.shadow) s.xlate.map
          generation := b.generation, activeSlot := some r.target }
        guards := if r.source = .staged then
            { s.guards with current := s.guards.staged.getD s.guards.current, staged := none } else s.guards
        pool := s.pool ++ s.group.table.map Entry.superseded
        group := idleGroup s.group.running
        commit := { s.commit with record := none } }
    (s.host.access = none ∨ s.host.hold ≠ .commitHold → exec .switch s = .next (arbitrate switched)) ∧
    ∀ a w, s.host.access = some a → s.host.hold = .commitHold → s.host.cycleTaken = true → a.kind = .write →
      a.data = some w →
      exec .switch s =
        exec (.hostAccessTake a.address false true a.lanes.low a.lanes.high w)
          { switched with host := { s.host with cycleTaken := false } }

/-- After R59, R61 and R62: a commit request from CMT and from COMMIT. That the retire write of a guard-only commit
waits for a line fill that an abort left running is read from the manual (log entry 9), and so is that a
commit's first word waits for the last word of a cancelled copy (log entry 16). That a group with every line present
stays in COMPLETE, with nothing asked for, until COMPLETE_END is the model's choice (log entry 17). Outside READY an edge on CMT is ignored. -/
def Obligations.CommitRequestsAreAnsweredByTheGroup : Prop :=
  (∀ s : State, Powered s → s.mount.device ≠ .ready → exec .cmt s = .next s) ∧
  ∀ s : State, Powered s → s.mount.device = .ready →
    (∀ kind, (s.group.state = .opened ∧ kind = .group) ∨
        (s.group.state = .idle ∧ s.guards.staged ≠ none ∧ kind = .guardOnly) → s.group.waiting = none ∨ s.group.running ≠ none →
      exec .cmt s = .next (arbitrate (commitStarted kind s)) ∧
      (s.commit.latch = false → AwaitsCode s →
        exec .commit s =
          .next (answered 0x20
            [0x00, if kind = .group then 0x00 else 0x01, BitVec.ofNat 8 s.group.table.length]
            (arbitrate (commitStarted kind s))))) ∧
    (∀ code : Byte, (s.group.state = .idle ∧ s.guards.staged = none ∧ code = 0x03) ∨
        (s.group.state = .failed ∧ code = 0x04) ∨ ((∃ phase, s.group.state = .committing phase) ∧ code = 0x01) →
      exec .cmt s =
        .next (post .commitRefused none none (some code) { s with commit := { s.commit with latch := false } }) ∧
      (AwaitsCode s → exec .commit s = .next (answered 0x20 [code] s)))

/-- After R98, R105 and R106: the first read of a mount and the first write of a format. While a fill runs or an access
is in flight, and where no mount or format waits to start, neither is due, and nothing changes (log entry 5). That any
access in flight keeps them waiting, an engine's word that goes on for nobody included, is read from the manual (log
entry 12). -/
def Obligations.MountAndFormatStartAtAnIdlePort : Prop :=
  (∀ s : State, Powered s → s.group.running ≠ none ∨ s.port.flight ≠ none →
    exec .mountStart s = .next s ∧ exec .formatWritesStart s = .next s) ∧
  (∀ s : State, Powered s →
    (s.mount.device ≠ .mounting ∨ s.mount.run ≠ .waiting → exec .mountStart s = .next s) ∧
    (s.mount.device ≠ .formatting ∨ (∀ f, s.mount.format = some f → f.step ≠ none) →
      exec .formatWritesStart s = .next s)) ∧
  ∀ s : State, Powered s → s.group.running = none → s.port.flight = none →
    (s.mount.device = .mounting → s.mount.run = .waiting →
      exec .mountStart s =
        .next (arbitrate (withEngine .read 0x00000 none
          { s with mount := { s.mount with run := .reading .a none [] 0xFFFFFFFF } }))) ∧
    (∀ f, s.mount.device = .formatting → s.mount.format = some f → f.step = none →
      exec .formatWritesStart s =
        .next (arbitrate (withEngine .write 0x00000 (some 0x0000)
          { s with mount := { s.mount with format := some { f with step := some .retireA } } })))

/-- After R51, R116 and R150: TICK and HRST_PULSE_END. -/
def Obligations.TickCountsAndThePulseEnds : Prop :=
  ∀ s : State, Powered s →
    (∀ length, s.events.period = some length →
      exec .tick s =
        .next { s with
          events := { s.events with
            tick := s.events.tick + 1, period := some ((s.config.divider.toNat + 1) * 1024) }
          group := { s.group with deadline := s.group.deadline.map fun n => n - 1 } }) ∧
    (s.events.period = none → exec .tick s = .next s) ∧
    exec .hrstPulseEnd s = .next { s with guards := { s.guards with pulse := none } }

/-- After R47, R49, R52 and R66: the deadline's expiry, ABORT and the cancellation of a commit in COMPLETE, where the
access in service has no routing to lose; and where ABORT is answered NO_GROUP and TOO_LATE, whatever is in service.
While the remaining count is not 0, and in no OPEN or FAILED group, DEADLINE_ABORT is not due and changes nothing (R51;
log entry 5). -/
def Obligations.AbortGivesTheGroupBack : Prop :=
  (∀ s : State, Powered s →
    s.mount.device ≠ .ready ∨ s.group.deadline ≠ some 0 ∨ (s.group.state ≠ .opened ∧ s.group.state ≠ .failed) →
    exec .deadlineAbort s = .next s) ∧
  ∀ s : State, Powered s → s.mount.device = .ready →
    (Unaffected s →
      (s.group.state = .opened ∨ s.group.state = .failed →
        (s.group.deadline = some 0 →
          exec .deadlineAbort s = .next (arbitrate (post .deadlineAbort none none none (abortedGroup s)))) ∧
        (AwaitsCode s →
          exec .abort s = .next (abortAnswered s (arbitrate (abortTold s (abortedGroup s)))))) ∧
      (s.group.state = .committing .complete → AwaitsCode s →
        exec .abort s = .next (abortAnswered s (arbitrate (abortTold s (cancelled s)))))) ∧
    (AwaitsCode s →
      (s.group.state = .idle → exec .abort s = .next (answered 0x21 [0x03] s)) ∧
      (s.group.state = .committing .retire ∨ s.group.state = .committing .write ∨
          s.group.state = .committing .mark →
        exec .abort s = .next (answered 0x21 [0x05] s)))

/-- After R17, R48 and R66: what becomes of an atomic access in service at the deadline's expiry, at ABORT, and at the
cancellation of a commit in COMPLETE, where a write held for COMMIT_HOLD is taken afresh. -/
def Obligations.AbortRoutesTheAccessAfresh : Prop :=
  ∀ (s : State) (a : Access) (g : Geometry), Powered s → AtomicPlace s g a.address (a.kind == .write) →
    s.host.access = some a → a.cls = .atomic → (a.lanes.low = true ∨ a.lanes.high = true) →
    (s.group.state = .opened ∨ s.group.state = .failed →
      (s.group.deadline = some 0 →
        ∃ t, exec .deadlineAbort s = .next t ∧
          Rerouted s a g (post .deadlineAbort none none none (abortedGroup s)) t) ∧
      (AwaitsCode s →
        ∃ t, exec .abort s = .next (abortAnswered s t) ∧ Rerouted s a g (abortTold s (abortedGroup s)) t)) ∧
    (s.group.state = .committing .complete → AwaitsCode s →
      ∃ t, exec .abort s = .next (abortAnswered s t) ∧ Rerouted s a g (abortTold s (cancelled s)) t)

/-! ### The management port -/

/-- After R137, R138, R139 and R140: the edges of SCS#, and a code that names no command. A FRAME_BEGIN with SCS# low,
and a BAD_CMD that no frame awaits or whose code names a command, change nothing (log entry 5). That a rise of SCS# in
RESPONSE or SPENT drops the code, the arguments and the position too is the model's choice (log entry 18). -/
def Obligations.FramesBeginEndAndTurnAwayBadCodes : Prop :=
  ∀ s : State, Powered s →
    (s.mount.device ≠ .resetHeld → s.framer.scsLow = false →
      exec .frameBegin s =
        .next { s with framer := { state := .command, code := none, args := [], response := [], next := 0,
                                   scsLow := true } }) ∧
    (s.mount.device = .resetHeld → s.framer.scsLow = false →
      exec .frameBegin s = .next { s with framer := { s.framer with scsLow := true } }) ∧
    (s.framer.scsLow = true → exec .frameBegin s = .next s) ∧
    (∀ code : Byte, (Instr.badCmd code).wellFormed = false ∨ ¬ AwaitsCode s → exec (.badCmd code) s = .next s) ∧
    exec .frameEnd s =
      .next { s with framer := { state := .outside, code := none, args := [], response := [], next := 0,
                                 scsLow := false } } ∧
    (∀ code : Byte, (Instr.badCmd code).wellFormed = true → AwaitsCode s →
      exec (.badCmd code) s = .next (answered code [0x0F] s) ∧
      exec (.byteArrives code) s = exec (.badCmd code) s)

/-- The commands without arguments, with their codes (Table 12-2). -/
def Sys2Proof.Claims.shortCommands : List (Instr × Byte) :=
  [(.status, 0x01), (.configRead, 0x02), (.eventPop, 0x10), (.commit, 0x20), (.abort, 0x21), (.guardDiscard, 0x32),
    (.remount, 0x41)]

/-- The commands with arguments: the command its last argument byte brings, its code and its count (Table 12-2). -/
def Sys2Proof.Claims.longCommands (last : Byte) : List (Instr × Byte × Nat) :=
  [(.configWrite last, 0x03, 6), (.eventAck last, 0x11, 1), (.groupList last, 0x22, 1), (.mapQuery last, 0x23, 2),
    (.guardRead last, 0x30, 2), (.guardStage last, 0x31, 6), (.format last, 0x40, 5)]

/-- After R137, R138 and R139: BYTE_ARRIVES. A byte brings a take, begins the arguments, is collected, or shifts a
response byte out; in OUTSIDE and SPENT, and in RESET_HELD (R134), it does nothing. A command whose byte the framer
does not await changes nothing (log entry 5). -/
def Obligations.ByteArrivesDrivesTheFramer : Prop :=
  (∀ s : State, Powered s →
    (s.mount.device = .resetHeld → ∀ b, exec (.byteArrives b) s = .next s) ∧
    (∀ c code, (c, code) ∈ shortCommands → ¬ AwaitsCode s → exec c s = .next s) ∧
    ∀ c code count last, (c, code, count) ∈ longCommands last → ¬ AwaitsLast s code count → exec c s = .next s) ∧
  ∀ (s : State) (b : Byte), Powered s → s.mount.device ≠ .resetHeld →
    (∀ c, (c, b) ∈ shortCommands → s.framer.state = .command → exec (.byteArrives b) s = exec c s) ∧
    (∀ c count last, (c, b, count) ∈ longCommands last → s.framer.state = .command →
      exec (.byteArrives b) s =
        .next { s with framer := { s.framer with state := .arguments, code := some b, args := [] } }) ∧
    (∀ c code count, (c, code, count) ∈ longCommands b → s.framer.state = .arguments → s.framer.code = some code →
      (s.framer.args.length + 1 < count →
        exec (.byteArrives b) s = .next { s with framer := { s.framer with args := s.framer.args ++ [b] } }) ∧
      (s.framer.args.length + 1 = count → exec (.byteArrives b) s = exec c s)) ∧
    (s.framer.state = .response →
      exec (.byteArrives b) s =
        .next { s with framer := { s.framer with
          next := s.framer.next + 1
          state := if s.framer.next + 1 < s.framer.response.length then .response else .spent } }) ∧
    (s.framer.state = .outside ∨ s.framer.state = .spent → exec (.byteArrives b) s = .next s)

/-- After R144 and Table 12-4: STATUS, its 23 data bytes one by one. -/
def Obligations.StatusReportsOnePicture : Prop :=
  ∀ s : State, Powered s → AwaitsCode s → ∃ data : List Byte,
    exec .status s = .next (answered 0x01 (0x00 :: data) s) ∧ data.length = 23 ∧
    data[0]? = some (deviceByte s.mount.device) ∧
    data[1]? = some (α := Byte) (match s.mount.reason with | none => 0x00 | some .noValid => 0x01 | some .mismatch => 0x02) ∧
    data[2]? = some (α := Byte) (match s.mount.cause with
      | none => 0x00 | some .power => 0x01 | some .pin => 0x02 | some .supplyReturn => 0x03 | some .command => 0x04) ∧
    data[3]? = some (α := Byte) (match s.group.state with
      | .idle => 0x00 | .opened => 0x01 | .failed => 0x02 | .committing _ => 0x03) ∧
    data[4]? = some (α := Byte) (match s.group.state with
      | .committing .complete => 0x01 | .committing .retire => 0x02 | .committing .write => 0x03
      | .committing .mark => 0x04 | _ => 0x00) ∧
    data[5]? = some (BitVec.ofNat 8 s.group.table.length) ∧
    data[6]? = some (BitVec.ofNat 8 (s.pool.length / 256)) ∧ data[7]? = some (BitVec.ofNat 8 s.pool.length) ∧
    data[8]? = some ((s.xlate.generation >>> 24).setWidth 8) ∧
    data[9]? = some ((s.xlate.generation >>> 16).setWidth 8) ∧
    data[10]? = some ((s.xlate.generation >>> 8).setWidth 8) ∧ data[11]? = some (s.xlate.generation.setWidth 8) ∧
    data[12]? = some (α := Byte) (match s.xlate.activeSlot with | none => 0x00 | some .a => 0x01 | some .b => 0x02) ∧
    data[13]? = some (α := Byte) (if s.guards.staged = none then 0x00 else 0x01) ∧
    data[14]? = some (s.events.latches.setWidth 8) ∧ data[15]? = some (BitVec.ofNat 8 s.events.queue.length) ∧
    (∀ g, s.xlate.geometry = some g →
      data[16]? = some (BitVec.ofNat 8 g.sizeCode) ∧
      data[17]? = some (BitVec.ofNat 8 (g.d / 256)) ∧ data[18]? = some (BitVec.ofNat 8 g.d) ∧
      data[19]? = some (BitVec.ofNat 8 (g.p / 256)) ∧ data[20]? = some (BitVec.ofNat 8 g.p)) ∧
    (s.xlate.geometry = none → ∀ i, 16 ≤ i → i ≤ 20 → data[i]? = some 0x00) ∧
    data[21]? = some ((s.events.tick >>> 8).setWidth 8) ∧ data[22]? = some (s.events.tick.setWidth 8)

/-- After R145 and R146: CONFIG_READ reports the five fields; CONFIG_WRITE writes all five when every argument passes,
else none. -/
def Obligations.ConfigurationIsReadAndWrittenWhole : Prop :=
  ∀ s : State, Powered s →
    (AwaitsCode s →
      exec .configRead s =
        .next (answered 0x02
          [0x00, (s.config.deadline >>> 8).setWidth 8, s.config.deadline.setWidth 8, s.config.divider,
            BitVec.ofNat 8 s.config.stealShare, if s.config.guardAction = .event then 0x00 else 0x01,
            s.config.enable.setWidth 8] s)) ∧
    (∀ dh dl divider share action set : Byte, AwaitsLast s 0x03 6 → s.framer.args = [dh, dl, divider, share, action] →
      s.mount.device = .ready ∨ RawDevice s →
      let good := 1 ≤ share.toNat ∧ share.toNat ≤ 8 ∧ (action = 0x00 ∨ action = 0x01) ∧ set.toNat < 64
      (good →
        exec (.configWrite set) s =
          .next (answeredArgs s.framer 0x03 set [0x00]
            { s with config := { deadline := dh ++ dl, divider := divider, stealShare := share.toNat
                                 guardAction := if action = 0x00 then .event else .eventAndHostReset
                                 enable := set.setWidth 6 } })) ∧
      (¬ good → exec (.configWrite set) s = .next (answeredArgs s.framer 0x03 set [0x06] s)))

/-- The code of a kind (Table 11-1). -/
def Sys2Proof.Claims.kindByte : EventKind → Byte
  | .guardedRead => 0x01
  | .guardedWrite => 0x02
  | .unbackedRead => 0x03
  | .unbackedWrite => 0x04
  | .rawWrite => 0x05
  | .groupFull => 0x10
  | .poolEmpty => 0x11
  | .deadlineAbort => 0x12
  | .abortDone => 0x13
  | .commitDone => 0x20
  | .commitRefused => 0x21
  | .mountReady => 0x30
  | .mountBlank => 0x31
  | .mountFault => 0x32
  | .formatDone => 0x33
  | .halt => 0x40

/-- R154: EVENT_POP, in every device state in which the port answers. The ten bytes are those of Table 12-6. -/
def Obligations.EventPopReturnsTheOldestRecord : Prop :=
  ∀ s : State, Powered s → AwaitsCode s →
    (s.events.queue = [] → exec .eventPop s = .next (answered 0x10 [0x07] s)) ∧
    (∀ r rest, s.events.queue = r :: rest → ∃ bytes : List Byte,
      exec .eventPop s =
        .next (answered 0x10 (0x00 :: bytes) { s with events := { s.events with queue := rest } }) ∧
      bytes.length = 10 ∧ bytes[0]? = some (kindByte r.kind) ∧
      (∀ a, r.address = some a → r.page = none →
        bytes.drop 6 = [(a >>> 16).setWidth 8, (a >>> 8).setWidth 8, a.setWidth 8, r.detail.getD 0]) ∧
      (∀ p, r.address = none → r.page = some p →
        bytes.drop 6 = [0x00, BitVec.ofNat 8 (p / 256), BitVec.ofNat 8 p, r.detail.getD 0]) ∧
      (r.address = none → r.page = none → bytes.drop 6 = [0x00, 0x00, 0x00, r.detail.getD 0]) ∧
      bytes[1]? = some ((if r.address = none then 0x00 else 0x01) + (if r.page = none then 0x00 else 0x02) +
        (if r.detail = none then 0x00 else 0x04)) ∧
      (bytes.drop 2).take 4 = [(r.stamp >>> 8).setWidth 8, r.stamp.setWidth 8, (r.generation >>> 8).setWidth 8,
        r.generation.setWidth 8])

/-- R155: EVENT_ACK clears the named latches and answers the latch set that is left, or answers BAD_ARG. -/
def Obligations.EventAckClearsTheNamedLatches : Prop :=
  ∀ (s : State) (set : Byte), Powered s → AwaitsLast s 0x11 1 →
    (set.toNat < 64 →
      exec (.eventAck set) s =
        .next (answeredArgs s.framer 0x11 set [0x00, (s.events.latches &&& ~~~(set.setWidth 6)).setWidth 8]
          { s with events := { s.events with latches := s.events.latches &&& ~~~(set.setWidth 6) } })) ∧
    (64 ≤ set.toNat → exec (.eventAck set) s = .next (answeredArgs s.framer 0x11 set [0x06] s))

/-- After R148, R149 and R160: GROUP_LIST and MAP_QUERY in READY. -/
def Obligations.GroupListAndMapQueryReport : Prop :=
  ∀ (s : State) (g : Geometry) (last : Byte), Powered s → Mounted s g →
    (∀ e stamp, AwaitsLast s 0x22 1 → s.framer.args = [] → s.group.table[last.toNat]? = some e →
      s.group.openStamp = some stamp →
      exec (.groupList last) s =
        .next (answeredArgs s.framer 0x22 last
          [0x00, BitVec.ofNat 8 s.group.table.length, (stamp >>> 8).setWidth 8, stamp.setWidth 8,
            BitVec.ofNat 8 (e.page / 256), BitVec.ofNat 8 e.page, BitVec.ofNat 8 (e.shadow / 256),
            BitVec.ofNat 8 e.shadow, BitVec.ofNat 8 (e.superseded / 256), BitVec.ofNat 8 e.superseded,
            (e.present >>> 8).setWidth 8, e.present.setWidth 8] s)) ∧
    (AwaitsLast s 0x22 1 → s.framer.args = [] → s.group.table.length ≤ last.toNat →
      exec (.groupList last) s = .next (answeredArgs s.framer 0x22 last [0x06] s)) ∧
    (∀ hi : Byte, AwaitsLast s 0x23 2 → s.framer.args = [hi] →
      let page := 256 * hi.toNat + last.toNat
      (4095 < page → exec (.mapQuery last) s = .next (answeredArgs s.framer 0x23 last [0x06] s)) ∧
      (page ≤ 4095 → page < g.d →
        exec (.mapQuery last) s =
          .next (answeredArgs s.framer 0x23 last
            [0x00, 0x00, BitVec.ofNat 8 ((32 + page) / 256), BitVec.ofNat 8 (32 + page), 0x00, 0xFF, 0xFF, 0x00, 0x00]
            s)) ∧
      (page ≤ 4095 → g.d ≤ page → page < g.d + g.p →
        (∀ e, entryOf s page = some e →
          exec (.mapQuery last) s =
            .next (answeredArgs s.framer 0x23 last
              [0x00, 0x01, BitVec.ofNat 8 (committed g s page / 256), BitVec.ofNat 8 (committed g s page), 0x01,
                BitVec.ofNat 8 (e.shadow / 256), BitVec.ofNat 8 e.shadow, (e.present >>> 8).setWidth 8,
                e.present.setWidth 8] s)) ∧
        (entryOf s page = none →
          exec (.mapQuery last) s =
            .next (answeredArgs s.framer 0x23 last
              [0x00, 0x01, BitVec.ofNat 8 (committed g s page / 256), BitVec.ofNat 8 (committed g s page), 0x00,
                0xFF, 0xFF, 0x00, 0x00] s))) ∧
      (page ≤ 4095 → g.d + g.p ≤ page →
        exec (.mapQuery last) s =
          .next (answeredArgs s.framer 0x23 last [0x00, 0x02, 0xFF, 0xFF, 0x00, 0xFF, 0xFF, 0x00, 0x00] s)))

/-- The mode byte of a guard entry (Table 12-3). -/
def Sys2Proof.Claims.modeByte : GuardMode → Byte
  | .off => 0x00
  | .write => 0x01
  | .all => 0x02

/-- After R118, R119 and R120: the guard commands in READY. -/
def Obligations.GuardCommandsReadStageAndDiscard : Prop :=
  ∀ s : State, Powered s → s.mount.device = .ready →
    (∀ index table : Byte, AwaitsLast s 0x30 2 → s.framer.args = [index] →
      (∀ e, index.toNat ≤ 7 → table.toNat ≤ 1 →
        (if table = 0x01 then s.guards.staged.getD s.guards.current else s.guards.current)[index.toNat]? = some e →
        exec (.guardRead table) s =
          .next (answeredArgs s.framer 0x30 table
            [0x00, BitVec.ofNat 8 (e.first / 256), BitVec.ofNat 8 e.first, BitVec.ofNat 8 (e.last / 256),
              BitVec.ofNat 8 e.last, modeByte e.mode,
              if table = 0x01 ∧ s.guards.staged ≠ none then 0x01 else 0x00] s)) ∧
      (7 < index.toNat ∨ 1 < table.toNat →
        exec (.guardRead table) s = .next (answeredArgs s.framer 0x30 table [0x06] s))) ∧
    (∀ index fh fl lh ll mode : Byte, AwaitsLast s 0x31 6 → s.framer.args = [index, fh, fl, lh, ll] →
      let first := 256 * fh.toNat + fl.toNat
      let last := 256 * lh.toNat + ll.toNat
      ((∃ phase, s.group.state = .committing phase) →
        exec (.guardStage mode) s = .next (answeredArgs s.framer 0x31 mode [0x01] s)) ∧
      ((∀ phase, s.group.state ≠ .committing phase) →
        (∀ m, index.toNat ≤ 7 → first ≤ last → last ≤ 4095 → modeByte m = mode →
          exec (.guardStage mode) s =
            .next (answeredArgs s.framer 0x31 mode [0x00]
              { s with guards := { s.guards with
                  staged := some ((s.guards.staged.getD s.guards.current).set index.toNat
                    { first := first, last := last, mode := m }) } })) ∧
        (7 < index.toNat ∨ 4095 < first ∨ 4095 < last ∨ last < first ∨ 2 < mode.toNat →
          exec (.guardStage mode) s = .next (answeredArgs s.framer 0x31 mode [0x06] s)))) ∧
    (AwaitsCode s →
      ((∃ phase, s.group.state = .committing phase) → exec .guardDiscard s = .next (answered 0x32 [0x01] s)) ∧
      ((∀ phase, s.group.state ≠ .committing phase) →
        exec .guardDiscard s =
          .next (answered 0x32 [0x00] { s with guards := { s.guards with staged := none } })))

/-- After R104 and R105: FORMAT, by the group state and then by its arguments; accepted, the volume is discarded and
the device is FORMATTING with the command's geometry. -/
def Obligations.FormatIsCheckedThenAccepted : Prop :=
  ∀ (s : State) (code dh dl ph pl : Byte), Powered s → AwaitsLast s 0x40 5 → s.framer.args = [code, dh, dl, ph] →
    let g : Geometry :=
      { sizeCode := code.toNat, d := 256 * dh.toNat + dl.toNat, p := 256 * ph.toNat + pl.toNat }
    (s.mount.device = .ready → (∃ phase, s.group.state = .committing phase) →
      exec (.format pl) s = .next (answeredArgs s.framer 0x40 pl [0x01] s)) ∧
    (s.mount.device = .ready → s.group.state = .opened ∨ s.group.state = .failed →
      exec (.format pl) s = .next (answeredArgs s.framer 0x40 pl [0x02] s)) ∧
    ((s.mount.device = .ready ∧ s.group.state = .idle) ∨ RawDevice s →
      (¬ GeometryOk g → exec (.format pl) s = .next (answeredArgs s.framer 0x40 pl [0x06] s)) ∧
      (GeometryOk g →
        exec (.format pl) s =
          .next (answeredArgs s.framer 0x40 pl [0x00]
            { s with
              host := changedHost (isGranted s) s.host
              port := { s.port with hostReq := changedRequest s }
              xlate := clearedTable
              pool := []
              commit := { latch := false, record := none }
              guards := { s.guards with current := [], staged := none }
              group := idleGroup (s.group.running.map fun f => { f with mergeWanted := false, entry := none })
              mount := { s.mount with
                device := .formatting, reason := none, run := .idle
                format := some { geometry := g, step := none, stamp := none, acc := 0xFFFFFFFF } } })))

/-- After R50, R109 and R110: REMOUNT. A commit refuses it; otherwise the volume is discarded, after an abort with
ABORT_DONE of an OPEN or FAILED group, and the device is MOUNTING with cause COMMAND. -/
def Obligations.RemountDiscardsTheVolumeAndMounts : Prop :=
  ∀ s : State, Powered s → AwaitsCode s →
    (s.mount.device = .ready → (∃ phase, s.group.state = .committing phase) →
      exec .remount s = .next (answered 0x41 [0x01] s)) ∧
    ((s.mount.device = .ready ∧ ∀ phase, s.group.state ≠ .committing phase) ∨
        (RawDevice s ∧ s.group.state = .idle) →
      exec .remount s =
        .next (answered 0x41 [0x00]
          { s with
            events := if s.group.state = .idle then s.events
              else (post .abortDone none none (some (BitVec.ofNat 8 s.group.table.length)) s).events
            host := changedHost (isGranted s) s.host
            port := { s.port with hostReq := changedRequest s, passCount := 0 }
            xlate := clearedTable
            pool := []
            commit := { latch := false, record := none }
            guards := { s.guards with current := [], staged := none }
            group := idleGroup (s.group.running.map fun f => { f with mergeWanted := false, entry := none })
            mount := { device := .mounting, reason := none, cause := some .command, run := .waiting,
                       format := none } }))

/-- After R143 and Table 10-2: the commands on the volume and CONFIG_WRITE are answered BUSY in MOUNTING, FORMATTING and
HALTED, and the commands on the volume BAD_STATE in UNFORMATTED and FAULTED; nothing else changes. -/
def Obligations.VolumeCommandsAreTurnedAwayByTheDeviceState : Prop :=
  ∀ s : State, Powered s →
    (∀ c code, (c, code) ∈ shortCommands → AwaitsCode s → c ≠ .status → c ≠ .configRead → c ≠ .eventPop →
      (BusyDevice s → exec c s = .next (answered code [0x01] s)) ∧
      (RawDevice s → c ≠ .remount → exec c s = .next (answered code [0x02] s))) ∧
    (∀ c code count last, (c, code, count) ∈ longCommands last → AwaitsLast s code count → c ≠ .eventAck last →
      (BusyDevice s → exec c s = .next (answeredArgs s.framer code last [0x01] s)) ∧
      (RawDevice s → c ≠ .configWrite last → c ≠ .format last →
        exec c s = .next (answeredArgs s.framer code last [0x02] s)))

/-! ### Events and lines -/

/-- The bit of a kind's class in a class set (Tables 11-1 and 12-2). -/
def Sys2Proof.Claims.classBit : EventKind → Nat
  | .guardedRead | .guardedWrite | .unbackedRead | .unbackedWrite | .rawWrite => 0
  | .groupFull | .poolEmpty | .deadlineAbort | .abortDone => 1
  | .commitDone | .commitRefused => 2
  | .mountReady | .mountBlank | .mountFault | .formatDone => 3
  | .halt => 4

/-- After R151, R152 and R156: a posting sets its class latch and no other but OVERRUN, queues the record if the class
is enabled and there is room, sets OVERRUN when there is none; FAULT# follows the latches and the enable set. -/
def Obligations.PostingSetsLatchesQueuesAndDrivesFault : Prop :=
  ∀ (kind : EventKind) (a : Option Addr) (page : Option Nat) (detail : Option Byte) (s : State),
    let t := post kind a page detail s
    let enabled := s.config.enable.getLsbD (classBit kind)
    let record : EventRecord :=
      { kind := kind, stamp := s.events.tick, generation := s.xlate.generation.setWidth 16, address := a, page := page,
        detail := detail }
    t = { s with events := t.events } ∧ t.events.tick = s.events.tick ∧ t.events.period = s.events.period ∧
    (∀ i, i < 6 → t.events.latches.getLsbD i =
      (s.events.latches.getLsbD i || decide (i = classBit kind) ||
        (decide (i = 5) && enabled && decide (16 ≤ s.events.queue.length)))) ∧
    t.events.queue =
      (if enabled = true ∧ s.events.queue.length < 16 then s.events.queue ++ [record] else s.events.queue) ∧
    (s.faultLine = true ↔ ∃ i, i < 6 ∧ s.events.latches.getLsbD i = true ∧ s.config.enable.getLsbD i = true)

/-- After R14, R97, R116, R122 and R137: READY, HRST#, HWAIT#, SDO, and the memory side's lines. That HWAIT# is asserted in RESET_HELD too, for an access whose
word access is granted, until that word completes, is read from the manual (log entry 7): R2 and Table 9-4 have it
deasserted there. -/
def Obligations.OutputLinesFollowTheState : Prop :=
  ∀ s : State,
    (s.readyPin = true ↔ s.mount.device = .ready ∨ s.mount.device = .unformatted) ∧
    (s.hrstLine = true ↔ s.guards.pulse ≠ none) ∧ (s.hwaitLine = true ↔ s.host.access ≠ none) ∧
    (s.framer.state = .outside → s.sdo = none) ∧
    (s.framer.state = .command ∨ s.framer.state = .arguments ∨ s.framer.state = .spent → s.sdo = some 0xFF) ∧
    (∀ b, s.framer.state = .response → s.framer.response[s.framer.next]? = some b → s.sdo = some b) ∧
    (s.port.flight = none → s.mceLine = false ∧ s.moeLine = false ∧ s.mweLine = false ∧
      s.memoryLanes = { low := false, high := false } ∧ s.mdDrive = none) ∧
    ∀ f, s.port.flight = some f → s.mceLine = true ∧ s.memoryLanes = f.request.lanes ∧
      (f.request.kind = .read → s.moeLine = true ∧ s.mweLine = false ∧ s.mdDrive = none) ∧
      (f.request.kind = .write → s.moeLine = false ∧ s.mweLine = true ∧ s.mdDrive = f.request.data)

/-- After R124: the four rows of the grant decision. -/
def Obligations.GrantDecision : Prop :=
  ∀ s : State,
    let granted (r : Request) (who : Requester) : Port :=
      { s.port with flight := some { request := r, requester := who, live := true }, ma := r.address }
    (s.port.flight ≠ none → arbitrate s = s) ∧
    (s.port.flight = none →
      (s.port.hostReq = none → s.port.engineReq = none → arbitrate s = s) ∧
      (∀ h, s.port.hostReq = some h → s.port.engineReq = none →
        arbitrate s = { s with port := { granted h .host with hostReq := none } }) ∧
      (∀ e, s.port.hostReq = none → s.port.engineReq = some e →
        arbitrate s = { s with port := { granted e .engine with engineReq := none, passCount := 0 } }) ∧
      (∀ h e, s.port.hostReq = some h → s.port.engineReq = some e →
        (s.port.passCount < s.config.stealShare →
          arbitrate s =
            { s with port := { granted h .host with hostReq := none, passCount := s.port.passCount + 1 } }) ∧
        (s.config.stealShare ≤ s.port.passCount →
          arbitrate s = { s with port := { granted e .engine with engineReq := none, passCount := 0 } })))

/-! ### Classification, pairs and the mount decision -/

/-- R8: the classification order in READY. -/
def Obligations.ClassificationOrderInReady : Prop :=
  ∀ (s : State) (g : Geometry) (page : Nat) (kind : AccessKind), Mounted s g →
    (g.d + g.p ≤ page → classify s page kind = .unbacked) ∧
    (page < g.d + g.p →
      (Covered s.guards.current .all page → classify s page kind = .guarded) ∧
      (¬ Covered s.guards.current .all page →
        (Covered s.guards.current .write page → kind = .write → classify s page kind = .guarded) ∧
        (¬ (Covered s.guards.current .write page ∧ kind = .write) →
          (page < g.d → classify s page kind = .direct) ∧ (g.d ≤ page → classify s page kind = .atomic))))

/-- R113: the effective mode of a page. -/
def Obligations.EffectiveModeIsTheStrongestThatCovers : Prop :=
  ∀ (table : List Guard) (page : Nat),
    (Covered table .all page → effectiveMode table page = .all) ∧
    (¬ Covered table .all page → Covered table .write page → effectiveMode table page = .write) ∧
    (¬ Covered table .all page → ¬ Covered table .write page → effectiveMode table page = .off) ∧
    ∀ table', table.Perm table' → effectiveMode table' page = effectiveMode table page

/-- R88: two valid verdicts form a pair when the geometries are equal and the generations adjacent modulo 2^32. -/
abbrev Sys2Proof.Claims.Newer (x y : Image) : Prop :=
  x.geometry = y.geometry ∧ x.generation.toNat = (y.generation.toNat + 1) % 4294967296

/-- R99, with the pairs of R88: Table 6-2. -/
def Obligations.MountDecisionTable : Prop :=
  mountDecision .blank .blank = .unformatted ∧
  (∀ x, mountDecision (.valid x) .blank = .ready .a x ∧ mountDecision (.valid x) .invalid = .ready .a x ∧
    mountDecision .blank (.valid x) = .ready .b x ∧ mountDecision .invalid (.valid x) = .ready .b x) ∧
  (∀ x y,
    (Newer x y → mountDecision (.valid x) (.valid y) = .ready .a x) ∧
    (Newer y x → mountDecision (.valid x) (.valid y) = .ready .b y) ∧
    (¬ Newer x y → ¬ Newer y x → mountDecision (.valid x) (.valid y) = .faulted .mismatch)) ∧
  mountDecision .invalid .blank = .faulted .noValid ∧ mountDecision .blank .invalid = .faulted .noValid ∧
  mountDecision .invalid .invalid = .faulted .noValid

/-! ### What every step keeps -/

/-- Frames that a volume can map: as many as P, distinct, all of the pool (R85, conditions 4, 6 and 7). -/
def Sys2Proof.Claims.MapOk (g : Geometry) (map : List Nat) : Prop :=
  GeometryOk g ∧ map.length = g.p ∧ map.Nodup ∧ ∀ f ∈ map, f ∈ poolList g

/-- R31: in READY the free list, the map cache and the shadow frames of the group are together the pool's frames, each
once. With it, what makes it last: the group's entries are of distinct pages of the atomic window, each superseding
that page's committed frame. -/
def Sys2Proof.Claims.Partition (s : State) : Prop :=
  s.mount.device = .ready → ∃ g, s.xlate.geometry = some g ∧ GeometryOk g ∧ s.xlate.map.length = g.p ∧
    (s.pool ++ s.xlate.map ++ s.group.table.map Entry.shadow).Perm (poolList g) ∧
    (s.group.table.map Entry.page).Nodup ∧
    (∀ e ∈ s.group.table, g.d ≤ e.page ∧ e.page < g.d + g.p ∧ e.superseded = committed g s e.page) ∧
    ∀ a, s.host.access = some a →
      (s.host.hold = .lineFill → a.cls = .atomic) ∧
      (a.cls = .atomic → g.d ≤ pageNo a.address ∧ pageNo a.address < g.d + g.p)

/-- What a mount has judged valid, and what a format was accepted with, can be loaded (R84, R104). -/
def Sys2Proof.Claims.Loadable (s : State) : Prop :=
  (∀ slot im words acc, s.mount.run = .reading slot (some (.valid im)) words acc → MapOk im.geometry im.entries) ∧
  ∀ f, s.mount.format = some f → GeometryOk f.geometry

/-- Outside READY there is no volume: the Translation Table, the free list, the commit, the guard tables and the group
are cleared (R23, R27, R32, R57, R58, R111, R112); only a line fill may run on, with nothing to release (R42). -/
def Sys2Proof.Claims.ClearedOutsideReady (s : State) : Prop :=
  s.mount.device ≠ .ready →
    s.xlate = clearedTable ∧ s.pool = [] ∧ s.commit = { latch := false, record := none } ∧
    s.guards.current = [] ∧ s.guards.staged = none ∧
    ∃ running, s.group = idleGroup running ∧ ∀ f, running = some f → f.mergeWanted = false ∧ f.entry = none

/-- The arbiter leaves no request waiting at an idle port, the engine asks for no word while one of its words is in
flight, and the counts stay in their ranges (R33, R122, R123, R124, R145, R152). -/
def Sys2Proof.Claims.InRange (s : State) : Prop :=
  PortSettled s ∧ (engineFlies s = true → s.port.engineReq = none) ∧ s.port.passCount ≤ 8 ∧ 1 ≤ s.config.stealShare ∧ s.config.stealShare ≤ 8 ∧
    s.events.queue.length ≤ 16 ∧ s.group.table.length ≤ 32

/-- In RESET_HELD every volatile item is at its reset value, the hold reason is none and HD drives at most a NOT_READY
read's word (R2, Table 9-4); the reset origin is held exactly there (R128). That an access whose word access is granted
stays in service there until its completion is read from the manual (log entry 7). -/
def Sys2Proof.Claims.ResetHeldValues (s : State) : Prop :=
  (s.supply.powered = true → (s.supply.origin ≠ none ↔ s.mount.device = .resetHeld)) ∧
  (s.mount.device = .resetHeld →
    s.mount = { device := .resetHeld, reason := none, cause := none, run := .idle, format := none } ∧
    s.xlate = clearedTable ∧ s.pool = [] ∧ s.group = idleGroup none ∧
    s.commit = { latch := false, record := none } ∧
    s.guards = { current := [], staged := none, pulse := none } ∧
    s.port.hostReq = none ∧ s.port.engineReq = none ∧ s.port.passCount = 0 ∧
    s.config = { deadline := 0, divider := 31, stealShare := 4, guardAction := .event, enable := 0x3B } ∧
    s.events = { tick := 0, period := none, latches := 0, queue := [] } ∧ s.framer.state = .outside ∧
    (s.host.access ≠ none → isGranted s = true) ∧ s.host.hold = .none ∧
    ∀ d, s.host.hd = some d → d.notReady = true)

/-- Every step keeps memory in its canonical form (log entry 1). -/
def Obligations.MemoryFormIsKept : Prop :=
  ∀ s t : State, s.mem.wf = true → step s = .next t → t.mem.wf = true

/-- After R23, R27, R32, R57, R58, R111 and R112: every step keeps the volume cleared outside READY. -/
def Obligations.VolumeIsClearedOutsideReady : Prop :=
  ∀ s t : State, ClearedOutsideReady s → step s = .next t → ClearedOutsideReady t

/-- After R31: every step keeps the pool partition. -/
def Obligations.PoolPartitionIsKept : Prop :=
  ∀ s t : State, Partition s ∧ Loadable s → step s = .next t → Partition t ∧ Loadable t

/-- After R33, R122, R123, R124, R145 and R152: every step keeps the port settled, one engine word at a time, and the
counts in range. -/
def Obligations.CountsStayInRange : Prop :=
  ∀ s t : State, InRange s → step s = .next t → InRange t

/-- After R2, R128, R133 and Table 9-4: every step keeps the reset values in RESET_HELD, with a granted access still in
service (log entry 7). -/
def Obligations.ResetHeldKeepsTheResetValues : Prop :=
  ∀ s t : State, ResetHeldValues s → step s = .next t → ResetHeldValues t

/-- The state after reset meets the invariants (memory lists nothing there: log entry 1). -/
def Obligations.ResetMeetsTheInvariants : Prop :=
  let s := State.reset
  s.mem.wf = true ∧ ClearedOutsideReady s ∧ Partition s ∧ Loadable s ∧ InRange s ∧ ResetHeldValues s

/-- After R95: a command changes the device state only as one row of its table gives. -/
def Obligations.DeviceStateChangesOnlyAsTheTableGives : Prop :=
  ∀ (c : Instr) (s t : State), exec c s = .next t → t.mount.device ≠ s.mount.device →
    (((∃ pfail rst scs, c = .powerOn pfail rst scs) ∨ c = .supplyFailure ∨ c = .rstAssert) ∧
      t.mount.device = .resetHeld) ∨
    (s.mount.device = .resetHeld ∧ (c = .endOfPowerOn ∨ c = .rstRelease) ∧
      t.mount.device = if s.supply.pfail then .halted else .mounting) ∨
    (c = .pfailAssert ∧ s.mount.device ≠ .resetHeld ∧ t.mount.device = .halted) ∨
    (c = .pfailRelease ∧ s.mount.device = .halted ∧ t.mount.device = .mounting) ∨
    (c = .memoryWordAccessComplete ∧
      ((s.mount.device = .mounting ∧
          (t.mount.device = .ready ∨ t.mount.device = .unformatted ∨ t.mount.device = .faulted)) ∨
        (s.mount.device = .formatting ∧ t.mount.device = .ready))) ∨
    ((s.mount.device = .ready ∨ RawDevice s) ∧
      ((((∃ last, c = .format last) ∨ ((∃ b, c = .byteArrives b) ∧ s.framer.code = some 0x40)) ∧
          t.mount.device = .formatting) ∨
        ((c = .remount ∨ c = .byteArrives 0x41) ∧ t.mount.device = .mounting)))

/-- After R122, R127 and R136: a byte of memory changes only where a write in flight has its lane enabled, when that
write completes or the supply fails under it (log entry 4); a write that completes writes its data there. -/
def Obligations.MemoryChangesOnlyWhereAWordCompletes : Prop :=
  (∀ (c : Instr) (s t : State) (k : Nat), exec c s = .next t → readByte t.mem k ≠ readByte s.mem k →
    (∃ f, s.port.flight = some f ∧ WritesByte f.request k) ∧
      (c = .memoryWordAccessComplete ∨ c = .supplyFailure ∨ ∃ pfail rst scs, c = .powerOn pfail rst scs)) ∧
  ∀ (s : State) (f : Flight) (w : Word16), Powered s → s.mem.wf = true → s.port.flight = some f →
    f.request.kind = .write → f.request.data = some w → ∃ t, exec .memoryWordAccessComplete s = .next t ∧
      (f.request.lanes.low = true → readByte t.mem (2 * f.request.address.toNat) = w.setWidth 8) ∧
      (f.request.lanes.high = true → readByte t.mem (2 * f.request.address.toNat + 1) = (w >>> 8).setWidth 8)

/-! ### Images -/

/-- The words of a marked slot that holds an image: the mark, then words 1 to 27 + P, the check code taken over the
covered words in ascending order (R80 to R83). -/
def Sys2Proof.Claims.slotWords (b : ImageBody) : List Word16 :=
  let acc := (List.range' 1 25 ++ List.range' 28 b.geometry.p).foldl (fun acc n => crcWord acc (b.word acc n)) 0xFFFFFFFF
  0x4D4A :: (List.range' 1 (27 + b.geometry.p)).map (b.word acc)

/-- The check accumulator of a mount that has read these words of a slot (R83, R84). -/
def Sys2Proof.Claims.readAccumulator (words : List Word16) : BitVec 32 :=
  words.zipIdx.foldl (fun acc p => accumulated acc p.2 p.1) 0xFFFFFFFF

/-- One byte taken into the check accumulator (R83). -/
def Sys2Proof.Claims.checkByte (acc : BitVec 32) (b : Byte) : BitVec 32 :=
  (List.range 8).foldl
    (fun a _ => if a.toNat % 2 = 1 then (a >>> 1) ^^^ 0xEDB88320#32 else a >>> 1) (acc ^^^ b.setWidth 32)

/-- The code of a guard mode (R158). -/
def Sys2Proof.Claims.modeNumber : GuardMode → Nat
  | .off => 0
  | .write => 1
  | .all => 2

/-- Word n of the words read, as a number. -/
def Sys2Proof.Claims.readNumber (words : List Word16) (n : Nat) : Nat := ((words[n]?).getD 0).toNat

/-- The two words of a well-formed guard entry (R82, R158): mode in bits 15 and 14, first and last page in bits 11 to 0,
the other bits zero. -/
def Sys2Proof.Claims.GuardWords (e : Guard) (w0 w1 : Nat) : Prop :=
  w0 = modeNumber e.mode * 16384 + e.first ∧ w1 = e.last ∧ e.first ≤ e.last ∧ e.last ≤ 4095

/-- The eight conditions of R85 on the words of a marked slot, and the verdict's contents (R84), for the final value of
the check accumulator. -/
def Sys2Proof.Claims.ImageHeld (words : List Word16) (acc : BitVec 32) (im : Image) : Prop :=
  readNumber words 1 = 0x5633 ∧ readNumber words 2 = 0x0001 ∧
  im.geometry = { sizeCode := readNumber words 3, d := readNumber words 4, p := readNumber words 5 } ∧
  GeometryOk im.geometry ∧
  readNumber words 26 + 65536 * readNumber words 27 = (~~~acc).toNat ∧
  im.entries = (words.drop 28).map BitVec.toNat ∧ (∀ f ∈ im.entries, f ∈ poolList im.geometry) ∧ im.entries.Nodup ∧
  im.generation.toNat = readNumber words 6 + 65536 * readNumber words 7 ∧
  im.guards.length = 8 ∧
  ∀ k e, im.guards[k]? = some e → GuardWords e (readNumber words (8 + 2 * k)) (readNumber words (9 + 2 * k))

/-- After R81 to R86 and R158: the words of an image as Table 12-1 lays them out, the check code's step, the judgment of
the words of a slot (blank by word 0 alone, valid exactly when the conditions of R85 hold, else invalid), and that what
a commit or a format writes a mount reads whole and judges valid, with what was written. -/
def Obligations.SlotsAreLaidOutAndJudged : Prop :=
  (∀ (b : ImageBody) (acc : BitVec 32),
    b.word acc 1 = 0x5633 ∧ b.word acc 2 = 0x0001 ∧ b.word acc 3 = BitVec.ofNat 16 b.geometry.sizeCode ∧
    b.word acc 4 = BitVec.ofNat 16 b.geometry.d ∧ b.word acc 5 = BitVec.ofNat 16 b.geometry.p ∧
    b.word acc 6 = b.generation.setWidth 16 ∧ b.word acc 7 = (b.generation >>> 16).setWidth 16 ∧
    (∀ k e, k < 8 → b.guards[k]? = some e → e.first ≤ e.last → e.last ≤ 4095 →
      GuardWords e (b.word acc (8 + 2 * k)).toNat (b.word acc (9 + 2 * k)).toNat) ∧
    b.word acc 24 = b.stamp ∧ b.word acc 25 = BitVec.ofNat 16 b.pageCount ∧
    b.word acc 26 = (~~~acc).setWidth 16 ∧ b.word acc 27 = ((~~~acc) >>> 16).setWidth 16 ∧
    ∀ i f, b.entries[i]? = some f → b.word acc (28 + i) = BitVec.ofNat 16 f) ∧
  (∀ (acc : BitVec 32) (w : Word16),
    crcWord acc w = checkByte (checkByte acc (w.setWidth 8)) ((w >>> 8).setWidth 8)) ∧
  (∀ (words : List Word16) (acc : BitVec 32), SlotRead words →
    (judge words acc = .blank ↔ words[0]? ≠ some 0x4D4A) ∧
    (∀ im, judge words acc = .valid im ↔ words[0]? = some 0x4D4A ∧ ImageHeld words acc im) ∧
    (judge words acc = .invalid ↔ words[0]? = some 0x4D4A ∧ ∀ im, ¬ ImageHeld words acc im)) ∧
  ∀ b : ImageBody, MapOk b.geometry b.entries → b.guards.length = 8 →
    (∀ e ∈ b.guards, e.first ≤ e.last ∧ e.last ≤ 4095) →
    SlotRead (slotWords b) ∧
    judge (slotWords b) (readAccumulator (slotWords b)) =
      .valid { geometry := b.geometry, generation := b.generation, guards := b.guards, entries := b.entries }
end

