-- ==== Sys2Proof/Laws/State.lean ====
section
/-! SUPPORT. The frame of every plain update of the state: one lemma per update, one equation per field it leaves
alone, each true by unfolding. -/

namespace Sys2Proof.Machine

/-- `post` changes events and nothing else. -/
@[simp] theorem post_frame (kind : EventKind) (address : Option Addr) (page : Option Nat) (detail : Option Byte) (s : State) :
      (post kind address page detail s).supply = s.supply ∧
      (post kind address page detail s).mount = s.mount ∧
      (post kind address page detail s).host = s.host ∧
      (post kind address page detail s).xlate = s.xlate ∧
      (post kind address page detail s).pool = s.pool ∧
      (post kind address page detail s).group = s.group ∧
      (post kind address page detail s).commit = s.commit ∧
      (post kind address page detail s).guards = s.guards ∧
      (post kind address page detail s).port = s.port ∧
      (post kind address page detail s).config = s.config ∧
      (post kind address page detail s).framer = s.framer ∧
      (post kind address page detail s).mem = s.mem ∧
      (post kind address page detail s).freeNext = s.freeNext ∧
      (post kind address page detail s).pending = s.pending := by
  refine ⟨rfl, rfl, rfl, rfl, rfl, rfl, rfl, rfl, rfl, rfl, rfl, rfl, rfl, rfl⟩

/-- `arbitrate` changes port and nothing else. -/
@[simp] theorem arbitrate_frame (s : State) :
      (arbitrate s).supply = s.supply ∧
      (arbitrate s).mount = s.mount ∧
      (arbitrate s).host = s.host ∧
      (arbitrate s).xlate = s.xlate ∧
      (arbitrate s).pool = s.pool ∧
      (arbitrate s).group = s.group ∧
      (arbitrate s).commit = s.commit ∧
      (arbitrate s).guards = s.guards ∧
      (arbitrate s).config = s.config ∧
      (arbitrate s).framer = s.framer ∧
      (arbitrate s).events = s.events ∧
      (arbitrate s).mem = s.mem ∧
      (arbitrate s).freeNext = s.freeNext ∧
      (arbitrate s).pending = s.pending := by
  refine ⟨rfl, rfl, rfl, rfl, rfl, rfl, rfl, rfl, rfl, rfl, rfl, rfl, rfl, rfl⟩

/-- `requestEngine` changes port and nothing else. -/
@[simp] theorem requestEngine_frame (kind : AccessKind) (address : Addr) (data : Option Word16) (s : State) :
      (requestEngine kind address data s).supply = s.supply ∧
      (requestEngine kind address data s).mount = s.mount ∧
      (requestEngine kind address data s).host = s.host ∧
      (requestEngine kind address data s).xlate = s.xlate ∧
      (requestEngine kind address data s).pool = s.pool ∧
      (requestEngine kind address data s).group = s.group ∧
      (requestEngine kind address data s).commit = s.commit ∧
      (requestEngine kind address data s).guards = s.guards ∧
      (requestEngine kind address data s).config = s.config ∧
      (requestEngine kind address data s).framer = s.framer ∧
      (requestEngine kind address data s).events = s.events ∧
      (requestEngine kind address data s).mem = s.mem ∧
      (requestEngine kind address data s).freeNext = s.freeNext ∧
      (requestEngine kind address data s).pending = s.pending := by
  refine ⟨rfl, rfl, rfl, rfl, rfl, rfl, rfl, rfl, rfl, rfl, rfl, rfl, rfl, rfl⟩

/-- `withdrawEngine` changes port and nothing else. -/
@[simp] theorem withdrawEngine_frame (s : State) :
      (withdrawEngine s).supply = s.supply ∧
      (withdrawEngine s).mount = s.mount ∧
      (withdrawEngine s).host = s.host ∧
      (withdrawEngine s).xlate = s.xlate ∧
      (withdrawEngine s).pool = s.pool ∧
      (withdrawEngine s).group = s.group ∧
      (withdrawEngine s).commit = s.commit ∧
      (withdrawEngine s).guards = s.guards ∧
      (withdrawEngine s).config = s.config ∧
      (withdrawEngine s).framer = s.framer ∧
      (withdrawEngine s).events = s.events ∧
      (withdrawEngine s).mem = s.mem ∧
      (withdrawEngine s).freeNext = s.freeNext ∧
      (withdrawEngine s).pending = s.pending := by
  refine ⟨rfl, rfl, rfl, rfl, rfl, rfl, rfl, rfl, rfl, rfl, rfl, rfl, rfl, rfl⟩

/-- `withdrawHost` changes port and nothing else. -/
@[simp] theorem withdrawHost_frame (s : State) :
      (withdrawHost s).supply = s.supply ∧
      (withdrawHost s).mount = s.mount ∧
      (withdrawHost s).host = s.host ∧
      (withdrawHost s).xlate = s.xlate ∧
      (withdrawHost s).pool = s.pool ∧
      (withdrawHost s).group = s.group ∧
      (withdrawHost s).commit = s.commit ∧
      (withdrawHost s).guards = s.guards ∧
      (withdrawHost s).config = s.config ∧
      (withdrawHost s).framer = s.framer ∧
      (withdrawHost s).events = s.events ∧
      (withdrawHost s).mem = s.mem ∧
      (withdrawHost s).freeNext = s.freeNext ∧
      (withdrawHost s).pending = s.pending := by
  refine ⟨rfl, rfl, rfl, rfl, rfl, rfl, rfl, rfl, rfl, rfl, rfl, rfl, rfl, rfl⟩

/-- `requestHost` changes host, port and nothing else. -/
@[simp] theorem requestHost_frame (frame : Nat) (a : Access) (s : State) :
      (requestHost frame a s).supply = s.supply ∧
      (requestHost frame a s).mount = s.mount ∧
      (requestHost frame a s).xlate = s.xlate ∧
      (requestHost frame a s).pool = s.pool ∧
      (requestHost frame a s).group = s.group ∧
      (requestHost frame a s).commit = s.commit ∧
      (requestHost frame a s).guards = s.guards ∧
      (requestHost frame a s).config = s.config ∧
      (requestHost frame a s).framer = s.framer ∧
      (requestHost frame a s).events = s.events ∧
      (requestHost frame a s).mem = s.mem ∧
      (requestHost frame a s).freeNext = s.freeNext ∧
      (requestHost frame a s).pending = s.pending := by
  refine ⟨rfl, rfl, rfl, rfl, rfl, rfl, rfl, rfl, rfl, rfl, rfl, rfl, rfl⟩

/-- `holdAccess` changes host and nothing else. -/
@[simp] theorem holdAccess_frame (why : HoldReason) (a : Access) (s : State) :
      (holdAccess why a s).supply = s.supply ∧
      (holdAccess why a s).mount = s.mount ∧
      (holdAccess why a s).xlate = s.xlate ∧
      (holdAccess why a s).pool = s.pool ∧
      (holdAccess why a s).group = s.group ∧
      (holdAccess why a s).commit = s.commit ∧
      (holdAccess why a s).guards = s.guards ∧
      (holdAccess why a s).port = s.port ∧
      (holdAccess why a s).config = s.config ∧
      (holdAccess why a s).framer = s.framer ∧
      (holdAccess why a s).events = s.events ∧
      (holdAccess why a s).mem = s.mem ∧
      (holdAccess why a s).freeNext = s.freeNext ∧
      (holdAccess why a s).pending = s.pending := by
  refine ⟨rfl, rfl, rfl, rfl, rfl, rfl, rfl, rfl, rfl, rfl, rfl, rfl, rfl, rfl⟩

/-- `endService` changes host and nothing else. -/
@[simp] theorem endService_frame (s : State) :
      (endService s).supply = s.supply ∧
      (endService s).mount = s.mount ∧
      (endService s).xlate = s.xlate ∧
      (endService s).pool = s.pool ∧
      (endService s).group = s.group ∧
      (endService s).commit = s.commit ∧
      (endService s).guards = s.guards ∧
      (endService s).port = s.port ∧
      (endService s).config = s.config ∧
      (endService s).framer = s.framer ∧
      (endService s).events = s.events ∧
      (endService s).mem = s.mem ∧
      (endService s).freeNext = s.freeNext ∧
      (endService s).pending = s.pending := by
  refine ⟨rfl, rfl, rfl, rfl, rfl, rfl, rfl, rfl, rfl, rfl, rfl, rfl, rfl, rfl⟩

/-- `clearVolume` changes xlate, pool, commit, guards and nothing else. -/
@[simp] theorem clearVolume_frame (s : State) :
      (clearVolume s).supply = s.supply ∧
      (clearVolume s).mount = s.mount ∧
      (clearVolume s).host = s.host ∧
      (clearVolume s).group = s.group ∧
      (clearVolume s).port = s.port ∧
      (clearVolume s).config = s.config ∧
      (clearVolume s).framer = s.framer ∧
      (clearVolume s).events = s.events ∧
      (clearVolume s).mem = s.mem ∧
      (clearVolume s).freeNext = s.freeNext ∧
      (clearVolume s).pending = s.pending := by
  refine ⟨rfl, rfl, rfl, rfl, rfl, rfl, rfl, rfl, rfl, rfl, rfl⟩

/-- `startFill` changes group, port and nothing else. -/
@[simp] theorem startFill_frame (f : Fill) (s : State) :
      (startFill f s).supply = s.supply ∧
      (startFill f s).mount = s.mount ∧
      (startFill f s).host = s.host ∧
      (startFill f s).xlate = s.xlate ∧
      (startFill f s).pool = s.pool ∧
      (startFill f s).commit = s.commit ∧
      (startFill f s).guards = s.guards ∧
      (startFill f s).config = s.config ∧
      (startFill f s).framer = s.framer ∧
      (startFill f s).events = s.events ∧
      (startFill f s).mem = s.mem ∧
      (startFill f s).freeNext = s.freeNext ∧
      (startFill f s).pending = s.pending := by
  refine ⟨rfl, rfl, rfl, rfl, rfl, rfl, rfl, rfl, rfl, rfl, rfl, rfl, rfl⟩

/-- `openGroup` changes group and nothing else. -/
@[simp] theorem openGroup_frame (s : State) :
      (openGroup s).supply = s.supply ∧
      (openGroup s).mount = s.mount ∧
      (openGroup s).host = s.host ∧
      (openGroup s).xlate = s.xlate ∧
      (openGroup s).pool = s.pool ∧
      (openGroup s).commit = s.commit ∧
      (openGroup s).guards = s.guards ∧
      (openGroup s).port = s.port ∧
      (openGroup s).config = s.config ∧
      (openGroup s).framer = s.framer ∧
      (openGroup s).events = s.events ∧
      (openGroup s).mem = s.mem ∧
      (openGroup s).freeNext = s.freeNext ∧
      (openGroup s).pending = s.pending := by
  refine ⟨rfl, rfl, rfl, rfl, rfl, rfl, rfl, rfl, rfl, rfl, rfl, rfl, rfl, rfl⟩

/-- `withRecord` changes commit and nothing else. -/
@[simp] theorem withRecord_frame (r : CommitRecord) (s : State) :
      (withRecord r s).supply = s.supply ∧
      (withRecord r s).mount = s.mount ∧
      (withRecord r s).host = s.host ∧
      (withRecord r s).xlate = s.xlate ∧
      (withRecord r s).pool = s.pool ∧
      (withRecord r s).group = s.group ∧
      (withRecord r s).guards = s.guards ∧
      (withRecord r s).port = s.port ∧
      (withRecord r s).config = s.config ∧
      (withRecord r s).framer = s.framer ∧
      (withRecord r s).events = s.events ∧
      (withRecord r s).mem = s.mem ∧
      (withRecord r s).freeNext = s.freeNext ∧
      (withRecord r s).pending = s.pending := by
  refine ⟨rfl, rfl, rfl, rfl, rfl, rfl, rfl, rfl, rfl, rfl, rfl, rfl, rfl, rfl⟩

/-- `requestRetire` changes port and nothing else. -/
@[simp] theorem requestRetire_frame (r : CommitRecord) (s : State) :
      (requestRetire r s).supply = s.supply ∧
      (requestRetire r s).mount = s.mount ∧
      (requestRetire r s).host = s.host ∧
      (requestRetire r s).xlate = s.xlate ∧
      (requestRetire r s).pool = s.pool ∧
      (requestRetire r s).group = s.group ∧
      (requestRetire r s).commit = s.commit ∧
      (requestRetire r s).guards = s.guards ∧
      (requestRetire r s).config = s.config ∧
      (requestRetire r s).framer = s.framer ∧
      (requestRetire r s).events = s.events ∧
      (requestRetire r s).mem = s.mem ∧
      (requestRetire r s).freeNext = s.freeNext ∧
      (requestRetire r s).pending = s.pending := by
  refine ⟨rfl, rfl, rfl, rfl, rfl, rfl, rfl, rfl, rfl, rfl, rfl, rfl, rfl, rfl⟩

/-- `dissolveGroup` changes pool, group and nothing else. -/
@[simp] theorem dissolveGroup_frame (s : State) :
      (dissolveGroup s).supply = s.supply ∧
      (dissolveGroup s).mount = s.mount ∧
      (dissolveGroup s).host = s.host ∧
      (dissolveGroup s).xlate = s.xlate ∧
      (dissolveGroup s).commit = s.commit ∧
      (dissolveGroup s).guards = s.guards ∧
      (dissolveGroup s).port = s.port ∧
      (dissolveGroup s).config = s.config ∧
      (dissolveGroup s).framer = s.framer ∧
      (dissolveGroup s).events = s.events ∧
      (dissolveGroup s).mem = s.mem ∧
      (dissolveGroup s).freeNext = s.freeNext ∧
      (dissolveGroup s).pending = s.pending := by
  refine ⟨rfl, rfl, rfl, rfl, rfl, rfl, rfl, rfl, rfl, rfl, rfl, rfl, rfl⟩

/-- `postAbortDone` changes events and nothing else. -/
@[simp] theorem postAbortDone_frame (n : Nat) (s : State) :
      (postAbortDone n s).supply = s.supply ∧
      (postAbortDone n s).mount = s.mount ∧
      (postAbortDone n s).host = s.host ∧
      (postAbortDone n s).xlate = s.xlate ∧
      (postAbortDone n s).pool = s.pool ∧
      (postAbortDone n s).group = s.group ∧
      (postAbortDone n s).commit = s.commit ∧
      (postAbortDone n s).guards = s.guards ∧
      (postAbortDone n s).port = s.port ∧
      (postAbortDone n s).config = s.config ∧
      (postAbortDone n s).framer = s.framer ∧
      (postAbortDone n s).mem = s.mem ∧
      (postAbortDone n s).freeNext = s.freeNext ∧
      (postAbortDone n s).pending = s.pending := by
  refine ⟨rfl, rfl, rfl, rfl, rfl, rfl, rfl, rfl, rfl, rfl, rfl, rfl, rfl, rfl⟩

/-- `requestImageWord` changes commit, port and nothing else. -/
@[simp] theorem requestImageWord_frame (r : CommitRecord) (b : CommitBody) (n : Nat) (s : State) :
      (requestImageWord r b n s).supply = s.supply ∧
      (requestImageWord r b n s).mount = s.mount ∧
      (requestImageWord r b n s).host = s.host ∧
      (requestImageWord r b n s).xlate = s.xlate ∧
      (requestImageWord r b n s).pool = s.pool ∧
      (requestImageWord r b n s).group = s.group ∧
      (requestImageWord r b n s).guards = s.guards ∧
      (requestImageWord r b n s).config = s.config ∧
      (requestImageWord r b n s).framer = s.framer ∧
      (requestImageWord r b n s).events = s.events ∧
      (requestImageWord r b n s).mem = s.mem ∧
      (requestImageWord r b n s).freeNext = s.freeNext ∧
      (requestImageWord r b n s).pending = s.pending := by
  refine ⟨rfl, rfl, rfl, rfl, rfl, rfl, rfl, rfl, rfl, rfl, rfl, rfl, rfl⟩

/-- `startWrite` changes group, commit, port and nothing else. -/
@[simp] theorem startWrite_frame (r : CommitRecord) (s : State) :
      (startWrite r s).supply = s.supply ∧
      (startWrite r s).mount = s.mount ∧
      (startWrite r s).host = s.host ∧
      (startWrite r s).xlate = s.xlate ∧
      (startWrite r s).pool = s.pool ∧
      (startWrite r s).guards = s.guards ∧
      (startWrite r s).config = s.config ∧
      (startWrite r s).framer = s.framer ∧
      (startWrite r s).events = s.events ∧
      (startWrite r s).mem = s.mem ∧
      (startWrite r s).freeNext = s.freeNext ∧
      (startWrite r s).pending = s.pending := by
  refine ⟨rfl, rfl, rfl, rfl, rfl, rfl, rfl, rfl, rfl, rfl, rfl, rfl⟩

/-- `markDone` changes commit and nothing else. -/
@[simp] theorem markDone_frame (r : CommitRecord) (s : State) :
      (markDone r s).supply = s.supply ∧
      (markDone r s).mount = s.mount ∧
      (markDone r s).host = s.host ∧
      (markDone r s).xlate = s.xlate ∧
      (markDone r s).pool = s.pool ∧
      (markDone r s).group = s.group ∧
      (markDone r s).guards = s.guards ∧
      (markDone r s).port = s.port ∧
      (markDone r s).config = s.config ∧
      (markDone r s).framer = s.framer ∧
      (markDone r s).events = s.events ∧
      (markDone r s).mem = s.mem ∧
      (markDone r s).freeNext = s.freeNext ∧
      (markDone r s).pending = s.pending := by
  refine ⟨rfl, rfl, rfl, rfl, rfl, rfl, rfl, rfl, rfl, rfl, rfl, rfl, rfl, rfl⟩

/-- `readSlotWord` changes mount, port and nothing else. -/
@[simp] theorem readSlotWord_frame (slot : Slot) (verdictA : Option Verdict) (words : List Word16) (acc : BitVec 32) (s : State) :
      (readSlotWord slot verdictA words acc s).supply = s.supply ∧
      (readSlotWord slot verdictA words acc s).host = s.host ∧
      (readSlotWord slot verdictA words acc s).xlate = s.xlate ∧
      (readSlotWord slot verdictA words acc s).pool = s.pool ∧
      (readSlotWord slot verdictA words acc s).group = s.group ∧
      (readSlotWord slot verdictA words acc s).commit = s.commit ∧
      (readSlotWord slot verdictA words acc s).guards = s.guards ∧
      (readSlotWord slot verdictA words acc s).config = s.config ∧
      (readSlotWord slot verdictA words acc s).framer = s.framer ∧
      (readSlotWord slot verdictA words acc s).events = s.events ∧
      (readSlotWord slot verdictA words acc s).mem = s.mem ∧
      (readSlotWord slot verdictA words acc s).freeNext = s.freeNext ∧
      (readSlotWord slot verdictA words acc s).pending = s.pending := by
  refine ⟨rfl, rfl, rfl, rfl, rfl, rfl, rfl, rfl, rfl, rfl, rfl, rfl, rfl⟩

/-- `requestFormat` changes mount, port and nothing else. -/
@[simp] theorem requestFormat_frame (f : FormatRun) (at' : FormatStep) (s : State) :
      (requestFormat f at' s).supply = s.supply ∧
      (requestFormat f at' s).host = s.host ∧
      (requestFormat f at' s).xlate = s.xlate ∧
      (requestFormat f at' s).pool = s.pool ∧
      (requestFormat f at' s).group = s.group ∧
      (requestFormat f at' s).commit = s.commit ∧
      (requestFormat f at' s).guards = s.guards ∧
      (requestFormat f at' s).config = s.config ∧
      (requestFormat f at' s).framer = s.framer ∧
      (requestFormat f at' s).events = s.events ∧
      (requestFormat f at' s).mem = s.mem ∧
      (requestFormat f at' s).freeNext = s.freeNext ∧
      (requestFormat f at' s).pending = s.pending := by
  refine ⟨rfl, rfl, rfl, rfl, rfl, rfl, rfl, rfl, rfl, rfl, rfl, rfl, rfl⟩

/-- `setPfail` changes supply and nothing else. -/
@[simp] theorem setPfail_frame (level : Bool) (s : State) :
      (setPfail level s).mount = s.mount ∧
      (setPfail level s).host = s.host ∧
      (setPfail level s).xlate = s.xlate ∧
      (setPfail level s).pool = s.pool ∧
      (setPfail level s).group = s.group ∧
      (setPfail level s).commit = s.commit ∧
      (setPfail level s).guards = s.guards ∧
      (setPfail level s).port = s.port ∧
      (setPfail level s).config = s.config ∧
      (setPfail level s).framer = s.framer ∧
      (setPfail level s).events = s.events ∧
      (setPfail level s).mem = s.mem ∧
      (setPfail level s).freeNext = s.freeNext ∧
      (setPfail level s).pending = s.pending := by
  refine ⟨rfl, rfl, rfl, rfl, rfl, rfl, rfl, rfl, rfl, rfl, rfl, rfl, rfl, rfl⟩

/-- `endPulse` changes guards and nothing else. -/
@[simp] theorem endPulse_frame (s : State) :
      (endPulse s).supply = s.supply ∧
      (endPulse s).mount = s.mount ∧
      (endPulse s).host = s.host ∧
      (endPulse s).xlate = s.xlate ∧
      (endPulse s).pool = s.pool ∧
      (endPulse s).group = s.group ∧
      (endPulse s).commit = s.commit ∧
      (endPulse s).port = s.port ∧
      (endPulse s).config = s.config ∧
      (endPulse s).framer = s.framer ∧
      (endPulse s).events = s.events ∧
      (endPulse s).mem = s.mem ∧
      (endPulse s).freeNext = s.freeNext ∧
      (endPulse s).pending = s.pending := by
  refine ⟨rfl, rfl, rfl, rfl, rfl, rfl, rfl, rfl, rfl, rfl, rfl, rfl, rfl, rfl⟩

/-- `respond` changes framer and nothing else. -/
@[simp] theorem respond_frame (code : Byte) (args response : List Byte) (s : State) :
      (respond code args response s).supply = s.supply ∧
      (respond code args response s).mount = s.mount ∧
      (respond code args response s).host = s.host ∧
      (respond code args response s).xlate = s.xlate ∧
      (respond code args response s).pool = s.pool ∧
      (respond code args response s).group = s.group ∧
      (respond code args response s).commit = s.commit ∧
      (respond code args response s).guards = s.guards ∧
      (respond code args response s).port = s.port ∧
      (respond code args response s).config = s.config ∧
      (respond code args response s).events = s.events ∧
      (respond code args response s).mem = s.mem ∧
      (respond code args response s).freeNext = s.freeNext ∧
      (respond code args response s).pending = s.pending := by
  refine ⟨rfl, rfl, rfl, rfl, rfl, rfl, rfl, rfl, rfl, rfl, rfl, rfl, rfl, rfl⟩

/-- `endFrame` changes framer and nothing else. -/
@[simp] theorem endFrame_frame (s : State) :
      (endFrame s).supply = s.supply ∧
      (endFrame s).mount = s.mount ∧
      (endFrame s).host = s.host ∧
      (endFrame s).xlate = s.xlate ∧
      (endFrame s).pool = s.pool ∧
      (endFrame s).group = s.group ∧
      (endFrame s).commit = s.commit ∧
      (endFrame s).guards = s.guards ∧
      (endFrame s).port = s.port ∧
      (endFrame s).config = s.config ∧
      (endFrame s).events = s.events ∧
      (endFrame s).mem = s.mem ∧
      (endFrame s).freeNext = s.freeNext ∧
      (endFrame s).pending = s.pending := by
  refine ⟨rfl, rfl, rfl, rfl, rfl, rfl, rfl, rfl, rfl, rfl, rfl, rfl, rfl, rfl⟩

/-- `stageGuard` changes guards and nothing else. -/
@[simp] theorem stageGuard_frame (index : Nat) (g : Guard) (s : State) :
      (stageGuard index g s).supply = s.supply ∧
      (stageGuard index g s).mount = s.mount ∧
      (stageGuard index g s).host = s.host ∧
      (stageGuard index g s).xlate = s.xlate ∧
      (stageGuard index g s).pool = s.pool ∧
      (stageGuard index g s).group = s.group ∧
      (stageGuard index g s).commit = s.commit ∧
      (stageGuard index g s).port = s.port ∧
      (stageGuard index g s).config = s.config ∧
      (stageGuard index g s).framer = s.framer ∧
      (stageGuard index g s).events = s.events ∧
      (stageGuard index g s).mem = s.mem ∧
      (stageGuard index g s).freeNext = s.freeNext ∧
      (stageGuard index g s).pending = s.pending := by
  refine ⟨rfl, rfl, rfl, rfl, rfl, rfl, rfl, rfl, rfl, rfl, rfl, rfl, rfl, rfl⟩

end Sys2Proof.Machine
end

