-- ==== Sys2Proof/Laws/Frames.lean ====
section
/-! SUPPORT. The frame of every shared operation: which fields it leaves as they were, whatever the state. -/

namespace Sys2Proof.Machine

/-- `driveHd` changes at most: host. -/
@[simp] theorem driveHd_frame (w : Word16) (lanes : Lanes) (notReady : Bool) (s : State) :
      (driveHd w lanes notReady s).supply = s.supply ∧
      (driveHd w lanes notReady s).mount = s.mount ∧
      (driveHd w lanes notReady s).xlate = s.xlate ∧
      (driveHd w lanes notReady s).pool = s.pool ∧
      (driveHd w lanes notReady s).group = s.group ∧
      (driveHd w lanes notReady s).commit = s.commit ∧
      (driveHd w lanes notReady s).guards = s.guards ∧
      (driveHd w lanes notReady s).port = s.port ∧
      (driveHd w lanes notReady s).config = s.config ∧
      (driveHd w lanes notReady s).framer = s.framer ∧
      (driveHd w lanes notReady s).events = s.events ∧
      (driveHd w lanes notReady s).mem = s.mem ∧
      (driveHd w lanes notReady s).freeNext = s.freeNext ∧
      (driveHd w lanes notReady s).pending = s.pending := by
  simp only [driveHd]
  repeat' split
  all_goals simp

/-- `refuse` changes at most: host. -/
@[simp] theorem refuse_frame (a : Access) (notReady : Bool) (s : State) :
      (refuse a notReady s).supply = s.supply ∧
      (refuse a notReady s).mount = s.mount ∧
      (refuse a notReady s).xlate = s.xlate ∧
      (refuse a notReady s).pool = s.pool ∧
      (refuse a notReady s).group = s.group ∧
      (refuse a notReady s).commit = s.commit ∧
      (refuse a notReady s).guards = s.guards ∧
      (refuse a notReady s).port = s.port ∧
      (refuse a notReady s).config = s.config ∧
      (refuse a notReady s).framer = s.framer ∧
      (refuse a notReady s).events = s.events ∧
      (refuse a notReady s).mem = s.mem ∧
      (refuse a notReady s).freeNext = s.freeNext ∧
      (refuse a notReady s).pending = s.pending := by
  simp only [refuse]
  repeat' split
  all_goals simp

/-- `releaseAccess` changes at most: host, port. -/
@[simp] theorem releaseAccess_frame (s : State) :
      (releaseAccess s).supply = s.supply ∧
      (releaseAccess s).mount = s.mount ∧
      (releaseAccess s).xlate = s.xlate ∧
      (releaseAccess s).pool = s.pool ∧
      (releaseAccess s).group = s.group ∧
      (releaseAccess s).commit = s.commit ∧
      (releaseAccess s).guards = s.guards ∧
      (releaseAccess s).config = s.config ∧
      (releaseAccess s).framer = s.framer ∧
      (releaseAccess s).events = s.events ∧
      (releaseAccess s).mem = s.mem ∧
      (releaseAccess s).freeNext = s.freeNext ∧
      (releaseAccess s).pending = s.pending := by
  simp only [releaseAccess]
  repeat' split
  all_goals simp

/-- `orderFill` changes at most: group, port. -/
@[simp] theorem orderFill_frame (e : Entry) (line : Nat) (s : State) :
      (orderFill e line s).supply = s.supply ∧
      (orderFill e line s).mount = s.mount ∧
      (orderFill e line s).host = s.host ∧
      (orderFill e line s).xlate = s.xlate ∧
      (orderFill e line s).pool = s.pool ∧
      (orderFill e line s).commit = s.commit ∧
      (orderFill e line s).guards = s.guards ∧
      (orderFill e line s).config = s.config ∧
      (orderFill e line s).framer = s.framer ∧
      (orderFill e line s).events = s.events ∧
      (orderFill e line s).mem = s.mem ∧
      (orderFill e line s).freeNext = s.freeNext ∧
      (orderFill e line s).pending = s.pending := by
  simp only [orderFill]
  repeat' split
  all_goals simp

/-- `routeRead` changes at most: host, port. -/
@[simp] theorem routeRead_frame (a : Access) (s : State) :
      (routeRead a s).supply = s.supply ∧
      (routeRead a s).mount = s.mount ∧
      (routeRead a s).xlate = s.xlate ∧
      (routeRead a s).pool = s.pool ∧
      (routeRead a s).group = s.group ∧
      (routeRead a s).commit = s.commit ∧
      (routeRead a s).guards = s.guards ∧
      (routeRead a s).config = s.config ∧
      (routeRead a s).framer = s.framer ∧
      (routeRead a s).events = s.events ∧
      (routeRead a s).mem = s.mem ∧
      (routeRead a s).freeNext = s.freeNext ∧
      (routeRead a s).pending = s.pending := by
  simp [routeRead]

/-- `failGroup` changes at most: host, events, group. -/
@[simp] theorem failGroup_frame (kind : EventKind) (a : Access) (s : State) :
      (failGroup kind a s).supply = s.supply ∧
      (failGroup kind a s).mount = s.mount ∧
      (failGroup kind a s).xlate = s.xlate ∧
      (failGroup kind a s).pool = s.pool ∧
      (failGroup kind a s).commit = s.commit ∧
      (failGroup kind a s).guards = s.guards ∧
      (failGroup kind a s).port = s.port ∧
      (failGroup kind a s).config = s.config ∧
      (failGroup kind a s).framer = s.framer ∧
      (failGroup kind a s).mem = s.mem ∧
      (failGroup kind a s).freeNext = s.freeNext ∧
      (failGroup kind a s).pending = s.pending := by
  simp [failGroup]

/-- `newEntry` changes at most: pool, group, host, port, events. -/
@[simp] theorem newEntry_frame (a : Access) (s : State) :
      (newEntry a s).supply = s.supply ∧
      (newEntry a s).mount = s.mount ∧
      (newEntry a s).xlate = s.xlate ∧
      (newEntry a s).commit = s.commit ∧
      (newEntry a s).guards = s.guards ∧
      (newEntry a s).config = s.config ∧
      (newEntry a s).framer = s.framer ∧
      (newEntry a s).mem = s.mem ∧
      (newEntry a s).freeNext = s.freeNext ∧
      (newEntry a s).pending = s.pending := by
  simp only [newEntry]
  repeat' split
  all_goals simp

/-- `routeOpen` changes at most: pool, group, host, port, events. -/
@[simp] theorem routeOpen_frame (a : Access) (s : State) :
      (routeOpen a s).supply = s.supply ∧
      (routeOpen a s).mount = s.mount ∧
      (routeOpen a s).xlate = s.xlate ∧
      (routeOpen a s).commit = s.commit ∧
      (routeOpen a s).guards = s.guards ∧
      (routeOpen a s).config = s.config ∧
      (routeOpen a s).framer = s.framer ∧
      (routeOpen a s).mem = s.mem ∧
      (routeOpen a s).freeNext = s.freeNext ∧
      (routeOpen a s).pending = s.pending := by
  simp only [routeOpen]
  repeat' split
  all_goals simp

/-- `routeWrite` changes at most: pool, group, host, port, events. -/
@[simp] theorem routeWrite_frame (a : Access) (s : State) :
      (routeWrite a s).supply = s.supply ∧
      (routeWrite a s).mount = s.mount ∧
      (routeWrite a s).xlate = s.xlate ∧
      (routeWrite a s).commit = s.commit ∧
      (routeWrite a s).guards = s.guards ∧
      (routeWrite a s).config = s.config ∧
      (routeWrite a s).framer = s.framer ∧
      (routeWrite a s).mem = s.mem ∧
      (routeWrite a s).freeNext = s.freeNext ∧
      (routeWrite a s).pending = s.pending := by
  simp only [routeWrite]
  repeat' split
  all_goals simp

/-- `requestCopy` changes at most: commit, port. -/
@[simp] theorem requestCopy_frame (r : CommitRecord) (s : State) :
      (requestCopy r s).supply = s.supply ∧
      (requestCopy r s).mount = s.mount ∧
      (requestCopy r s).host = s.host ∧
      (requestCopy r s).xlate = s.xlate ∧
      (requestCopy r s).pool = s.pool ∧
      (requestCopy r s).group = s.group ∧
      (requestCopy r s).guards = s.guards ∧
      (requestCopy r s).config = s.config ∧
      (requestCopy r s).framer = s.framer ∧
      (requestCopy r s).events = s.events ∧
      (requestCopy r s).mem = s.mem ∧
      (requestCopy r s).freeNext = s.freeNext ∧
      (requestCopy r s).pending = s.pending := by
  simp only [requestCopy]
  repeat' split
  all_goals simp

/-- `engineNext` changes at most: group, commit, port. -/
@[simp] theorem engineNext_frame (s : State) :
      (engineNext s).supply = s.supply ∧
      (engineNext s).mount = s.mount ∧
      (engineNext s).host = s.host ∧
      (engineNext s).xlate = s.xlate ∧
      (engineNext s).pool = s.pool ∧
      (engineNext s).guards = s.guards ∧
      (engineNext s).config = s.config ∧
      (engineNext s).framer = s.framer ∧
      (engineNext s).events = s.events ∧
      (engineNext s).mem = s.mem ∧
      (engineNext s).freeNext = s.freeNext ∧
      (engineNext s).pending = s.pending := by
  simp only [engineNext]
  repeat' split
  all_goals simp

/-- `resumeEngine` changes at most: group, commit, port. -/
@[simp] theorem resumeEngine_frame (s : State) :
      (resumeEngine s).supply = s.supply ∧
      (resumeEngine s).mount = s.mount ∧
      (resumeEngine s).host = s.host ∧
      (resumeEngine s).xlate = s.xlate ∧
      (resumeEngine s).pool = s.pool ∧
      (resumeEngine s).guards = s.guards ∧
      (resumeEngine s).config = s.config ∧
      (resumeEngine s).framer = s.framer ∧
      (resumeEngine s).events = s.events ∧
      (resumeEngine s).mem = s.mem ∧
      (resumeEngine s).freeNext = s.freeNext ∧
      (resumeEngine s).pending = s.pending := by
  simp only [resumeEngine]
  repeat' split
  all_goals simp

/-- `releaseFill` changes at most: pool, group, host, port, events. -/
@[simp] theorem releaseFill_frame (f : Fill) (s : State) :
      (releaseFill f s).supply = s.supply ∧
      (releaseFill f s).mount = s.mount ∧
      (releaseFill f s).xlate = s.xlate ∧
      (releaseFill f s).commit = s.commit ∧
      (releaseFill f s).guards = s.guards ∧
      (releaseFill f s).config = s.config ∧
      (releaseFill f s).framer = s.framer ∧
      (releaseFill f s).mem = s.mem ∧
      (releaseFill f s).freeNext = s.freeNext ∧
      (releaseFill f s).pending = s.pending := by
  simp only [releaseFill]
  repeat' split
  all_goals simp

/-- `endFill` changes at most: pool, group, host, port, events, commit. -/
@[simp] theorem endFill_frame (f : Fill) (s : State) :
      (endFill f s).supply = s.supply ∧
      (endFill f s).mount = s.mount ∧
      (endFill f s).xlate = s.xlate ∧
      (endFill f s).guards = s.guards ∧
      (endFill f s).config = s.config ∧
      (endFill f s).framer = s.framer ∧
      (endFill f s).mem = s.mem ∧
      (endFill f s).freeNext = s.freeNext ∧
      (endFill f s).pending = s.pending := by
  simp only [endFill]
  repeat' split
  all_goals simp

/-- `fillStep` changes at most: pool, group, host, port, events, commit. -/
@[simp] theorem fillStep_frame (f : Fill) (w : Word16) (s : State) :
      (fillStep f w s).supply = s.supply ∧
      (fillStep f w s).mount = s.mount ∧
      (fillStep f w s).xlate = s.xlate ∧
      (fillStep f w s).guards = s.guards ∧
      (fillStep f w s).config = s.config ∧
      (fillStep f w s).framer = s.framer ∧
      (fillStep f w s).mem = s.mem ∧
      (fillStep f w s).freeNext = s.freeNext ∧
      (fillStep f w s).pending = s.pending := by
  simp only [fillStep]
  repeat' split
  all_goals simp

/-- `startPulse` changes at most: guards. -/
@[simp] theorem startPulse_frame (s : State) :
      (startPulse s).supply = s.supply ∧
      (startPulse s).mount = s.mount ∧
      (startPulse s).host = s.host ∧
      (startPulse s).xlate = s.xlate ∧
      (startPulse s).pool = s.pool ∧
      (startPulse s).group = s.group ∧
      (startPulse s).commit = s.commit ∧
      (startPulse s).port = s.port ∧
      (startPulse s).config = s.config ∧
      (startPulse s).framer = s.framer ∧
      (startPulse s).events = s.events ∧
      (startPulse s).mem = s.mem ∧
      (startPulse s).freeNext = s.freeNext ∧
      (startPulse s).pending = s.pending := by
  simp only [startPulse]
  repeat' split
  all_goals simp

/-- `hit` changes at most: host, events, guards. -/
@[simp] theorem hit_frame (onRead onWrite : EventKind) (a : Access) (s : State) :
      (hit onRead onWrite a s).supply = s.supply ∧
      (hit onRead onWrite a s).mount = s.mount ∧
      (hit onRead onWrite a s).xlate = s.xlate ∧
      (hit onRead onWrite a s).pool = s.pool ∧
      (hit onRead onWrite a s).group = s.group ∧
      (hit onRead onWrite a s).commit = s.commit ∧
      (hit onRead onWrite a s).port = s.port ∧
      (hit onRead onWrite a s).config = s.config ∧
      (hit onRead onWrite a s).framer = s.framer ∧
      (hit onRead onWrite a s).mem = s.mem ∧
      (hit onRead onWrite a s).freeNext = s.freeNext ∧
      (hit onRead onWrite a s).pending = s.pending := by
  simp only [hit]
  repeat' split
  all_goals simp

/-- `serveRaw` changes at most: host, events, port. -/
@[simp] theorem serveRaw_frame (a : Access) (s : State) :
      (serveRaw a s).supply = s.supply ∧
      (serveRaw a s).mount = s.mount ∧
      (serveRaw a s).xlate = s.xlate ∧
      (serveRaw a s).pool = s.pool ∧
      (serveRaw a s).group = s.group ∧
      (serveRaw a s).commit = s.commit ∧
      (serveRaw a s).guards = s.guards ∧
      (serveRaw a s).config = s.config ∧
      (serveRaw a s).framer = s.framer ∧
      (serveRaw a s).mem = s.mem ∧
      (serveRaw a s).freeNext = s.freeNext ∧
      (serveRaw a s).pending = s.pending := by
  simp only [serveRaw]
  repeat' split
  all_goals simp

/-- `serveAtomic` changes at most: pool, group, host, port, events. -/
@[simp] theorem serveAtomic_frame (a : Access) (s : State) :
      (serveAtomic a s).supply = s.supply ∧
      (serveAtomic a s).mount = s.mount ∧
      (serveAtomic a s).xlate = s.xlate ∧
      (serveAtomic a s).commit = s.commit ∧
      (serveAtomic a s).guards = s.guards ∧
      (serveAtomic a s).config = s.config ∧
      (serveAtomic a s).framer = s.framer ∧
      (serveAtomic a s).mem = s.mem ∧
      (serveAtomic a s).freeNext = s.freeNext ∧
      (serveAtomic a s).pending = s.pending := by
  simp only [serveAtomic]
  repeat' split
  all_goals simp

/-- `serveClass` changes at most: pool, group, host, port, events, guards. -/
@[simp] theorem serveClass_frame (a : Access) (s : State) :
      (serveClass a s).supply = s.supply ∧
      (serveClass a s).mount = s.mount ∧
      (serveClass a s).xlate = s.xlate ∧
      (serveClass a s).commit = s.commit ∧
      (serveClass a s).config = s.config ∧
      (serveClass a s).framer = s.framer ∧
      (serveClass a s).mem = s.mem ∧
      (serveClass a s).freeNext = s.freeNext ∧
      (serveClass a s).pending = s.pending := by
  simp only [serveClass]
  repeat' split
  all_goals simp

/-- `serveAccess` changes at most: pool, group, host, port, events, guards. -/
@[simp] theorem serveAccess_frame (a : Access) (s : State) :
      (serveAccess a s).supply = s.supply ∧
      (serveAccess a s).mount = s.mount ∧
      (serveAccess a s).xlate = s.xlate ∧
      (serveAccess a s).commit = s.commit ∧
      (serveAccess a s).config = s.config ∧
      (serveAccess a s).framer = s.framer ∧
      (serveAccess a s).mem = s.mem ∧
      (serveAccess a s).freeNext = s.freeNext ∧
      (serveAccess a s).pending = s.pending := by
  simp [serveAccess]

/-- `takeAccess` changes at most: pool, group, host, port, events, guards. -/
@[simp] theorem takeAccess_frame (address : Addr) (hoe hwe hlb hub : Bool) (hd : Word16) (s : State) :
      (takeAccess address hoe hwe hlb hub hd s).supply = s.supply ∧
      (takeAccess address hoe hwe hlb hub hd s).mount = s.mount ∧
      (takeAccess address hoe hwe hlb hub hd s).xlate = s.xlate ∧
      (takeAccess address hoe hwe hlb hub hd s).commit = s.commit ∧
      (takeAccess address hoe hwe hlb hub hd s).config = s.config ∧
      (takeAccess address hoe hwe hlb hub hd s).framer = s.framer ∧
      (takeAccess address hoe hwe hlb hub hd s).mem = s.mem ∧
      (takeAccess address hoe hwe hlb hub hd s).freeNext = s.freeNext ∧
      (takeAccess address hoe hwe hlb hub hd s).pending = s.pending := by
  simp only [takeAccess]
  repeat' split
  all_goals simp

/-- `giveUp` changes at most: group, port. -/
@[simp] theorem giveUp_frame (s : State) :
      (giveUp s).supply = s.supply ∧
      (giveUp s).mount = s.mount ∧
      (giveUp s).host = s.host ∧
      (giveUp s).xlate = s.xlate ∧
      (giveUp s).pool = s.pool ∧
      (giveUp s).commit = s.commit ∧
      (giveUp s).guards = s.guards ∧
      (giveUp s).config = s.config ∧
      (giveUp s).framer = s.framer ∧
      (giveUp s).events = s.events ∧
      (giveUp s).mem = s.mem ∧
      (giveUp s).freeNext = s.freeNext ∧
      (giveUp s).pending = s.pending := by
  simp only [giveUp]
  repeat' split
  all_goals simp

/-- `endCycle` changes at most: host, group, port. -/
@[simp] theorem endCycle_frame (s : State) :
      (endCycle s).supply = s.supply ∧
      (endCycle s).mount = s.mount ∧
      (endCycle s).xlate = s.xlate ∧
      (endCycle s).pool = s.pool ∧
      (endCycle s).commit = s.commit ∧
      (endCycle s).guards = s.guards ∧
      (endCycle s).config = s.config ∧
      (endCycle s).framer = s.framer ∧
      (endCycle s).events = s.events ∧
      (endCycle s).mem = s.mem ∧
      (endCycle s).freeNext = s.freeNext ∧
      (endCycle s).pending = s.pending := by
  simp only [endCycle]
  repeat' split
  all_goals simp

/-- `releaseData` changes at most: host. -/
@[simp] theorem releaseData_frame (s : State) :
      (releaseData s).supply = s.supply ∧
      (releaseData s).mount = s.mount ∧
      (releaseData s).xlate = s.xlate ∧
      (releaseData s).pool = s.pool ∧
      (releaseData s).group = s.group ∧
      (releaseData s).commit = s.commit ∧
      (releaseData s).guards = s.guards ∧
      (releaseData s).port = s.port ∧
      (releaseData s).config = s.config ∧
      (releaseData s).framer = s.framer ∧
      (releaseData s).events = s.events ∧
      (releaseData s).mem = s.mem ∧
      (releaseData s).freeNext = s.freeNext ∧
      (releaseData s).pending = s.pending := by
  simp only [releaseData]
  repeat' split
  all_goals simp

/-- `completeHost` changes at most: host. -/
@[simp] theorem completeHost_frame (w : Word16) (s : State) :
      (completeHost underReset w s).supply = s.supply ∧
      (completeHost underReset w s).mount = s.mount ∧
      (completeHost underReset w s).xlate = s.xlate ∧
      (completeHost underReset w s).pool = s.pool ∧
      (completeHost underReset w s).group = s.group ∧
      (completeHost underReset w s).commit = s.commit ∧
      (completeHost underReset w s).guards = s.guards ∧
      (completeHost underReset w s).port = s.port ∧
      (completeHost underReset w s).config = s.config ∧
      (completeHost underReset w s).framer = s.framer ∧
      (completeHost underReset w s).events = s.events ∧
      (completeHost underReset w s).mem = s.mem ∧
      (completeHost underReset w s).freeNext = s.freeNext ∧
      (completeHost underReset w s).pending = s.pending := by
  simp only [completeHost]
  repeat' split
  all_goals simp

/-- `reroute` changes at most: pool, group, host, port, events, guards. -/
@[simp] theorem reroute_frame (table : List Entry) (waited : Bool) (s : State) :
      (reroute table waited s).supply = s.supply ∧
      (reroute table waited s).mount = s.mount ∧
      (reroute table waited s).xlate = s.xlate ∧
      (reroute table waited s).commit = s.commit ∧
      (reroute table waited s).config = s.config ∧
      (reroute table waited s).framer = s.framer ∧
      (reroute table waited s).mem = s.mem ∧
      (reroute table waited s).freeNext = s.freeNext ∧
      (reroute table waited s).pending = s.pending := by
  simp only [reroute]
  repeat' split
  all_goals simp

/-- `cancelCommit` changes at most: commit, port. -/
@[simp] theorem cancelCommit_frame (s : State) :
      (cancelCommit s).supply = s.supply ∧
      (cancelCommit s).mount = s.mount ∧
      (cancelCommit s).host = s.host ∧
      (cancelCommit s).xlate = s.xlate ∧
      (cancelCommit s).pool = s.pool ∧
      (cancelCommit s).group = s.group ∧
      (cancelCommit s).guards = s.guards ∧
      (cancelCommit s).config = s.config ∧
      (cancelCommit s).framer = s.framer ∧
      (cancelCommit s).events = s.events ∧
      (cancelCommit s).mem = s.mem ∧
      (cancelCommit s).freeNext = s.freeNext ∧
      (cancelCommit s).pending = s.pending := by
  simp only [cancelCommit]
  repeat' split
  all_goals simp

/-- `expire` changes at most: pool, group, host, port, events, guards. -/
@[simp] theorem expire_frame (s : State) :
      (expire s).supply = s.supply ∧
      (expire s).mount = s.mount ∧
      (expire s).xlate = s.xlate ∧
      (expire s).commit = s.commit ∧
      (expire s).config = s.config ∧
      (expire s).framer = s.framer ∧
      (expire s).mem = s.mem ∧
      (expire s).freeNext = s.freeNext ∧
      (expire s).pending = s.pending := by
  simp only [expire, abortGroup]
  repeat' split
  all_goals simp

/-- `startCommit` changes at most: group, commit, port. -/
@[simp] theorem startCommit_frame (kind : CommitKind) (s : State) :
      (startCommit kind s).supply = s.supply ∧
      (startCommit kind s).mount = s.mount ∧
      (startCommit kind s).host = s.host ∧
      (startCommit kind s).xlate = s.xlate ∧
      (startCommit kind s).pool = s.pool ∧
      (startCommit kind s).guards = s.guards ∧
      (startCommit kind s).config = s.config ∧
      (startCommit kind s).framer = s.framer ∧
      (startCommit kind s).events = s.events ∧
      (startCommit kind s).mem = s.mem ∧
      (startCommit kind s).freeNext = s.freeNext ∧
      (startCommit kind s).pending = s.pending := by
  simp only [startCommit]
  repeat' split
  all_goals simp

/-- `answerLatch` changes at most: group, commit, port, events. -/
@[simp] theorem answerLatch_frame (s : State) :
      (answerLatch s).supply = s.supply ∧
      (answerLatch s).mount = s.mount ∧
      (answerLatch s).host = s.host ∧
      (answerLatch s).xlate = s.xlate ∧
      (answerLatch s).pool = s.pool ∧
      (answerLatch s).guards = s.guards ∧
      (answerLatch s).config = s.config ∧
      (answerLatch s).framer = s.framer ∧
      (answerLatch s).mem = s.mem ∧
      (answerLatch s).freeNext = s.freeNext ∧
      (answerLatch s).pending = s.pending := by
  simp only [answerLatch]
  repeat' split
  all_goals simp

/-- `takeCmt` changes at most: group, commit, port, events. -/
@[simp] theorem takeCmt_frame (s : State) :
      (takeCmt s).supply = s.supply ∧
      (takeCmt s).mount = s.mount ∧
      (takeCmt s).host = s.host ∧
      (takeCmt s).xlate = s.xlate ∧
      (takeCmt s).pool = s.pool ∧
      (takeCmt s).guards = s.guards ∧
      (takeCmt s).config = s.config ∧
      (takeCmt s).framer = s.framer ∧
      (takeCmt s).mem = s.mem ∧
      (takeCmt s).freeNext = s.freeNext ∧
      (takeCmt s).pending = s.pending := by
  simp only [takeCmt]
  repeat' split
  all_goals simp

/-- `endComplete` changes at most: group, port. -/
@[simp] theorem endComplete_frame (s : State) :
      (endComplete s).supply = s.supply ∧
      (endComplete s).mount = s.mount ∧
      (endComplete s).host = s.host ∧
      (endComplete s).xlate = s.xlate ∧
      (endComplete s).pool = s.pool ∧
      (endComplete s).commit = s.commit ∧
      (endComplete s).guards = s.guards ∧
      (endComplete s).config = s.config ∧
      (endComplete s).framer = s.framer ∧
      (endComplete s).events = s.events ∧
      (endComplete s).mem = s.mem ∧
      (endComplete s).freeNext = s.freeNext ∧
      (endComplete s).pending = s.pending := by
  simp only [endComplete]
  repeat' split
  all_goals simp

/-- `copyStep` changes at most: group, commit, port. -/
@[simp] theorem copyStep_frame (r : CommitRecord) (w : Word16) (s : State) :
      (copyStep r w s).supply = s.supply ∧
      (copyStep r w s).mount = s.mount ∧
      (copyStep r w s).host = s.host ∧
      (copyStep r w s).xlate = s.xlate ∧
      (copyStep r w s).pool = s.pool ∧
      (copyStep r w s).guards = s.guards ∧
      (copyStep r w s).config = s.config ∧
      (copyStep r w s).framer = s.framer ∧
      (copyStep r w s).events = s.events ∧
      (copyStep r w s).mem = s.mem ∧
      (copyStep r w s).freeNext = s.freeNext ∧
      (copyStep r w s).pending = s.pending := by
  simp only [copyStep]
  repeat' split
  all_goals simp

/-- `writeStep` changes at most: group, commit, port. -/
@[simp] theorem writeStep_frame (r : CommitRecord) (w : Word16) (s : State) :
      (writeStep r w s).supply = s.supply ∧
      (writeStep r w s).mount = s.mount ∧
      (writeStep r w s).host = s.host ∧
      (writeStep r w s).xlate = s.xlate ∧
      (writeStep r w s).pool = s.pool ∧
      (writeStep r w s).guards = s.guards ∧
      (writeStep r w s).config = s.config ∧
      (writeStep r w s).framer = s.framer ∧
      (writeStep r w s).events = s.events ∧
      (writeStep r w s).mem = s.mem ∧
      (writeStep r w s).freeNext = s.freeNext ∧
      (writeStep r w s).pending = s.pending := by
  simp only [writeStep]
  repeat' split
  all_goals simp

/-- `commitStep` changes at most: group, commit, port. -/
@[simp] theorem commitStep_frame (w : Word16) (s : State) :
      (commitStep w s).supply = s.supply ∧
      (commitStep w s).mount = s.mount ∧
      (commitStep w s).host = s.host ∧
      (commitStep w s).xlate = s.xlate ∧
      (commitStep w s).pool = s.pool ∧
      (commitStep w s).guards = s.guards ∧
      (commitStep w s).config = s.config ∧
      (commitStep w s).framer = s.framer ∧
      (commitStep w s).events = s.events ∧
      (commitStep w s).mem = s.mem ∧
      (commitStep w s).freeNext = s.freeNext ∧
      (commitStep w s).pending = s.pending := by
  simp only [commitStep]
  repeat' split
  all_goals simp

/-- `switchState` changes at most: xlate, guards, pool, group, commit. -/
@[simp] theorem switchState_frame (r : CommitRecord) (b : CommitBody) (s : State) :
      (switchState r b s).supply = s.supply ∧
      (switchState r b s).mount = s.mount ∧
      (switchState r b s).host = s.host ∧
      (switchState r b s).port = s.port ∧
      (switchState r b s).config = s.config ∧
      (switchState r b s).framer = s.framer ∧
      (switchState r b s).events = s.events ∧
      (switchState r b s).mem = s.mem ∧
      (switchState r b s).freeNext = s.freeNext ∧
      (switchState r b s).pending = s.pending := by
  simp [switchState]

/-- `releaseCommitHold` changes at most: pool, group, host, port, events, guards. -/
@[simp] theorem releaseCommitHold_frame (s : State) :
      (releaseCommitHold s).supply = s.supply ∧
      (releaseCommitHold s).mount = s.mount ∧
      (releaseCommitHold s).xlate = s.xlate ∧
      (releaseCommitHold s).commit = s.commit ∧
      (releaseCommitHold s).config = s.config ∧
      (releaseCommitHold s).framer = s.framer ∧
      (releaseCommitHold s).mem = s.mem ∧
      (releaseCommitHold s).freeNext = s.freeNext ∧
      (releaseCommitHold s).pending = s.pending := by
  simp only [releaseCommitHold]
  repeat' split
  all_goals simp

/-- `takeSwitch` changes at most: pool, group, host, port, events, guards, xlate, commit. -/
@[simp] theorem takeSwitch_frame (s : State) :
      (takeSwitch s).supply = s.supply ∧
      (takeSwitch s).mount = s.mount ∧
      (takeSwitch s).config = s.config ∧
      (takeSwitch s).framer = s.framer ∧
      (takeSwitch s).mem = s.mem ∧
      (takeSwitch s).freeNext = s.freeNext ∧
      (takeSwitch s).pending = s.pending := by
  simp only [takeSwitch]
  repeat' split
  all_goals simp

/-- `loadVolume` changes at most: host, port, xlate, pool, guards, group, mount. -/
@[simp] theorem loadVolume_frame (g : Geometry) (map : List Nat) (generation : BitVec 32) (slot : Slot) (table : List Guard) (s : State) :
      (loadVolume g map generation slot table s).supply = s.supply ∧
      (loadVolume g map generation slot table s).commit = s.commit ∧
      (loadVolume g map generation slot table s).config = s.config ∧
      (loadVolume g map generation slot table s).framer = s.framer ∧
      (loadVolume g map generation slot table s).events = s.events ∧
      (loadVolume g map generation slot table s).mem = s.mem ∧
      (loadVolume g map generation slot table s).freeNext = s.freeNext ∧
      (loadVolume g map generation slot table s).pending = s.pending := by
  simp [loadVolume]

/-- `mountReady` changes at most: host, port, xlate, pool, guards, group, mount, events. -/
@[simp] theorem mountReady_frame (slot : Slot) (image : Image) (s : State) :
      (mountReady slot image s).supply = s.supply ∧
      (mountReady slot image s).commit = s.commit ∧
      (mountReady slot image s).config = s.config ∧
      (mountReady slot image s).framer = s.framer ∧
      (mountReady slot image s).mem = s.mem ∧
      (mountReady slot image s).freeNext = s.freeNext ∧
      (mountReady slot image s).pending = s.pending := by
  simp [mountReady]

/-- `mountNothing` changes at most: host, port, mount. -/
@[simp] theorem mountNothing_frame (device : DeviceState) (reason : Option FaultedReason) (s : State) :
      (mountNothing device reason s).supply = s.supply ∧
      (mountNothing device reason s).xlate = s.xlate ∧
      (mountNothing device reason s).pool = s.pool ∧
      (mountNothing device reason s).group = s.group ∧
      (mountNothing device reason s).commit = s.commit ∧
      (mountNothing device reason s).guards = s.guards ∧
      (mountNothing device reason s).config = s.config ∧
      (mountNothing device reason s).framer = s.framer ∧
      (mountNothing device reason s).events = s.events ∧
      (mountNothing device reason s).mem = s.mem ∧
      (mountNothing device reason s).freeNext = s.freeNext ∧
      (mountNothing device reason s).pending = s.pending := by
  simp [mountNothing]

/-- `endMount` changes at most: host, port, xlate, pool, guards, group, mount, events. -/
@[simp] theorem endMount_frame (outcome : MountOutcome) (s : State) :
      (endMount outcome s).supply = s.supply ∧
      (endMount outcome s).commit = s.commit ∧
      (endMount outcome s).config = s.config ∧
      (endMount outcome s).framer = s.framer ∧
      (endMount outcome s).mem = s.mem ∧
      (endMount outcome s).freeNext = s.freeNext ∧
      (endMount outcome s).pending = s.pending := by
  simp only [endMount]
  repeat' split
  all_goals simp

/-- `enterMounting` changes at most: host, port, mount. -/
@[simp] theorem enterMounting_frame (cause : MountCause) (s : State) :
      (enterMounting cause s).supply = s.supply ∧
      (enterMounting cause s).xlate = s.xlate ∧
      (enterMounting cause s).pool = s.pool ∧
      (enterMounting cause s).group = s.group ∧
      (enterMounting cause s).commit = s.commit ∧
      (enterMounting cause s).guards = s.guards ∧
      (enterMounting cause s).config = s.config ∧
      (enterMounting cause s).framer = s.framer ∧
      (enterMounting cause s).events = s.events ∧
      (enterMounting cause s).mem = s.mem ∧
      (enterMounting cause s).freeNext = s.freeNext ∧
      (enterMounting cause s).pending = s.pending := by
  simp [enterMounting]

/-- `startMount` changes at most: port, mount. -/
@[simp] theorem startMount_frame (s : State) :
      (startMount s).supply = s.supply ∧
      (startMount s).host = s.host ∧
      (startMount s).xlate = s.xlate ∧
      (startMount s).pool = s.pool ∧
      (startMount s).group = s.group ∧
      (startMount s).commit = s.commit ∧
      (startMount s).guards = s.guards ∧
      (startMount s).config = s.config ∧
      (startMount s).framer = s.framer ∧
      (startMount s).events = s.events ∧
      (startMount s).mem = s.mem ∧
      (startMount s).freeNext = s.freeNext ∧
      (startMount s).pending = s.pending := by
  simp only [startMount]
  repeat' split
  all_goals simp

/-- `mountStep` changes at most: host, port, xlate, pool, guards, group, mount, events. -/
@[simp] theorem mountStep_frame (w : Word16) (s : State) :
      (mountStep w s).supply = s.supply ∧
      (mountStep w s).commit = s.commit ∧
      (mountStep w s).config = s.config ∧
      (mountStep w s).framer = s.framer ∧
      (mountStep w s).mem = s.mem ∧
      (mountStep w s).freeNext = s.freeNext ∧
      (mountStep w s).pending = s.pending := by
  simp only [mountStep]
  repeat' split
  all_goals simp

/-- `enterFormatting` changes at most: host, port, mount. -/
@[simp] theorem enterFormatting_frame (g : Geometry) (s : State) :
      (enterFormatting g s).supply = s.supply ∧
      (enterFormatting g s).xlate = s.xlate ∧
      (enterFormatting g s).pool = s.pool ∧
      (enterFormatting g s).group = s.group ∧
      (enterFormatting g s).commit = s.commit ∧
      (enterFormatting g s).guards = s.guards ∧
      (enterFormatting g s).config = s.config ∧
      (enterFormatting g s).framer = s.framer ∧
      (enterFormatting g s).events = s.events ∧
      (enterFormatting g s).mem = s.mem ∧
      (enterFormatting g s).freeNext = s.freeNext ∧
      (enterFormatting g s).pending = s.pending := by
  simp [enterFormatting]

/-- `startFormatWrites` changes at most: port, mount. -/
@[simp] theorem startFormatWrites_frame (s : State) :
      (startFormatWrites s).supply = s.supply ∧
      (startFormatWrites s).host = s.host ∧
      (startFormatWrites s).xlate = s.xlate ∧
      (startFormatWrites s).pool = s.pool ∧
      (startFormatWrites s).group = s.group ∧
      (startFormatWrites s).commit = s.commit ∧
      (startFormatWrites s).guards = s.guards ∧
      (startFormatWrites s).config = s.config ∧
      (startFormatWrites s).framer = s.framer ∧
      (startFormatWrites s).events = s.events ∧
      (startFormatWrites s).mem = s.mem ∧
      (startFormatWrites s).freeNext = s.freeNext ∧
      (startFormatWrites s).pending = s.pending := by
  simp only [startFormatWrites]
  repeat' split
  all_goals simp

/-- `endFormat` changes at most: host, port, xlate, pool, guards, group, mount, events. -/
@[simp] theorem endFormat_frame (f : FormatRun) (s : State) :
      (endFormat f s).supply = s.supply ∧
      (endFormat f s).commit = s.commit ∧
      (endFormat f s).config = s.config ∧
      (endFormat f s).framer = s.framer ∧
      (endFormat f s).mem = s.mem ∧
      (endFormat f s).freeNext = s.freeNext ∧
      (endFormat f s).pending = s.pending := by
  simp [endFormat]

/-- `formatStep` changes at most: host, port, xlate, pool, guards, group, mount, events. -/
@[simp] theorem formatStep_frame (w : Word16) (s : State) :
      (formatStep w s).supply = s.supply ∧
      (formatStep w s).commit = s.commit ∧
      (formatStep w s).config = s.config ∧
      (formatStep w s).framer = s.framer ∧
      (formatStep w s).mem = s.mem ∧
      (formatStep w s).freeNext = s.freeNext ∧
      (formatStep w s).pending = s.pending := by
  simp only [formatStep]
  repeat' split
  all_goals simp

/-- `completeEngine` changes at most: host, port, xlate, pool, guards, group, mount, events, commit. -/
@[simp] theorem completeEngine_frame (w : Word16) (s : State) :
      (completeEngine w s).supply = s.supply ∧
      (completeEngine w s).config = s.config ∧
      (completeEngine w s).framer = s.framer ∧
      (completeEngine w s).mem = s.mem ∧
      (completeEngine w s).freeNext = s.freeNext ∧
      (completeEngine w s).pending = s.pending := by
  simp only [completeEngine]
  repeat' split
  all_goals simp

/-- `deliver` changes at most: host, port, xlate, pool, guards, group, mount, events, commit. -/
@[simp] theorem deliver_frame (f : Flight) (underReset : Bool) (w : Word16) (s : State) :
      (deliver f underReset w s).supply = s.supply ∧
      (deliver f underReset w s).config = s.config ∧
      (deliver f underReset w s).framer = s.framer ∧
      (deliver f underReset w s).mem = s.mem ∧
      (deliver f underReset w s).freeNext = s.freeNext ∧
      (deliver f underReset w s).pending = s.pending := by
  simp only [deliver]
  repeat' split
  all_goals simp

/-- `completeWordAccess` changes at most: host, port, xlate, pool, guards, group, mount, events, commit, mem. -/
@[simp] theorem completeWordAccess_frame (s : State) :
      (completeWordAccess s).supply = s.supply ∧
      (completeWordAccess s).config = s.config ∧
      (completeWordAccess s).framer = s.framer ∧
      (completeWordAccess s).freeNext = s.freeNext ∧
      (completeWordAccess s).pending = s.pending := by
  simp only [completeWordAccess]
  repeat' split
  all_goals simp

/-- `enterHalted` changes at most: host, port, xlate, pool, guards, group, mount, events, commit. -/
@[simp] theorem enterHalted_frame (s : State) :
      (enterHalted s).supply = s.supply ∧
      (enterHalted s).config = s.config ∧
      (enterHalted s).framer = s.framer ∧
      (enterHalted s).mem = s.mem ∧
      (enterHalted s).freeNext = s.freeNext ∧
      (enterHalted s).pending = s.pending := by
  simp [enterHalted]

/-- `assertPfail` changes at most: supply, host, port, xlate, pool, guards, group, mount, events, commit. -/
@[simp] theorem assertPfail_frame (s : State) :
      (assertPfail s).config = s.config ∧
      (assertPfail s).framer = s.framer ∧
      (assertPfail s).mem = s.mem ∧
      (assertPfail s).freeNext = s.freeNext ∧
      (assertPfail s).pending = s.pending := by
  simp only [assertPfail]
  repeat' split
  all_goals simp

/-- `releasePfail` changes at most: supply, host, port, mount. -/
@[simp] theorem releasePfail_frame (s : State) :
      (releasePfail s).xlate = s.xlate ∧
      (releasePfail s).pool = s.pool ∧
      (releasePfail s).group = s.group ∧
      (releasePfail s).commit = s.commit ∧
      (releasePfail s).guards = s.guards ∧
      (releasePfail s).config = s.config ∧
      (releasePfail s).framer = s.framer ∧
      (releasePfail s).events = s.events ∧
      (releasePfail s).mem = s.mem ∧
      (releasePfail s).freeNext = s.freeNext ∧
      (releasePfail s).pending = s.pending := by
  simp only [releasePfail]
  repeat' split
  all_goals simp

/-- `enterReset` changes at most: supply, host, port, xlate, pool, guards, group, mount, events, commit, config, framer. -/
@[simp] theorem enterReset_frame (s : State) :
      (enterReset s).mem = s.mem ∧
      (enterReset s).freeNext = s.freeNext ∧
      (enterReset s).pending = s.pending := by
  simp [enterReset]

/-- `assertRst` changes at most: supply, host, port, xlate, pool, guards, group, mount, events, commit, config, framer. -/
@[simp] theorem assertRst_frame (s : State) :
      (assertRst s).mem = s.mem ∧
      (assertRst s).freeNext = s.freeNext ∧
      (assertRst s).pending = s.pending := by
  simp only [assertRst]
  repeat' split
  all_goals simp

/-- `leaveReset` changes at most: supply, host, port, xlate, pool, guards, group, mount, events, commit. -/
@[simp] theorem leaveReset_frame (s : State) :
      (leaveReset s).config = s.config ∧
      (leaveReset s).framer = s.framer ∧
      (leaveReset s).mem = s.mem ∧
      (leaveReset s).freeNext = s.freeNext ∧
      (leaveReset s).pending = s.pending := by
  simp only [leaveReset]
  repeat' split
  all_goals simp

/-- `releaseRst` changes at most: supply, host, port, xlate, pool, guards, group, mount, events, commit. -/
@[simp] theorem releaseRst_frame (s : State) :
      (releaseRst s).config = s.config ∧
      (releaseRst s).framer = s.framer ∧
      (releaseRst s).mem = s.mem ∧
      (releaseRst s).freeNext = s.freeNext ∧
      (releaseRst s).pending = s.pending := by
  simp only [releaseRst]
  repeat' split
  all_goals simp

/-- `endPowerOn` changes at most: supply, host, port, xlate, pool, guards, group, mount, events, commit. -/
@[simp] theorem endPowerOn_frame (s : State) :
      (endPowerOn s).config = s.config ∧
      (endPowerOn s).framer = s.framer ∧
      (endPowerOn s).mem = s.mem ∧
      (endPowerOn s).freeNext = s.freeNext ∧
      (endPowerOn s).pending = s.pending := by
  simp only [endPowerOn]
  repeat' split
  all_goals simp

/-- `takeTick` changes at most: events, group. -/
@[simp] theorem takeTick_frame (s : State) :
      (takeTick s).supply = s.supply ∧
      (takeTick s).mount = s.mount ∧
      (takeTick s).host = s.host ∧
      (takeTick s).xlate = s.xlate ∧
      (takeTick s).pool = s.pool ∧
      (takeTick s).commit = s.commit ∧
      (takeTick s).guards = s.guards ∧
      (takeTick s).port = s.port ∧
      (takeTick s).config = s.config ∧
      (takeTick s).framer = s.framer ∧
      (takeTick s).mem = s.mem ∧
      (takeTick s).freeNext = s.freeNext ∧
      (takeTick s).pending = s.pending := by
  simp only [takeTick]
  repeat' split
  all_goals simp

/-- `beginFrame` changes at most: framer. -/
@[simp] theorem beginFrame_frame (s : State) :
      (beginFrame s).supply = s.supply ∧
      (beginFrame s).mount = s.mount ∧
      (beginFrame s).host = s.host ∧
      (beginFrame s).xlate = s.xlate ∧
      (beginFrame s).pool = s.pool ∧
      (beginFrame s).group = s.group ∧
      (beginFrame s).commit = s.commit ∧
      (beginFrame s).guards = s.guards ∧
      (beginFrame s).port = s.port ∧
      (beginFrame s).config = s.config ∧
      (beginFrame s).events = s.events ∧
      (beginFrame s).mem = s.mem ∧
      (beginFrame s).freeNext = s.freeNext ∧
      (beginFrame s).pending = s.pending := by
  simp only [beginFrame]
  repeat' split
  all_goals simp

/-- `takeBadCmd` changes at most: framer. -/
@[simp] theorem takeBadCmd_frame (code : Byte) (s : State) :
      (takeBadCmd code s).supply = s.supply ∧
      (takeBadCmd code s).mount = s.mount ∧
      (takeBadCmd code s).host = s.host ∧
      (takeBadCmd code s).xlate = s.xlate ∧
      (takeBadCmd code s).pool = s.pool ∧
      (takeBadCmd code s).group = s.group ∧
      (takeBadCmd code s).commit = s.commit ∧
      (takeBadCmd code s).guards = s.guards ∧
      (takeBadCmd code s).port = s.port ∧
      (takeBadCmd code s).config = s.config ∧
      (takeBadCmd code s).events = s.events ∧
      (takeBadCmd code s).mem = s.mem ∧
      (takeBadCmd code s).freeNext = s.freeNext ∧
      (takeBadCmd code s).pending = s.pending := by
  simp only [takeBadCmd]
  repeat' split
  all_goals simp

/-- `discardVolume` changes at most: xlate, pool, commit, guards, group. -/
@[simp] theorem discardVolume_frame (s : State) :
      (discardVolume s).supply = s.supply ∧
      (discardVolume s).mount = s.mount ∧
      (discardVolume s).host = s.host ∧
      (discardVolume s).port = s.port ∧
      (discardVolume s).config = s.config ∧
      (discardVolume s).framer = s.framer ∧
      (discardVolume s).events = s.events ∧
      (discardVolume s).mem = s.mem ∧
      (discardVolume s).freeNext = s.freeNext ∧
      (discardVolume s).pending = s.pending := by
  simp [discardVolume]

/-- `remountAbort` changes at most: pool, group, events. -/
@[simp] theorem remountAbort_frame (s : State) :
      (remountAbort s).supply = s.supply ∧
      (remountAbort s).mount = s.mount ∧
      (remountAbort s).host = s.host ∧
      (remountAbort s).xlate = s.xlate ∧
      (remountAbort s).commit = s.commit ∧
      (remountAbort s).guards = s.guards ∧
      (remountAbort s).port = s.port ∧
      (remountAbort s).config = s.config ∧
      (remountAbort s).framer = s.framer ∧
      (remountAbort s).mem = s.mem ∧
      (remountAbort s).freeNext = s.freeNext ∧
      (remountAbort s).pending = s.pending := by
  simp only [remountAbort]
  repeat' split
  all_goals simp

/-- `acceptRemount` changes at most: xlate, pool, commit, guards, group, host, port, mount, events. -/
@[simp] theorem acceptRemount_frame (s : State) :
      (acceptRemount s).supply = s.supply ∧
      (acceptRemount s).config = s.config ∧
      (acceptRemount s).framer = s.framer ∧
      (acceptRemount s).mem = s.mem ∧
      (acceptRemount s).freeNext = s.freeNext ∧
      (acceptRemount s).pending = s.pending := by
  simp [acceptRemount]

/-- `takeStatus` changes at most: nothing. -/
@[simp] theorem takeStatus_frame (args : List Byte) (s : State) :
      ((takeStatus args s).2).supply = s.supply ∧
      ((takeStatus args s).2).mount = s.mount ∧
      ((takeStatus args s).2).host = s.host ∧
      ((takeStatus args s).2).xlate = s.xlate ∧
      ((takeStatus args s).2).pool = s.pool ∧
      ((takeStatus args s).2).group = s.group ∧
      ((takeStatus args s).2).commit = s.commit ∧
      ((takeStatus args s).2).guards = s.guards ∧
      ((takeStatus args s).2).port = s.port ∧
      ((takeStatus args s).2).config = s.config ∧
      ((takeStatus args s).2).framer = s.framer ∧
      ((takeStatus args s).2).events = s.events ∧
      ((takeStatus args s).2).mem = s.mem ∧
      ((takeStatus args s).2).freeNext = s.freeNext ∧
      ((takeStatus args s).2).pending = s.pending := by
  simp [takeStatus, okWith]

/-- `takeConfigRead` changes at most: nothing. -/
@[simp] theorem takeConfigRead_frame (args : List Byte) (s : State) :
      ((takeConfigRead args s).2).supply = s.supply ∧
      ((takeConfigRead args s).2).mount = s.mount ∧
      ((takeConfigRead args s).2).host = s.host ∧
      ((takeConfigRead args s).2).xlate = s.xlate ∧
      ((takeConfigRead args s).2).pool = s.pool ∧
      ((takeConfigRead args s).2).group = s.group ∧
      ((takeConfigRead args s).2).commit = s.commit ∧
      ((takeConfigRead args s).2).guards = s.guards ∧
      ((takeConfigRead args s).2).port = s.port ∧
      ((takeConfigRead args s).2).config = s.config ∧
      ((takeConfigRead args s).2).framer = s.framer ∧
      ((takeConfigRead args s).2).events = s.events ∧
      ((takeConfigRead args s).2).mem = s.mem ∧
      ((takeConfigRead args s).2).freeNext = s.freeNext ∧
      ((takeConfigRead args s).2).pending = s.pending := by
  simp [takeConfigRead, okWith]

/-- `takeConfigWrite` changes at most: config. -/
@[simp] theorem takeConfigWrite_frame (args : List Byte) (s : State) :
      ((takeConfigWrite args s).2).supply = s.supply ∧
      ((takeConfigWrite args s).2).mount = s.mount ∧
      ((takeConfigWrite args s).2).host = s.host ∧
      ((takeConfigWrite args s).2).xlate = s.xlate ∧
      ((takeConfigWrite args s).2).pool = s.pool ∧
      ((takeConfigWrite args s).2).group = s.group ∧
      ((takeConfigWrite args s).2).commit = s.commit ∧
      ((takeConfigWrite args s).2).guards = s.guards ∧
      ((takeConfigWrite args s).2).port = s.port ∧
      ((takeConfigWrite args s).2).framer = s.framer ∧
      ((takeConfigWrite args s).2).events = s.events ∧
      ((takeConfigWrite args s).2).mem = s.mem ∧
      ((takeConfigWrite args s).2).freeNext = s.freeNext ∧
      ((takeConfigWrite args s).2).pending = s.pending := by
  simp only [takeConfigWrite, resultOnly]
  repeat' split
  all_goals simp

/-- `takeEventPop` changes at most: events. -/
@[simp] theorem takeEventPop_frame (args : List Byte) (s : State) :
      ((takeEventPop args s).2).supply = s.supply ∧
      ((takeEventPop args s).2).mount = s.mount ∧
      ((takeEventPop args s).2).host = s.host ∧
      ((takeEventPop args s).2).xlate = s.xlate ∧
      ((takeEventPop args s).2).pool = s.pool ∧
      ((takeEventPop args s).2).group = s.group ∧
      ((takeEventPop args s).2).commit = s.commit ∧
      ((takeEventPop args s).2).guards = s.guards ∧
      ((takeEventPop args s).2).port = s.port ∧
      ((takeEventPop args s).2).config = s.config ∧
      ((takeEventPop args s).2).framer = s.framer ∧
      ((takeEventPop args s).2).mem = s.mem ∧
      ((takeEventPop args s).2).freeNext = s.freeNext ∧
      ((takeEventPop args s).2).pending = s.pending := by
  simp only [takeEventPop, resultOnly, okWith]
  repeat' split
  all_goals simp

/-- `takeEventAck` changes at most: events. -/
@[simp] theorem takeEventAck_frame (args : List Byte) (s : State) :
      ((takeEventAck args s).2).supply = s.supply ∧
      ((takeEventAck args s).2).mount = s.mount ∧
      ((takeEventAck args s).2).host = s.host ∧
      ((takeEventAck args s).2).xlate = s.xlate ∧
      ((takeEventAck args s).2).pool = s.pool ∧
      ((takeEventAck args s).2).group = s.group ∧
      ((takeEventAck args s).2).commit = s.commit ∧
      ((takeEventAck args s).2).guards = s.guards ∧
      ((takeEventAck args s).2).port = s.port ∧
      ((takeEventAck args s).2).config = s.config ∧
      ((takeEventAck args s).2).framer = s.framer ∧
      ((takeEventAck args s).2).mem = s.mem ∧
      ((takeEventAck args s).2).freeNext = s.freeNext ∧
      ((takeEventAck args s).2).pending = s.pending := by
  simp only [takeEventAck, resultOnly, okWith]
  repeat' split
  all_goals simp

/-- `takeCommit` changes at most: group, commit, port. -/
@[simp] theorem takeCommit_frame (args : List Byte) (s : State) :
      ((takeCommit args s).2).supply = s.supply ∧
      ((takeCommit args s).2).mount = s.mount ∧
      ((takeCommit args s).2).host = s.host ∧
      ((takeCommit args s).2).xlate = s.xlate ∧
      ((takeCommit args s).2).pool = s.pool ∧
      ((takeCommit args s).2).guards = s.guards ∧
      ((takeCommit args s).2).config = s.config ∧
      ((takeCommit args s).2).framer = s.framer ∧
      ((takeCommit args s).2).events = s.events ∧
      ((takeCommit args s).2).mem = s.mem ∧
      ((takeCommit args s).2).freeNext = s.freeNext ∧
      ((takeCommit args s).2).pending = s.pending := by
  simp only [takeCommit, onVolume, volumeRefusal, resultOnly, okWith]
  repeat' split
  all_goals simp

/-- `takeAbort` changes at most: pool, group, host, port, events, guards, commit. -/
@[simp] theorem takeAbort_frame (args : List Byte) (s : State) :
      ((takeAbort args s).2).supply = s.supply ∧
      ((takeAbort args s).2).mount = s.mount ∧
      ((takeAbort args s).2).xlate = s.xlate ∧
      ((takeAbort args s).2).config = s.config ∧
      ((takeAbort args s).2).framer = s.framer ∧
      ((takeAbort args s).2).mem = s.mem ∧
      ((takeAbort args s).2).freeNext = s.freeNext ∧
      ((takeAbort args s).2).pending = s.pending := by
  simp only [takeAbort, abortGroup, onVolume, volumeRefusal, resultOnly, okWith]
  repeat' split
  all_goals simp

/-- `takeGroupList` changes at most: nothing. -/
@[simp] theorem takeGroupList_frame (args : List Byte) (s : State) :
      ((takeGroupList args s).2).supply = s.supply ∧
      ((takeGroupList args s).2).mount = s.mount ∧
      ((takeGroupList args s).2).host = s.host ∧
      ((takeGroupList args s).2).xlate = s.xlate ∧
      ((takeGroupList args s).2).pool = s.pool ∧
      ((takeGroupList args s).2).group = s.group ∧
      ((takeGroupList args s).2).commit = s.commit ∧
      ((takeGroupList args s).2).guards = s.guards ∧
      ((takeGroupList args s).2).port = s.port ∧
      ((takeGroupList args s).2).config = s.config ∧
      ((takeGroupList args s).2).framer = s.framer ∧
      ((takeGroupList args s).2).events = s.events ∧
      ((takeGroupList args s).2).mem = s.mem ∧
      ((takeGroupList args s).2).freeNext = s.freeNext ∧
      ((takeGroupList args s).2).pending = s.pending := by
  simp only [takeGroupList, onVolume, volumeRefusal, resultOnly, okWith]
  repeat' split
  all_goals simp

/-- `takeMapQuery` changes at most: nothing. -/
@[simp] theorem takeMapQuery_frame (args : List Byte) (s : State) :
      ((takeMapQuery args s).2).supply = s.supply ∧
      ((takeMapQuery args s).2).mount = s.mount ∧
      ((takeMapQuery args s).2).host = s.host ∧
      ((takeMapQuery args s).2).xlate = s.xlate ∧
      ((takeMapQuery args s).2).pool = s.pool ∧
      ((takeMapQuery args s).2).group = s.group ∧
      ((takeMapQuery args s).2).commit = s.commit ∧
      ((takeMapQuery args s).2).guards = s.guards ∧
      ((takeMapQuery args s).2).port = s.port ∧
      ((takeMapQuery args s).2).config = s.config ∧
      ((takeMapQuery args s).2).framer = s.framer ∧
      ((takeMapQuery args s).2).events = s.events ∧
      ((takeMapQuery args s).2).mem = s.mem ∧
      ((takeMapQuery args s).2).freeNext = s.freeNext ∧
      ((takeMapQuery args s).2).pending = s.pending := by
  simp only [takeMapQuery, onVolume, volumeRefusal, resultOnly, okWith]
  repeat' split
  all_goals simp

/-- `takeGuardRead` changes at most: nothing. -/
@[simp] theorem takeGuardRead_frame (args : List Byte) (s : State) :
      ((takeGuardRead args s).2).supply = s.supply ∧
      ((takeGuardRead args s).2).mount = s.mount ∧
      ((takeGuardRead args s).2).host = s.host ∧
      ((takeGuardRead args s).2).xlate = s.xlate ∧
      ((takeGuardRead args s).2).pool = s.pool ∧
      ((takeGuardRead args s).2).group = s.group ∧
      ((takeGuardRead args s).2).commit = s.commit ∧
      ((takeGuardRead args s).2).guards = s.guards ∧
      ((takeGuardRead args s).2).port = s.port ∧
      ((takeGuardRead args s).2).config = s.config ∧
      ((takeGuardRead args s).2).framer = s.framer ∧
      ((takeGuardRead args s).2).events = s.events ∧
      ((takeGuardRead args s).2).mem = s.mem ∧
      ((takeGuardRead args s).2).freeNext = s.freeNext ∧
      ((takeGuardRead args s).2).pending = s.pending := by
  simp only [takeGuardRead, onVolume, volumeRefusal, resultOnly, okWith]
  repeat' split
  all_goals simp

/-- `takeGuardStage` changes at most: guards. -/
@[simp] theorem takeGuardStage_frame (args : List Byte) (s : State) :
      ((takeGuardStage args s).2).supply = s.supply ∧
      ((takeGuardStage args s).2).mount = s.mount ∧
      ((takeGuardStage args s).2).host = s.host ∧
      ((takeGuardStage args s).2).xlate = s.xlate ∧
      ((takeGuardStage args s).2).pool = s.pool ∧
      ((takeGuardStage args s).2).group = s.group ∧
      ((takeGuardStage args s).2).commit = s.commit ∧
      ((takeGuardStage args s).2).port = s.port ∧
      ((takeGuardStage args s).2).config = s.config ∧
      ((takeGuardStage args s).2).framer = s.framer ∧
      ((takeGuardStage args s).2).events = s.events ∧
      ((takeGuardStage args s).2).mem = s.mem ∧
      ((takeGuardStage args s).2).freeNext = s.freeNext ∧
      ((takeGuardStage args s).2).pending = s.pending := by
  simp only [takeGuardStage, onVolume, volumeRefusal, resultOnly]
  repeat' split
  all_goals simp

/-- `takeGuardDiscard` changes at most: guards. -/
@[simp] theorem takeGuardDiscard_frame (args : List Byte) (s : State) :
      ((takeGuardDiscard args s).2).supply = s.supply ∧
      ((takeGuardDiscard args s).2).mount = s.mount ∧
      ((takeGuardDiscard args s).2).host = s.host ∧
      ((takeGuardDiscard args s).2).xlate = s.xlate ∧
      ((takeGuardDiscard args s).2).pool = s.pool ∧
      ((takeGuardDiscard args s).2).group = s.group ∧
      ((takeGuardDiscard args s).2).commit = s.commit ∧
      ((takeGuardDiscard args s).2).port = s.port ∧
      ((takeGuardDiscard args s).2).config = s.config ∧
      ((takeGuardDiscard args s).2).framer = s.framer ∧
      ((takeGuardDiscard args s).2).events = s.events ∧
      ((takeGuardDiscard args s).2).mem = s.mem ∧
      ((takeGuardDiscard args s).2).freeNext = s.freeNext ∧
      ((takeGuardDiscard args s).2).pending = s.pending := by
  simp only [takeGuardDiscard, onVolume, volumeRefusal, resultOnly]
  repeat' split
  all_goals simp

/-- `formatChecked` changes at most: xlate, pool, commit, guards, group, host, port, mount. -/
@[simp] theorem formatChecked_frame (args : List Byte) (s : State) :
      ((formatChecked args s).2).supply = s.supply ∧
      ((formatChecked args s).2).config = s.config ∧
      ((formatChecked args s).2).framer = s.framer ∧
      ((formatChecked args s).2).events = s.events ∧
      ((formatChecked args s).2).mem = s.mem ∧
      ((formatChecked args s).2).freeNext = s.freeNext ∧
      ((formatChecked args s).2).pending = s.pending := by
  simp only [formatChecked, resultOnly]
  repeat' split
  all_goals simp

/-- `takeFormat` changes at most: xlate, pool, commit, guards, group, host, port, mount. -/
@[simp] theorem takeFormat_frame (args : List Byte) (s : State) :
      ((takeFormat args s).2).supply = s.supply ∧
      ((takeFormat args s).2).config = s.config ∧
      ((takeFormat args s).2).framer = s.framer ∧
      ((takeFormat args s).2).events = s.events ∧
      ((takeFormat args s).2).mem = s.mem ∧
      ((takeFormat args s).2).freeNext = s.freeNext ∧
      ((takeFormat args s).2).pending = s.pending := by
  simp only [takeFormat, resultOnly]
  repeat' split
  all_goals simp

/-- `takeRemount` changes at most: xlate, pool, commit, guards, group, host, port, mount, events. -/
@[simp] theorem takeRemount_frame (args : List Byte) (s : State) :
      ((takeRemount args s).2).supply = s.supply ∧
      ((takeRemount args s).2).config = s.config ∧
      ((takeRemount args s).2).framer = s.framer ∧
      ((takeRemount args s).2).mem = s.mem ∧
      ((takeRemount args s).2).freeNext = s.freeNext ∧
      ((takeRemount args s).2).pending = s.pending := by
  simp only [takeRemount, resultOnly]
  repeat' split
  all_goals simp

end Sys2Proof.Machine
end

