-- ==== Sys2Proof/Laws/Effects.lean ====
section
/-! SUPPORT. Everything one command can do to the state, said once: an invariant of every step is proved by one lemma
for each effect below. -/

namespace Sys2Proof.Machine

/-- The fourteen takes of the management port. -/
def takes : List (List Byte → State → List Byte × State) :=
  [takeStatus, takeConfigRead, takeConfigWrite, takeEventPop, takeEventAck, takeCommit, takeAbort, takeGroupList,
    takeMapQuery, takeGuardRead, takeGuardStage, takeGuardDiscard, takeFormat, takeRemount]

theorem takeStatus_mem : takeStatus ∈ takes := List.mem_of_getElem? (i := 0) rfl
theorem takeConfigRead_mem : takeConfigRead ∈ takes := List.mem_of_getElem? (i := 1) rfl
theorem takeConfigWrite_mem : takeConfigWrite ∈ takes := List.mem_of_getElem? (i := 2) rfl
theorem takeEventPop_mem : takeEventPop ∈ takes := List.mem_of_getElem? (i := 3) rfl
theorem takeEventAck_mem : takeEventAck ∈ takes := List.mem_of_getElem? (i := 4) rfl
theorem takeCommit_mem : takeCommit ∈ takes := List.mem_of_getElem? (i := 5) rfl
theorem takeAbort_mem : takeAbort ∈ takes := List.mem_of_getElem? (i := 6) rfl
theorem takeGroupList_mem : takeGroupList ∈ takes := List.mem_of_getElem? (i := 7) rfl
theorem takeMapQuery_mem : takeMapQuery ∈ takes := List.mem_of_getElem? (i := 8) rfl
theorem takeGuardRead_mem : takeGuardRead ∈ takes := List.mem_of_getElem? (i := 9) rfl
theorem takeGuardStage_mem : takeGuardStage ∈ takes := List.mem_of_getElem? (i := 10) rfl
theorem takeGuardDiscard_mem : takeGuardDiscard ∈ takes := List.mem_of_getElem? (i := 11) rfl
theorem takeFormat_mem : takeFormat ∈ takes := List.mem_of_getElem? (i := 12) rfl
theorem takeRemount_mem : takeRemount ∈ takes := List.mem_of_getElem? (i := 13) rfl

theorem ite_mem {α : Type} {p : Prop} [Decidable p] {x y : α} {l : List α} (hx : x ∈ l) (hy : y ∈ l) :
    (if p then x else y) ∈ l := by
  split
  · exact hx
  · exact hy

/-- Every code's take is one of the fourteen. -/
theorem takeOf_mem (code : Byte) : takeOf code ∈ takes :=
  ite_mem takeStatus_mem (ite_mem takeConfigRead_mem (ite_mem takeConfigWrite_mem (ite_mem takeEventPop_mem
    (ite_mem takeEventAck_mem (ite_mem takeCommit_mem (ite_mem takeAbort_mem (ite_mem takeGroupList_mem (ite_mem
    takeMapQuery_mem (ite_mem takeGuardRead_mem (ite_mem takeGuardStage_mem (ite_mem takeGuardDiscard_mem (ite_mem
    takeFormat_mem (takeRemount_mem)))))))))))))

/-- The effects that a command can have on a part that has its supply. -/
inductive Effect (s : State) : State → Prop where
  | nothing : Effect s s
  | power (pfail rst scs : Bool) : Effect s (risePower pfail rst scs s)
  | supplyLost : Effect s (loseSupply s)
  | powerOnEnded : Effect s (endPowerOn s)
  | rstAsserted : Effect s (assertRst s)
  | rstReleased : Effect s (releaseRst s)
  | pfailAsserted : Effect s (assertPfail s)
  | pfailReleased : Effect s (releasePfail s)
  | taken (address : Addr) (hoe hwe hlb hub : Bool) (hd : Word16) :
      Effect s (takeAccess address hoe hwe hlb hub hd s)
  | cycleEnded : Effect s (endCycle s)
  | dataReleased : Effect s (releaseData s)
  | wordCompleted : Effect s (completeWordAccess s)
  | completeEnded : Effect s (endComplete s)
  | switched : Effect s (takeSwitch s)
  | requested : Effect s (takeCmt s)
  | mountStarted : Effect s (startMount s)
  | formatStarted : Effect s (startFormatWrites s)
  | ticked : Effect s (takeTick s)
  | expired : Effect s (expire s)
  | pulseEnded : Effect s (endPulse s)
  | frameBegun : Effect s (beginFrame s)
  | frameEnded : Effect s (endFrame s)
  /-- A byte or a bad code that changes the framer only. -/
  | framed (f : Framer) : s.mount.device ≠ .resetHeld → f.scsLow = s.framer.scsLow → Effect s { s with framer := f }
  /-- A command is taken and answered. -/
  | command (code : Byte) (args given response : List Byte) (take : List Byte → State → List Byte × State) :
      s.mount.device ≠ .resetHeld → take ∈ takes → Effect s (respond code args response (take given s).2)

theorem portAnswers_iff (s : State) : portAnswers s = true ↔ s.mount.device ≠ .resetHeld := by
  simp [portAnswers]

/-- A command's byte either brings its take or does nothing. -/
theorem takeCommand_effect (code : Byte) (count : Nat) (last : Option Byte)
    (take : List Byte → State → List Byte × State) (h : take ∈ takes) (s : State) :
    Effect s (takeCommand code count last take s) := by
  simp only [takeCommand]
  split
  · rename_i hc
    simp only [Bool.and_eq_true, portAnswers_iff] at hc
    exact .command _ _ _ _ _ hc.1 h
  · exact .nothing

theorem takeBadCmd_effect (code : Byte) (s : State) : Effect s (takeBadCmd code s) := by
  simp only [takeBadCmd]
  split
  · rename_i hc
    simp only [Bool.and_eq_true, portAnswers_iff] at hc
    exact .framed _ hc.1.1 rfl
  · exact .nothing

/-- What a byte can do: nothing, a change of the framer alone, or the take of the command that its code, or the code
before it, names. -/
theorem arriveByte_cases (b : Byte) (s : State) :
    arriveByte b s = s ∨
      (s.mount.device ≠ .resetHeld ∧
        ((∃ f : Framer, arriveByte b s = { s with framer := f } ∧ f.scsLow = s.framer.scsLow) ∨
          ∃ code args given response,
            ((code = b ∧ argumentCount code = some 0) ∨
              (s.framer.code = some code ∧ ∃ n, n ≠ 0 ∧ argumentCount code = some n)) ∧
            arriveByte b s = respond code args response (takeOf code given s).2)) := by
  rw [arriveByte]
  split
  · rename_i hc
    rw [portAnswers_iff] at hc
    split
    · exact .inl rfl
    · simp only [commandByte]
      split
      · simp only [takeBadCmd]
        split
        · exact .inr ⟨hc, .inl ⟨_, rfl, rfl⟩⟩
        · exact .inl rfl
      · rename_i h
        simp only [takeCommand]
        split
        · exact .inr ⟨hc, .inr ⟨b, _, _, _, .inl ⟨rfl, h⟩, rfl⟩⟩
        · exact .inl rfl
      · exact .inr ⟨hc, .inl ⟨_, rfl, rfl⟩⟩
    · rename_i hs
      simp only [argumentByte]
      split
      · exact .inl rfl
      · rename_i code hcode
        split
        · exact .inl rfl
        · rename_i count h
          split
          · exact .inr ⟨hc, .inl ⟨_, rfl, rfl⟩⟩
          · simp only [takeCommand]
            split
            · rename_i ha
              refine .inr ⟨hc, .inr ⟨code, _, _, _, .inr ⟨hcode, count, ?_, h⟩, rfl⟩⟩
              rintro rfl
              simp [Framer.awaits, hs] at ha
            · exact .inl rfl
    · simp only [responseByte]
      split <;> exact .inr ⟨hc, .inl ⟨_, rfl, rfl⟩⟩
    · exact .inl rfl
  · exact .inl rfl

theorem arriveByte_effect (b : Byte) (s : State) : Effect s (arriveByte b s) := by
  rcases arriveByte_cases b s with h | ⟨hd, ⟨f, h, hf⟩ | ⟨code, args, given, response, _, h⟩⟩ <;> rw [h]
  · exact .nothing
  · exact .framed f hd hf
  · exact .command code args given response _ hd (takeOf_mem code)

/-- Every command answers a next state, and the next state is one of the effects. -/
theorem exec_effect (c : Instr) (s : State) : ∃ t, exec c s = .next t ∧ Effect s t := by
  have hw : ∀ f : State → State, Effect s (f s) → ∃ t, whenPowered s f = .next t ∧ Effect s t := by
    intro f hf
    refine ⟨_, rfl, ?_⟩
    split
    · exact hf
    · exact .nothing
  cases c with
  | powerOn p r q => exact ⟨_, rfl, .power p r q⟩
  | endOfPowerOn => exact hw _ .powerOnEnded
  | rstAssert => exact hw _ .rstAsserted
  | rstRelease => exact hw _ .rstReleased
  | pfailAssert => exact hw _ .pfailAsserted
  | pfailRelease => exact hw _ .pfailReleased
  | hostAccessTake a hoe hwe hlb hub hd => exact hw _ (.taken a hoe hwe hlb hub hd)
  | hostCycleEnd => exact hw _ .cycleEnded
  | memoryWordAccessComplete => exact hw _ .wordCompleted
  | completeEnd => exact hw _ .completeEnded
  | switch => exact hw _ .switched
  | cmt => exact hw _ .requested
  | mountStart => exact hw _ .mountStarted
  | formatWritesStart => exact hw _ .formatStarted
  | tick => exact hw _ .ticked
  | deadlineAbort => exact hw _ .expired
  | hrstPulseEnd => exact hw _ .pulseEnded
  | frameBegin => exact hw _ .frameBegun
  | frameEnd => exact hw _ .frameEnded
  | badCmd code => exact hw _ (takeBadCmd_effect code s)
  | byteArrives b => exact hw _ (arriveByte_effect b s)
  | supplyFailure => exact hw _ .supplyLost
  | readDataRelease line =>
    cases line
    · exact hw _ .dataReleased
    · exact hw _ .cycleEnded
  | status => exact hw _ (takeCommand_effect _ _ _ _ takeStatus_mem s)
  | configRead => exact hw _ (takeCommand_effect _ _ _ _ takeConfigRead_mem s)
  | configWrite last => exact hw _ (takeCommand_effect _ _ _ _ takeConfigWrite_mem s)
  | eventPop => exact hw _ (takeCommand_effect _ _ _ _ takeEventPop_mem s)
  | eventAck last => exact hw _ (takeCommand_effect _ _ _ _ takeEventAck_mem s)
  | commit => exact hw _ (takeCommand_effect _ _ _ _ takeCommit_mem s)
  | abort => exact hw _ (takeCommand_effect _ _ _ _ takeAbort_mem s)
  | groupList last => exact hw _ (takeCommand_effect _ _ _ _ takeGroupList_mem s)
  | mapQuery last => exact hw _ (takeCommand_effect _ _ _ _ takeMapQuery_mem s)
  | guardRead last => exact hw _ (takeCommand_effect _ _ _ _ takeGuardRead_mem s)
  | guardStage last => exact hw _ (takeCommand_effect _ _ _ _ takeGuardStage_mem s)
  | guardDiscard => exact hw _ (takeCommand_effect _ _ _ _ takeGuardDiscard_mem s)
  | format last => exact hw _ (takeCommand_effect _ _ _ _ takeFormat_mem s)
  | remount => exact hw _ (takeCommand_effect _ _ _ _ takeRemount_mem s)

/-- A step idles or has one of the effects, on the state with the rest of the queue. -/
theorem step_effect (s : State) :
    (s.pending = [] ∧ step s = .next s) ∨
      ∃ c rest t, s.pending = c :: rest ∧ step s = .next t ∧ Effect { s with pending := rest } t := by
  simp only [step]
  split
  · rename_i h
    exact .inl ⟨h, rfl⟩
  · rename_i c rest h
    obtain ⟨t, ht, he⟩ := exec_effect c { s with pending := rest }
    exact .inr ⟨c, rest, t, h, ht, he⟩

end Sys2Proof.Machine
end

