-- ==== Sys2Proof/Laws/Memory.lean ====
section
/-! SUPPORT. The laws of memory: a read after a write, and the canonical form that every operation keeps. -/

namespace Sys2Proof.Machine

theorem readByte_consByte_other (m : Memory) (k j : Nat) (b : Byte) (h : j ≠ k) :
    readByte (consByte k b m) j = readByte m j := by
  simp only [consByte]
  split
  · rfl
  · simp [readByte, h]

/-- A write of a byte leaves every other byte as it was, in any list. -/
theorem readByte_writeByte_other (m : Memory) (k j : Nat) (b : Byte) (h : j ≠ k) :
    readByte (writeByte m k b) j = readByte m j := by
  induction m with
  | nil => exact readByte_consByte_other [] k j b h
  | cons c m ih =>
    obtain ⟨k', b'⟩ := c
    simp only [writeByte]
    split
    · exact readByte_consByte_other _ k j b h
    · split
      · rename_i hk
        rw [readByte_consByte_other _ k j b h]
        simp [readByte, ← hk, h]
      · simp only [readByte, ih]

/-- Below its bound a canonical list holds nothing. -/
theorem readByte_below (m : Memory) : ∀ (lo j : Nat), memoryWfFrom lo m = true → j < lo → readByte m j = unlistedByte := by
  induction m with
  | nil => intros; rfl
  | cons c m ih =>
    obtain ⟨k, b⟩ := c
    intro lo j h hj
    simp only [memoryWfFrom, Bool.and_eq_true, decide_eq_true_eq] at h
    simp only [readByte]
    rw [if_neg (by omega), ih (k + 1) j h.2 (by omega)]

/-- A byte just written reads back. -/
theorem readByte_writeByte_same (m : Memory) (k : Nat) (b : Byte) :
    ∀ lo, memoryWfFrom lo m = true → readByte (writeByte m k b) k = b := by
  have hcons : ∀ m' : Memory, readByte m' k = unlistedByte → readByte (consByte k b m') k = b := by
    intro m' h
    simp only [consByte]
    split
    · rename_i hb; rw [h, hb]
    · simp [readByte]
  induction m with
  | nil => intro lo h; exact hcons [] rfl
  | cons c m ih =>
    obtain ⟨k', b'⟩ := c
    intro lo h
    have hm := h
    simp only [memoryWfFrom, Bool.and_eq_true, decide_eq_true_eq] at hm
    simp only [writeByte]
    split
    · apply hcons
      simp only [readByte]
      rw [if_neg (by omega), readByte_below m (k' + 1) k hm.2 (by omega)]
    · split
      · exact hcons m (readByte_below m (k' + 1) k hm.2 (by omega))
      · simp only [readByte]
        rw [if_neg (by omega), ih (k' + 1) hm.2]

theorem memoryWfFrom_mono (m : Memory) (lo lo' : Nat) (h : memoryWfFrom lo m = true) (hle : lo' ≤ lo) :
    memoryWfFrom lo' m = true := by
  cases m with
  | nil => rfl
  | cons c m =>
    simp only [memoryWfFrom, Bool.and_eq_true, decide_eq_true_eq] at h ⊢
    exact ⟨⟨⟨by omega, h.1.1.2⟩, h.1.2⟩, h.2⟩

theorem consByte_wf (m : Memory) (k : Nat) (b : Byte) (lo : Nat) (h : memoryWfFrom (k + 1) m = true) (hlo : lo ≤ k)
    (hk : k < 2 ^ 21) : memoryWfFrom lo (consByte k b m) = true := by
  simp only [consByte]
  split
  · exact memoryWfFrom_mono m _ _ h (by omega)
  · simp only [memoryWfFrom, Bool.and_eq_true, decide_eq_true_eq]
    exact ⟨⟨⟨hlo, hk⟩, by assumption⟩, h⟩

/-- A write of a byte of the address space keeps the canonical form. -/
theorem writeByte_wfFrom (m : Memory) (k : Nat) (b : Byte) (hk : k < 2 ^ 21) :
    ∀ lo, memoryWfFrom lo m = true → lo ≤ k → memoryWfFrom lo (writeByte m k b) = true := by
  induction m with
  | nil => intro lo _ hlo; exact consByte_wf [] k b lo rfl hlo hk
  | cons c m ih =>
    obtain ⟨k', b'⟩ := c
    intro lo h hlo
    have hm := h
    simp only [memoryWfFrom, Bool.and_eq_true, decide_eq_true_eq] at hm
    simp only [writeByte]
    split
    · refine consByte_wf _ k b lo ?_ hlo hk
      simp only [memoryWfFrom, Bool.and_eq_true, decide_eq_true_eq]
      exact ⟨⟨⟨by omega, hm.1.1.2⟩, hm.1.2⟩, hm.2⟩
    · split
      · rename_i hk'
        subst hk'
        exact consByte_wf m k b lo hm.2 hlo hk
      · simp only [memoryWfFrom, Bool.and_eq_true, decide_eq_true_eq]
        exact ⟨hm.1, ih (k' + 1) hm.2 (by omega)⟩

theorem writeByte_wf (m : Memory) (k : Nat) (b : Byte) (hk : k < 2 ^ 21) (h : m.wf = true) :
    Memory.wf (writeByte m k b) = true := writeByte_wfFrom m k b hk 0 h (Nat.zero_le k)

theorem lowLane_lt (a : Addr) : lowLane a < 2 ^ 21 := by
  have := a.isLt
  simp only [lowLane]; omega

theorem highLane_lt (a : Addr) : highLane a < 2 ^ 21 := by
  have := a.isLt
  simp only [highLane]; omega

/-- A write of a word keeps the canonical form. -/
theorem writeWord_wf (m : Memory) (a : Addr) (lanes : Lanes) (w : Word16) (h : m.wf = true) :
    Memory.wf (writeWord m a lanes w) = true := by
  simp only [writeWord]
  split <;> split <;>
    first
    | exact h
    | exact writeByte_wf _ _ _ (lowLane_lt a) h
    | exact writeByte_wf _ _ _ (highLane_lt a) h
    | exact writeByte_wf _ _ _ (highLane_lt a) (writeByte_wf _ _ _ (lowLane_lt a) h)

/-- A write of a word leaves every byte outside its enabled lanes as it was. -/
theorem readByte_writeWord_other (m : Memory) (a : Addr) (lanes : Lanes) (w : Word16) (k : Nat)
    (hl : lanes.low = true → k ≠ lowLane a) (hh : lanes.high = true → k ≠ highLane a) :
    readByte (writeWord m a lanes w) k = readByte m k := by
  simp only [writeWord]
  split
  · rename_i h1
    rw [readByte_writeByte_other _ _ _ _ (hh h1)]
    split
    · rename_i h2
      rw [readByte_writeByte_other _ _ _ _ (hl h2)]
    · rfl
  · split
    · rename_i h2
      rw [readByte_writeByte_other _ _ _ _ (hl h2)]
    · rfl

/-- The enabled low lane of a word just written reads back. -/
theorem readByte_writeWord_low (m : Memory) (a : Addr) (lanes : Lanes) (w : Word16) (h : m.wf = true)
    (hl : lanes.low = true) : readByte (writeWord m a lanes w) (lowLane a) = lowByte w := by
  simp only [writeWord, hl, if_true]
  split
  · rw [readByte_writeByte_other _ _ _ _ (by simp only [lowLane, highLane]; omega)]
    exact readByte_writeByte_same m _ _ 0 h
  · exact readByte_writeByte_same m _ _ 0 h

/-- The enabled high lane of a word just written reads back. -/
theorem readByte_writeWord_high (m : Memory) (a : Addr) (lanes : Lanes) (w : Word16) (h : m.wf = true)
    (hh : lanes.high = true) : readByte (writeWord m a lanes w) (highLane a) = highByte w := by
  simp only [writeWord, hh, if_true]
  split
  · exact readByte_writeByte_same _ _ _ 0 (writeByte_wf _ _ _ (lowLane_lt a) h)
  · exact readByte_writeByte_same m _ _ 0 h

/-- A whole word just written reads back. -/
theorem readWord_writeWord_same (m : Memory) (a : Addr) (w : Word16) (h : m.wf = true) :
    readWord (writeWord m a .both w) a = w := by
  simp only [readWord]
  rw [readByte_writeWord_high m a .both w h rfl, readByte_writeWord_low m a .both w h rfl]
  apply BitVec.eq_of_getLsbD_eq
  intro i hi
  simp only [BitVec.getLsbD_append, highByte, lowByte, BitVec.getLsbD_setWidth, BitVec.getLsbD_ushiftRight]
  by_cases h8 : i < 8
  · simp [h8]
  · have : i - 8 < 8 := by omega
    simp [h8, this, show 8 + (i - 8) = i by omega]

theorem performRequest_wf (r : Request) (m : Memory) (h : m.wf = true) : Memory.wf (performRequest r m) = true := by
  simp only [performRequest]
  split
  · exact h
  · exact writeWord_wf _ _ _ _ h

theorem tornMemory_wf (s : State) (h : s.mem.wf = true) : Memory.wf (tornMemory s) = true := by
  simp only [tornMemory]
  repeat' split
  · exact h
  · exact h
  · exact writeWord_wf _ _ _ _ h

theorem reset_mem_wf : State.reset.mem.wf = true := rfl

end Sys2Proof.Machine
end

