-- ==== Sys2Proof/Laws/Ops.lean ====
section
/-! SUPPORT. What each shared operation can do, said once, for a proof to cite in place of the operation's body. -/

namespace Sys2Proof.Machine

/-! ### The supply, and the takes of the management port -/

theorem whenPowered_powered {s : State} (h : s.supply.powered = true) (effect : State → State) :
    whenPowered s effect = .next (effect s) := by simp [whenPowered, h]

theorem whenPowered_unpowered {s : State} (h : s.supply.powered = false) (effect : State → State) :
    whenPowered s effect = .next s := by simp [whenPowered, h]

/-- A command without arguments is taken when the framer waits for a code. -/
theorem takeCommand_of_command {s : State} (hd : s.mount.device ≠ .resetHeld) (hf : s.framer.state = .command)
    (code : Byte) (take : List Byte → State → List Byte × State) :
    takeCommand code 0 none take s = respond code [] (take [] s).1 (take [] s).2 := by
  simp only [takeCommand]
  rw [if_pos]
  simp [portAnswers, hd, Framer.awaits, hf]

/-- A command with arguments is taken when the framer waits for its last one. -/
theorem takeCommand_of_last {s : State} {code : Byte} {count : Nat} (hd : s.mount.device ≠ .resetHeld)
    (hf : s.framer.state = .arguments) (hc : s.framer.code = some code) (hl : s.framer.args.length + 1 = count)
    (hn : count ≠ 0) (take : List Byte → State → List Byte × State) (b : Byte) :
    takeCommand code count (some b) take s =
      respond code (s.framer.args ++ [b]) (take (s.framer.args ++ [b]) s).1 (take (s.framer.args ++ [b]) s).2 := by
  simp only [takeCommand]
  rw [if_pos]
  simp [portAnswers, hd, Framer.awaits, hf, hc, hl, hn]

/-- A command that is not due changes nothing. -/
theorem takeCommand_not_due {s : State} {code : Byte} {count : Nat}
    (h : s.mount.device = .resetHeld ∨ s.framer.awaits code count = false) (last : Option Byte)
    (take : List Byte → State → List Byte × State) : takeCommand code count last take s = s := by
  simp only [takeCommand]
  rw [if_neg]
  rcases h with h | h <;> simp [portAnswers, h]

/-- A command on the volume is served in READY, and elsewhere answers with the state as it was (R143). -/
theorem onVolume_cases (serve : State → List Byte × State) (s : State) :
    (s.mount.device = .ready ∧ onVolume serve s = serve s) ∨
      (s.mount.device ≠ .ready ∧ ∃ r, onVolume serve s = ([r], s)) := by
  simp only [onVolume, volumeRefusal]
  cases h : s.mount.device <;> simp [resultOnly]

/-! ### The arbiter (R124) -/

/-- The five cases of the grant decision. -/
theorem decide_cases (p : Port) (share : Nat) :
    ((p.flight ≠ none ∨ (p.hostReq = none ∧ p.engineReq = none)) ∧ p.decide share = p) ∨
    (p.flight = none ∧ ∃ h, p.hostReq = some h ∧
      ((p.engineReq = none ∧ p.decide share = { p.grant h .host with hostReq := none }) ∨
        (p.engineReq ≠ none ∧ p.passCount < share ∧
          p.decide share = { p.grant h .host with hostReq := none, passCount := p.passCount + 1 }))) ∨
    (p.flight = none ∧ ∃ e, p.engineReq = some e ∧ (p.hostReq = none ∨ share ≤ p.passCount) ∧
      p.decide share = { p.grant e .engine with engineReq := none, passCount := 0 }) := by
  rcases hf : p.flight with _ | f <;> rcases hh : p.hostReq with _ | h <;> rcases he : p.engineReq with _ | e <;>
    simp [Port.decide, hf, hh, he]
  rcases Nat.lt_or_ge p.passCount share with hc | hc
  · simp [hc]
  · simp [Nat.not_lt.2 hc, hc]

/-- With an access in flight, or nothing waiting, the arbiter decides nothing. -/
theorem arbitrate_settled {s : State} (h : s.port.flight ≠ none ∨ (s.port.hostReq = none ∧ s.port.engineReq = none)) :
    arbitrate s = s := by
  simp only [arbitrate]
  rcases decide_cases s.port s.config.stealShare with ⟨_, h'⟩ | ⟨hf, r, hr, _⟩ | ⟨hf, r, hr, _⟩
  · rw [h']
  · rcases h with h | h
    · exact absurd hf h
    · rw [h.1] at hr
      cases hr
  · rcases h with h | h
    · exact absurd hf h
    · rw [h.2] at hr
      cases hr

/-- After a decision no request waits at an idle port. -/
theorem arbitrate_settles (s : State) :
    (arbitrate s).port.flight ≠ none ∨ ((arbitrate s).port.hostReq = none ∧ (arbitrate s).port.engineReq = none) := by
  simp only [arbitrate]
  rcases decide_cases s.port s.config.stealShare with ⟨h, h'⟩ | ⟨_, r, _, ⟨_, h'⟩ | ⟨_, _, h'⟩⟩ | ⟨_, r, _, _, h'⟩ <;>
    rw [h'] <;> simp_all [Port.grant]

/-- The engine requester asks for a word, or it has one in flight and nothing changes (R123). -/
theorem askEngine_cases (p : Port) (r : Request) :
    (p.engineInFlight = true ∧ p.askEngine r = p) ∨
      (p.engineInFlight = false ∧ p.askEngine r = { p with engineReq := some r }) := by
  cases h : p.engineInFlight <;> simp [Port.askEngine, h]

@[simp] theorem askEngine_of_idle {p : Port} (r : Request) (h : p.flight = none) :
    p.askEngine r = { p with engineReq := some r } := by
  simp [Port.askEngine, Port.engineInFlight, h]

/-- With an access in flight, what completes and to whom (R122). -/
theorem completeWordAccess_of_flight {s : State} {f : Flight} (h : s.port.flight = some f) :
    completeWordAccess s =
      arbitrate (deliver f s.port.underReset (requestWord f.request s.mem)
        { s with mem := performRequest f.request s.mem, port := s.port.idleAgain }) := by
  simp only [completeWordAccess, h]

/-! ### The access in service (R13, R17) -/

/-- A refusal ends the service; a read with a lane enabled drives FFFFh there. -/
theorem refuse_eq (a : Access) (notReady : Bool) (s : State) :
    refuse a notReady s =
      { s with host := { s.host with
          access := none, hold := .none
          hd := if a.kind = .write ∨ a.lanes.isEmpty = true then s.host.hd
                else some { data := 0xFFFF, lanes := a.lanes, notReady := notReady }
          returned := if a.kind = .write ∨ a.lanes.isEmpty = true then s.host.returned
                else some { data := 0xFFFF, lanes := a.lanes, notReady := notReady } } } := by
  simp only [refuse, driveHd, endService]
  cases a.kind <;> cases a.lanes.isEmpty <;> simp

/-- A completion leaves no access in service, and in RESET_HELD, or once RST# has been asserted under the access, no
word on HD but a NOT_READY read's (R2). -/
theorem completeHost_spec (underReset : Bool) (w : Word16) (s : State) :
    (completeHost underReset w s).host.access = none ∧
      (underReset = true ∨ s.mount.device = .resetHeld → (∀ d, s.host.hd = some d → d.notReady = true) →
        ∀ d, (completeHost underReset w s).host.hd = some d → d.notReady = true) := by
  simp only [completeHost]
  cases ha : s.host.access with
  | none => exact ⟨ha, fun _ h => h⟩
  | some a =>
    simp only
    cases a.kind with
    | write => exact ⟨rfl, fun _ h => h⟩
    | read =>
      refine ⟨?_, fun hd _ d => ?_⟩
      · simp only [driveHd]
        split <;> split <;> rfl
      · simp only [hd, if_true, HostPath.atReset, Option.bind_eq_some_iff]
        rintro ⟨d', _, h⟩
        split at h <;> simp_all

/-- A change of device state leaves a granted access in service, and refuses any other. -/
theorem releaseAccess_cases (s : State) :
    ((s.host.access = none ∨ s.port.hostGranted = true) ∧ releaseAccess s = s) ∨
      ∃ a, s.host.access = some a ∧ s.port.hostGranted = false ∧
        releaseAccess s = refuse a false (withdrawHost s) := by
  simp only [releaseAccess]
  cases ha : s.host.access with
  | none => simp
  | some a => cases hg : s.port.hostGranted <;> simp

/-! ### Events (R151, R152) -/

/-- A posting changes the latches and the queue only, and keeps what the queue held, in order. -/
theorem eventPost_queue (e : EventUnit) (enable : BitVec 6) (r : EventRecord) :
    (e.post enable r).tick = e.tick ∧ (e.post enable r).period = e.period ∧
      ((e.post enable r).queue = e.queue ∨
        (e.queue.length < queueDepth ∧ (e.post enable r).queue = e.queue ++ [r])) := by
  simp only [EventUnit.post]
  split
  · split
    · rename_i h
      exact ⟨rfl, rfl, .inr ⟨h, rfl⟩⟩
    · exact ⟨rfl, rfl, .inl rfl⟩
  · exact ⟨rfl, rfl, .inl rfl⟩

/-! ### Fills and copies (R39, R40, R65) -/

/-- A fill is ordered in one of three ways. -/
theorem orderFill_cases (e : Entry) (line : Nat) (s : State) :
    (s.group.running = none ∧ orderFill e line s = startFill (fillOf e line) s) ∨
      ∃ f, s.group.running = some f ∧
        ((f.entry = some e.page ∧ f.line = line ∧
            orderFill e line s = { s with group := { s.group with running := some { f with mergeWanted := true } } }) ∨
          (¬ (f.entry = some e.page ∧ f.line = line) ∧
            orderFill e line s = { s with group := { s.group with waiting := some (fillOf e line) } })) := by
  simp only [orderFill]
  cases hr : s.group.running with
  | none => simp
  | some f =>
    refine .inr ⟨f, rfl, ?_⟩
    simp only
    by_cases h : f.entry = some e.page ∧ f.line = line
    · exact .inl ⟨h.1, h.2, if_pos h⟩
    · exact .inr ⟨h, if_neg h⟩

theorem firstLine_none (present : BitVec 16) :
    firstLine present = none ↔ ∀ l < 16, present.getLsbD l = true := by
  simp only [firstLine, List.find?_eq_none, List.mem_range]
  simp

theorem firstLine_some (present : BitVec 16) (l : Nat) :
    firstLine present = some l ↔
      l < 16 ∧ present.getLsbD l = false ∧ ∀ k < l, present.getLsbD k = true := by
  simp only [firstLine, List.find?_range_eq_some]
  simp
  tauto

/-- Marking a line keeps every entry's page and frames. -/
theorem markPresent_frames (table : List Entry) (page line : Nat) :
    (markPresent table page line).map Entry.page = table.map Entry.page ∧
    (markPresent table page line).map Entry.shadow = table.map Entry.shadow ∧
    (markPresent table page line).map Entry.superseded = table.map Entry.superseded := by
  simp only [markPresent, List.map_map]
  refine ⟨?_, ?_, ?_⟩ <;> apply List.map_congr_left <;> intro e _ <;> simp only [Function.comp] <;> split <;> rfl

/-! ### Aborts (R47, R66) -/

/-- The three outcomes of a commit request taken in READY that are no commit, and the two that are (R61). -/
theorem commitAnswer_ok (s : State) (kind : CommitKind) :
    commitAnswer s = .ok kind ↔
      (s.group.state = .opened ∧ kind = .group) ∨
        (s.group.state = .idle ∧ s.guards.staged ≠ none ∧ kind = .guardOnly) := by
  simp only [commitAnswer]
  cases s.group.state <;> cases hs : s.guards.staged <;> cases kind <;> simp

/-- What a rerouting can be: nothing, or the access served or routed once more. -/
theorem reroute_cases (table : List Entry) (waited : Bool) (s : State) :
    reroute table waited s = s ∨
      ∃ a, s.host.access = some a ∧
        (reroute table waited s = serveAccess a s ∨ reroute table waited s = routeWrite a s ∨
          reroute table waited s = serveAtomic a (withdrawHost s)) := by
  simp only [reroute]
  cases ha : s.host.access with
  | none => simp
  | some a =>
    simp only
    cases s.host.hold with
    | commitHold => exact .inr ⟨a, rfl, .inl rfl⟩
    | lineFill => cases waited <;> simp
    | none =>
      cases s.port.hostReq with
      | none => simp
      | some r =>
        simp only
        split
        · exact .inr ⟨a, rfl, .inr (.inr rfl)⟩
        · exact .inl rfl

/-! ### Loading (R30) -/

theorem mem_freeFrames (g : Geometry) (map : List Nat) (f : Nat) :
    f ∈ g.freeFrames map ↔ f ∈ g.poolFrames ∧ f ∉ map := by
  simp [Geometry.freeFrames]

theorem mem_poolFrames (g : Geometry) (f : Nat) : f ∈ g.poolFrames ↔ g.inPool f = true := by
  simp only [Geometry.poolFrames, Geometry.inPool, List.mem_range'_1, Bool.and_eq_true, decide_eq_true_eq]
  omega

end Sys2Proof.Machine
end

