-- ==== Sys2Proof/Laws/PerInstr.lean ====
section
/-! SUPPORT. Statements made for every command, one lemma per constructor. -/

namespace Sys2Proof.Laws

/-- No word spells the command: spec/opcode_table.json gives no row any bits. -/
def NoWordSpells.Statement (i : Instr) : Prop := ∀ nbits w : Nat, decodeTableWord nbits w ≠ some i

theorem NoWordSpells.powerOn (pfail rst scs : Bool) : NoWordSpells.Statement (.powerOn pfail rst scs) := by
  intro _ _ h
  cases h

theorem NoWordSpells.endOfPowerOn : NoWordSpells.Statement (.endOfPowerOn) := by
  intro _ _ h
  cases h

theorem NoWordSpells.rstAssert : NoWordSpells.Statement (.rstAssert) := by
  intro _ _ h
  cases h

theorem NoWordSpells.rstRelease : NoWordSpells.Statement (.rstRelease) := by
  intro _ _ h
  cases h

theorem NoWordSpells.pfailAssert : NoWordSpells.Statement (.pfailAssert) := by
  intro _ _ h
  cases h

theorem NoWordSpells.pfailRelease : NoWordSpells.Statement (.pfailRelease) := by
  intro _ _ h
  cases h

theorem NoWordSpells.hostAccessTake (address : Addr) (hoe hwe hlb hub : Bool) (hd : Word16) : NoWordSpells.Statement (.hostAccessTake address hoe hwe hlb hub hd) := by
  intro _ _ h
  cases h

theorem NoWordSpells.hostCycleEnd : NoWordSpells.Statement (.hostCycleEnd) := by
  intro _ _ h
  cases h

theorem NoWordSpells.memoryWordAccessComplete : NoWordSpells.Statement (.memoryWordAccessComplete) := by
  intro _ _ h
  cases h

theorem NoWordSpells.completeEnd : NoWordSpells.Statement (.completeEnd) := by
  intro _ _ h
  cases h

theorem NoWordSpells.switch : NoWordSpells.Statement (.switch) := by
  intro _ _ h
  cases h

theorem NoWordSpells.cmt : NoWordSpells.Statement (.cmt) := by
  intro _ _ h
  cases h

theorem NoWordSpells.mountStart : NoWordSpells.Statement (.mountStart) := by
  intro _ _ h
  cases h

theorem NoWordSpells.formatWritesStart : NoWordSpells.Statement (.formatWritesStart) := by
  intro _ _ h
  cases h

theorem NoWordSpells.tick : NoWordSpells.Statement (.tick) := by
  intro _ _ h
  cases h

theorem NoWordSpells.deadlineAbort : NoWordSpells.Statement (.deadlineAbort) := by
  intro _ _ h
  cases h

theorem NoWordSpells.hrstPulseEnd : NoWordSpells.Statement (.hrstPulseEnd) := by
  intro _ _ h
  cases h

theorem NoWordSpells.frameBegin : NoWordSpells.Statement (.frameBegin) := by
  intro _ _ h
  cases h

theorem NoWordSpells.frameEnd : NoWordSpells.Statement (.frameEnd) := by
  intro _ _ h
  cases h

theorem NoWordSpells.badCmd (code : Byte) : NoWordSpells.Statement (.badCmd code) := by
  intro _ _ h
  cases h

theorem NoWordSpells.status : NoWordSpells.Statement (.status) := by
  intro _ _ h
  cases h

theorem NoWordSpells.configRead : NoWordSpells.Statement (.configRead) := by
  intro _ _ h
  cases h

theorem NoWordSpells.configWrite (last : Byte) : NoWordSpells.Statement (.configWrite last) := by
  intro _ _ h
  cases h

theorem NoWordSpells.eventPop : NoWordSpells.Statement (.eventPop) := by
  intro _ _ h
  cases h

theorem NoWordSpells.eventAck (last : Byte) : NoWordSpells.Statement (.eventAck last) := by
  intro _ _ h
  cases h

theorem NoWordSpells.commit : NoWordSpells.Statement (.commit) := by
  intro _ _ h
  cases h

theorem NoWordSpells.abort : NoWordSpells.Statement (.abort) := by
  intro _ _ h
  cases h

theorem NoWordSpells.groupList (last : Byte) : NoWordSpells.Statement (.groupList last) := by
  intro _ _ h
  cases h

theorem NoWordSpells.mapQuery (last : Byte) : NoWordSpells.Statement (.mapQuery last) := by
  intro _ _ h
  cases h

theorem NoWordSpells.guardRead (last : Byte) : NoWordSpells.Statement (.guardRead last) := by
  intro _ _ h
  cases h

theorem NoWordSpells.guardStage (last : Byte) : NoWordSpells.Statement (.guardStage last) := by
  intro _ _ h
  cases h

theorem NoWordSpells.guardDiscard : NoWordSpells.Statement (.guardDiscard) := by
  intro _ _ h
  cases h

theorem NoWordSpells.format (last : Byte) : NoWordSpells.Statement (.format last) := by
  intro _ _ h
  cases h

theorem NoWordSpells.remount : NoWordSpells.Statement (.remount) := by
  intro _ _ h
  cases h

theorem NoWordSpells.byteArrives (byte : Byte) : NoWordSpells.Statement (.byteArrives byte) := by
  intro _ _ h
  cases h

theorem NoWordSpells.readDataRelease (line : ReleaseLine) : NoWordSpells.Statement (.readDataRelease line) := by
  intro _ _ h
  cases h

theorem NoWordSpells.supplyFailure : NoWordSpells.Statement (.supplyFailure) := by
  intro _ _ h
  cases h

end Sys2Proof.Laws
end

