-- ==== Sys2Proof/Tests/Slice0.lean ====
section
/-! SUPPORT. Tests on small states, expected values from the manual; and for each statement with hypotheses a witness:
a state and operands that meet each of its clauses' hypotheses together. -/

namespace Sys2Proof.Tests

open Sys2Proof.Machine Sys2Proof.Claims

/-! ### Small states -/

/-- Size code 1, D 988, P 2: the smallest pool Table 0-2 allows, frames 1020 to 1023. -/
def smallGeometry : Geometry := { sizeCode := 1, d := 988, p := 2 }

/-- Powered, out of RESET_HELD, in a device state. -/
def inState (device : DeviceState) : State :=
  { State.reset with
    supply := { powered := true, powerOnEnded := true, pfail := false, rst := false, origin := none }
    mount := { MountEngine.cleared with device := device, cause := some .power }
    events := { EventUnit.cleared with period := some 32768 } }

/-- Guards: entry 0 in mode ALL over pages 5 and 6, entry 1 in mode WRITE over page 987. -/
def someGuards : List Guard :=
  [{ first := 5, last := 6, mode := .all }, { first := 987, last := 987, mode := .write }] ++
    List.replicate 6 { first := 0, last := 0, mode := .off }

/-- READY from slot A with the small geometry, as a format leaves it, with guards. -/
def ready : State :=
  { inState .ready with
    xlate := { geometry := some smallGeometry, map := [1020, 1021], generation := 1, activeSlot := some .a }
    pool := [1022, 1023]
    guards := { current := someGuards, staged := none, pulse := none } }

/-- The entry of page 988: line 0 present in shadow frame 1022. -/
def entry0 : Entry := { page := 988, shadow := 1022, superseded := 1020, present := 1 }

/-- READY with a group of one entry, in a group state. -/
def withGroup (state : GroupState) : State :=
  { ready with
    pool := [1023]
    group := { idleGroup none with state := state, table := [entry0], openStamp := some 7, deadline := some 0 } }

/-- Word n of page 988, 989, 990: the edges of the atomic window. -/
def word988 : Addr := 0x3DC00
def line988 : Addr := 0x3DC10
def word989 : Addr := 0x3DD00
def word990 : Addr := 0x3DE00

/-- An access of class ATOMIC to page 988, line 1. -/
def held988 (kind : AccessKind) : Access :=
  { address := line988, kind := kind, lanes := { low := true, high := true }
    data := if kind = .write then some 0xABCD else none, cls := .atomic }

/-- The fill of line 1 of page 988, at a word. -/
def fill988 (word : Nat) (held : Option Word16) : Fill :=
  { entry := some 988, line := 1, source := 1020, target := 1022, mergeWanted := true, word := word, held := held }

/-- A word access in flight. -/
def flyingRequest (kind : AccessKind) : Request :=
  engineWord kind 0x00000 (if kind = .write then some 0x1234 else none)

def flying (kind : AccessKind) (who : Requester) (s : State) : State :=
  { s with port := { s.port with
      flight := some { request := flyingRequest kind, requester := who, live := true } } }

/-- The framer in COMMAND: a frame has begun. -/
def framed (s : State) : State := { s with framer := { s.framer with state := .command, scsLow := true } }

/-- The framer waits for a byte of the arguments of a command. -/
def collecting (code : Byte) (args : List Byte) (s : State) : State :=
  { s with framer := { s.framer with state := .arguments, code := some code, args := args, scsLow := true } }

/-- The state that a command answers; `s` itself if it answered none. -/
def after (c : Instr) (s : State) : State :=
  match exec c s with
  | .next t => t
  | .fault _ => s
  | .refused _ => s

/-! ### The checks of WellFormed refuse -/

theorem test_wf_host_access_without_strobe :
    (Instr.hostAccessTake 0 false false true true 0).wellFormed = false := by decide

theorem test_wf_bad_cmd_with_a_code_that_names_a_command :
    (Instr.badCmd 0x41).wellFormed = false ∧ (Instr.badCmd 0x42).wellFormed = true := by decide

/-- The checker's list of codes is the framer's (Table 12-2). -/
theorem test_codes_agree : ∀ code : Byte, namesCommand code = (argumentCount code).isSome := by decide +kernel

/-! ### Worked examples of the manual -/

/-- R83: the check code of the bytes 31h to 39h is CBF43926h. -/
theorem test_check_code_of_123456789 :
    crcFinal ([0x31, 0x32, 0x33, 0x34, 0x35, 0x36, 0x37, 0x38, 0x39].foldl crcByte crcStart) = 0xCBF43926 := by
  decide +kernel

/-- R83: the check code of the one byte 00h is D202EF8Dh. -/
theorem test_check_code_of_00 : crcFinal (crcByte crcStart 0x00) = 0xD202EF8D := by decide

/-- Section 12.2: after power-on CONFIG_READ returns 00h 00h 1Fh 04h 00h 3Bh. -/
theorem test_config_read_default :
    (after .configRead (framed (inState .unformatted))).framer.response =
      [0x00, 0x00, 0x00, 0x1F, 0x04, 0x00, 0x3B] := by decide

/-- Section 12.3: the record of a GUARDED_WRITE at 0A000h, stamp 1234, generation 2. -/
theorem test_event_pop_example :
    (after .eventPop (framed { inState .ready with events := { EventUnit.cleared with queue :=
      [{ kind := .guardedWrite, stamp := 1234, generation := 2, address := some 0x0A000, page := none,
         detail := none }] } })).framer.response =
      [0x00, 0x02, 0x01, 0x04, 0xD2, 0x00, 0x02, 0x00, 0xA0, 0x00, 0x00] := by decide

/-- Section 12.3: the detail of a MOUNT_READY with cause SUPPLY_RETURN and slot B. -/
theorem test_mount_ready_detail : mountDetail (some .supplyReturn) .b = 0x32 := by decide

/-- An image of a geometry and a generation. -/
def imageWith (p generation : Nat) : Image :=
  { geometry := { sizeCode := 1, d := 64, p := p }, generation := BitVec.ofNat 32 generation, guards := [],
    entries := [] }

/-- Table 5-3, and a pair of unequal geometries. -/
theorem test_generation_pairs :
    choosePair (imageWith 512 1) (imageWith 512 2) = .ready .b (imageWith 512 2) ∧
    choosePair (imageWith 512 8) (imageWith 512 7) = .ready .a (imageWith 512 8) ∧
    choosePair (imageWith 512 4294967295) (imageWith 512 0) = .ready .b (imageWith 512 0) ∧
    choosePair (imageWith 512 0) (imageWith 512 4294967295) = .ready .a (imageWith 512 0) ∧
    choosePair (imageWith 512 5) (imageWith 512 5) = .faulted .mismatch ∧
    choosePair (imageWith 512 5) (imageWith 512 7) = .faulted .mismatch ∧
    choosePair (imageWith 512 1) (imageWith 511 2) = .faulted .mismatch := by decide

/-- The canonical geometry, READY, with the guards of Table 1-4. -/
def canonical : State :=
  { inState .ready with
    xlate := { geometry := some { sizeCode := 1, d := 64, p := 512 }, map := [], generation := 1,
               activeSlot := some .a }
    guards := { current := [{ first := 70, last := 79, mode := .write }, { first := 10, last := 11, mode := .all }]
                staged := none, pulse := none } }

/-- Table 1-4. -/
theorem test_classification_example :
    classify canonical (pageOf 0x00A00) .read = .guarded ∧ classify canonical (pageOf 0x00B40) .write = .guarded ∧
    classify canonical (pageOf 0x04600) .read = .atomic ∧ classify canonical (pageOf 0x04F2E) .write = .guarded ∧
    classify canonical (pageOf 0x05000) .write = .atomic ∧ classify canonical (pageOf 0x00C00) .read = .direct ∧
    classify canonical (pageOf 0x30000) .write = .unbacked := by decide

/-- Section 6.6: the entries of the format with D 128 and P 256 are 160 to 415, and the free list 416 to 1023. -/
theorem test_format_example :
    (freshMap { sizeCode := 1, d := 128, p := 256 })[0]? = some 160 ∧
    (freshMap { sizeCode := 1, d := 128, p := 256 })[255]? = some 415 ∧
    ({ sizeCode := 1, d := 128, p := 256 } : Geometry).ok = true := by
  refine ⟨?_, ?_, by decide⟩ <;> simp [freshMap]

/-- R158: mode 3, a nonzero unused bit, or a first page after the last is not well-formed; the fields come back. -/
theorem test_guard_words :
    decodeGuard 0x8046 0x004F = some { first := 70, last := 79, mode := .all } ∧ decodeGuard 0xC046 0x004F = none ∧
    decodeGuard 0x5046 0x004F = none ∧ decodeGuard 0x4046 0x104F = none ∧ decodeGuard 0x4046 0x0045 = none ∧
    ({ first := 70, last := 79, mode := .write } : Guard).word0 = 0x4046 := by decide

/-- A write of the low lane leaves the high one. -/
theorem test_write_low_lane : readWord (writeWord (writeWord [] 5 .both 0x1234) 5 ⟨true, false⟩ 0xABCD) 5 = 0x12CD := by
  decide

/-- No word spells a command. -/
theorem test_no_word_spells_a_command : decodeTableWord 16 0x4D4A = none := by decide

/-! ### From power-on to MOUNTING -/

/-- R135: the end of power-on with PFAIL# released begins a mount of cause POWER; the first read is of 00000h. -/
theorem test_mount_begins :
    (after .endOfPowerOn State.reset).mount.run = .waiting ∧
    (after .mountStart (after .endOfPowerOn State.reset)).port.ma = 0 ∧
    (after .mountStart (after .endOfPowerOn State.reset)).moeLine = true := by decide

/-- R59: a rising edge on CMT with nothing to commit leaves COMMIT_REFUSED, reason NO_GROUP. -/
theorem test_cmt_refused :
    ((after .cmt ready).events.latches, (after .cmt ready).commit.latch) = (0x04, false) := by decide

/-! ### Witnesses: each clause's hypotheses are met together -/

theorem witness_StepRunsTheFrontCommand : State.reset.pending = [] := by decide

/-- A part whose supply has failed. -/
def unpowered : State := loseSupply State.reset

theorem witness_PowerOnEntersResetHeld :
    unpowered.supply.powered = false ∧ Powered State.reset ∧ exec .supplyFailure State.reset = .next unpowered :=
  ⟨rfl, rfl, rfl⟩

/-- Byte 0 is written, bytes 1 and 2 are not, by a write of the low lane of word 0. -/
theorem witness_SupplyFailureLosesVolatileState :
    (unpowered.supply.powered = false ∧ ∀ pfail rst scs, Instr.tick ≠ .powerOn pfail rst scs) ∧
    Powered (flying .write .engine ready) ∧
    ∀ f, (flying .write .engine ready).port.flight = some f → WritesByte f.request 1 ∧ ¬ WritesByte f.request 2 := by
  refine ⟨⟨rfl, by simp⟩, rfl, ?_⟩
  intro f h
  cases h
  decide

theorem witness_RstAssertEntersResetHeld :
    Powered (flying .write .engine ready) ∧ (flying .write .engine ready).mount.device ≠ .resetHeld := by decide

/-- RESET_HELD with given levels. -/
def resetHeld (origin : ResetOrigin) (pfail rst ended : Bool) : State :=
  { State.reset with
    supply := { powered := true, powerOnEnded := ended, pfail := pfail, rst := rst, origin := some origin } }

theorem witness_ResetHeldEndsByThePfailLevel :
    (Powered (resetHeld .pin false true true) ∧ (resetHeld .pin false true true).mount.device = .resetHeld ∧
      (resetHeld .pin false true true).supply.rst = true ∧
      (resetHeld .pin false true true).supply.powerOnEnded = true ∧
      (resetHeld .pin false true true).supply.pfail = false ∧
      (resetHeld .pin false true true).supply.origin = some .pin) ∧
    (Powered (resetHeld .power true false false) ∧ (resetHeld .power true false false).mount.device = .resetHeld ∧
      (resetHeld .power true false false).supply.rst = false ∧
      (resetHeld .power true false false).supply.powerOnEnded = false ∧
      (resetHeld .power true false false).supply.pfail = true) ∧
    ((resetHeld .power false false false).supply.pfail = false ∧
      (resetHeld .power false false false).supply.origin = some .power) := by decide

theorem witness_PfailAssertHalts :
    (Powered ready ∧ ready.mount.device ≠ .resetHeld ∧ ready.mount.device ≠ .halted) ∧
    (Powered (inState .halted) ∧ (inState .halted).mount.device = .halted) ∧
    (Powered State.reset ∧ State.reset.mount.device = .resetHeld) := by decide

theorem witness_PfailReleaseMounts :
    (Powered (inState .halted) ∧ (inState .halted).mount.device = .halted) ∧
    (Powered (resetHeld .power false true false) ∧ (resetHeld .power false true false).mount.device = .resetHeld ∧
      (resetHeld .power false true false).supply.powerOnEnded = false ∧
      (resetHeld .power false true false).supply.rst = true) := by decide

theorem witness_NotReadyAccessIsRefusedSilently :
    ∀ s ∈ [State.reset, inState .mounting, inState .formatting, inState .halted],
      Powered s ∧ s.host.cycleTaken = false ∧ PortSettled s ∧ (s.mount.device = .resetHeld ∨ BusyDevice s) := by decide

theorem witness_RawAccessGoesToTheIdenticalAddress :
    ∀ s ∈ [inState .unformatted, inState .faulted],
      Powered s ∧ s.host.cycleTaken = false ∧ PortSettled s ∧ RawDevice s := by decide

/-- Page 990 is the first unbacked one; page 5 refuses both kinds, page 987 a write. -/
theorem witness_HitsAreRefusedPostedAndFollowTheGuardAction :
    (Powered ready ∧ ready.host.cycleTaken = false ∧ PortSettled ready ∧ Mounted ready smallGeometry) ∧
    smallGeometry.d + smallGeometry.p ≤ pageNo word990 ∧
    (pageNo 0x00500 < smallGeometry.d + smallGeometry.p ∧ Refuses ready.guards.current (pageNo 0x00500) false) ∧
    Refuses ready.guards.current (pageNo 0x3DB00) true := by decide

/-- Page 987 is the last direct one. -/
theorem witness_DirectAccessAndEmptyLanes :
    (Powered ready ∧ ready.host.cycleTaken = false ∧ Mounted ready smallGeometry ∧ PortSettled ready ∧
      pageNo 0x3DBFF < smallGeometry.d ∧ ¬ Refuses ready.guards.current (pageNo 0x3DBFF) false) ∧
    (pageNo word989 < smallGeometry.d + smallGeometry.p ∧ ¬ Refuses ready.guards.current (pageNo word989) true) ∧
    (Powered (inState .unformatted) ∧ PortSettled (inState .unformatted) ∧
      (inState .unformatted).mount.device = .unformatted) ∧ (inState .faulted).mount.device = .faulted := by decide

/-- The first and the last page of the atomic window. -/
theorem witness_AtomicReadIsRoutedByLine :
    Powered (withGroup .opened) ∧ (withGroup .opened).host.cycleTaken = false ∧
    AtomicPlace (withGroup .opened) smallGeometry word988 false ∧
    AtomicPlace (withGroup .opened) smallGeometry word989 false := by decide

theorem witness_AtomicWriteOpensAGroup :
    Powered ready ∧ ready.host.cycleTaken = false ∧ AtomicPlace ready smallGeometry word989 true ∧
    ready.group.state = .idle ∧ ready.group.table = [] ∧ ready.pool = 1022 :: [1023] := by decide

theorem witness_AtomicWriteInAnOpenGroup :
    (Powered (withGroup .opened) ∧ (withGroup .opened).host.cycleTaken = false ∧
      (withGroup .opened).group.state = .opened) ∧
    (AtomicPlace (withGroup .opened) smallGeometry word988 true ∧
      entryOf (withGroup .opened) (pageNo word988) = some entry0 ∧ entry0.present.getLsbD (lineNo word988) = true) ∧
    (AtomicPlace (withGroup .opened) smallGeometry line988 true ∧
      entryOf (withGroup .opened) (pageNo line988) = some entry0 ∧ entry0.present.getLsbD (lineNo line988) = false) ∧
    (AtomicPlace (withGroup .opened) smallGeometry word989 true ∧
      entryOf (withGroup .opened) (pageNo word989) = none ∧ (withGroup .opened).group.table.length < 32 ∧
      (withGroup .opened).pool = 1023 :: []) := by decide

/-- A group with a table and a free list. -/
def crowded (table : List Entry) (pool : List Nat) : State :=
  { withGroup .opened with pool := pool, group := { (withGroup .opened).group with table := table } }

/-- The table is full at 32 entries; with 31 and no free frame the free list is what fails. -/
theorem witness_AtomicWriteRefusedOrHeldForACommit :
    (∀ s ∈ [crowded (List.replicate 32 entry0) [], crowded (List.replicate 31 entry0) [], withGroup .failed,
        withGroup (.committing .mark)],
      Powered s ∧ s.host.cycleTaken = false ∧ AtomicPlace s smallGeometry word989 true ∧ PortSettled s ∧
        entryOf s (pageNo word989) = none) ∧
    (crowded (List.replicate 32 entry0) []).group.table.length = 32 ∧
    (crowded (List.replicate 31 entry0) []).group.table.length = 31 ∧
    (crowded (List.replicate 31 entry0) []).pool = [] := by decide +kernel

theorem witness_OneAccessInEachHostCycle :
    ({ ready with host := { ready.host with cycleTaken := true } } : State).host.cycleTaken = true := by decide

/-- READY with an access in service. -/
def serving (hold : HoldReason) (kind : AccessKind) (s : State) : State :=
  { s with host := { HostPath.cleared with cycleTaken := true, access := some (held988 kind), hold := hold } }

/-- A running fill and a waiting one. -/
def filling (running waiting : Option Fill) (s : State) : State :=
  { s with group := { s.group with running := running, waiting := waiting } }

theorem witness_HostCycleEndAndReadDataRelease :
    (Powered ready ∧ ready.host.access = none) ∧
    (∀ hold ∈ [HoldReason.none, .commitHold], Powered (serving hold .write ready) ∧
      (serving hold .write ready).host.access = some (held988 .write) ∧ (serving hold .write ready).host.hold = hold) ∧
    (∀ waiting ∈ [none, some (fill988 0 none)],
      let s := serving .lineFill .write (filling (some (fill988 3 none)) waiting (withGroup .opened))
      Powered s ∧ s.host.access = some (held988 .write) ∧ s.host.hold = .lineFill ∧ s.group.waiting = waiting) := by
  decide

theorem witness_HostWordCompletes :
    (∀ kind ∈ [AccessKind.read, .write],
      let s := flying kind .host (serving .none kind ready)
      Powered s ∧ s.host.access = some (held988 kind) ∧ InFlight s (flyingRequest kind) .host ∧
        (flyingRequest kind).kind = kind ∧ (held988 kind).kind = kind) ∧
    (let s := flying .read .host (serving .none .read State.reset);
      s.mount.device = .resetHeld ∧ s.host.access = some (held988 .read) ∧
        InFlight s (flyingRequest .read) .host) ∧
    (flyingRequest .write).data = some 0x1234 := by decide

/-- A read and a write in flight that HOST_CYCLE_END has given up: no access is in service. -/
theorem witness_HostWordCompletes_for_nobody :
    ∀ kind ∈ [AccessKind.read, .write],
      let t := after .hostCycleEnd (flying kind .host (serving .none kind ready))
      Powered t ∧ t.host.access = none ∧
        t.port.flight = some { request := flyingRequest kind, requester := .host, live := false } ∧
        (flyingRequest kind).kind = kind := by decide

/-- R2: a granted read that completes under RST#, or after its release, returns its word, and HD is high-impedance; a
read held and not granted returns FFFFh at the assertion, and HD is high-impedance. -/
theorem test_hd_under_rst :
    (let t := after .memoryWordAccessComplete (after .rstAssert (flying .read .host (serving .none .read ready)));
      t.host.hd = none ∧ t.host.access = none ∧
        t.host.returned = some { data := 0xFFFF, lanes := { low := true, high := true }, notReady := false }) ∧
    (let u := after .rstRelease (after .endOfPowerOn (after .rstAssert (flying .read .host (serving .none .read ready))));
      let t := after .memoryWordAccessComplete u;
      u.mount.device = .mounting ∧ t.host.hd = none ∧ t.host.access = none ∧
        t.host.returned = some { data := 0xFFFF, lanes := { low := true, high := true }, notReady := false }) ∧
    (let t := after .rstAssert (serving .lineFill .read ready);
      t.host.hd = none ∧ t.host.access = none ∧ t.host.hold = .none ∧ t.host.returned ≠ none) := by decide

theorem witness_LineFillCopiesWordByWord :
    (let s := flying .read .engine (filling (some (fill988 15 none)) none (withGroup .opened));
      Powered s ∧ InFlight s (flyingRequest .read) .engine ∧ s.group.running = some (fill988 15 none) ∧
        (fill988 15 none).held = none ∧ (flyingRequest .read).kind = .read) ∧
    (let s := flying .write .engine (filling (some (fill988 14 (some 9))) none (withGroup .opened));
      Powered s ∧ InFlight s (flyingRequest .write) .engine ∧ s.group.running = some (fill988 14 (some 9)) ∧
        (fill988 14 (some 9)).held = some 9 ∧ (fill988 14 (some 9)).word < 15 ∧ (flyingRequest .write).kind = .write ∧
        (flyingRequest .write).data = some 0x1234) := by decide

/-- The last write of a fill is in flight. -/
def lastWord (f : Fill) (waiting : Option Fill) (s : State) : State :=
  flying .write .engine (filling (some f) waiting s)

theorem witness_LineFillEnds :
    let f := fill988 15 (some 9)
    let dropped : Fill := { f with mergeWanted := false }
    let orphan : Fill := { f with entry := none }
    (∀ s ∈ [lastWord f none (serving .lineFill .write (withGroup .opened)), lastWord dropped none (withGroup .failed),
        lastWord dropped (some (fill988 0 none)) (withGroup .opened),
        lastWord orphan none (serving .lineFill .write ready),
        lastWord f none (serving .lineFill .write (withGroup (.committing .complete))),
        lastWord { orphan with mergeWanted := false } none ready,
        lastWord orphan none (serving .lineFill .write (withGroup (.committing .retire)))],
      Powered s ∧ InFlight s (flyingRequest .write) .engine) ∧
    (f.held = some 9 ∧ f.word = 15 ∧ f.entry = some 988 ∧ f.mergeWanted = true) ∧
    (let s := lastWord f none (serving .lineFill .write (withGroup .opened));
      s.group.running = some f ∧ s.host.access = some (held988 .write) ∧ s.host.hold = .lineFill ∧
        s.group.waiting = none ∧ s.group.state = .opened) ∧
    (let s := lastWord dropped none (withGroup .failed);
      s.group.running = some dropped ∧ s.group.waiting = none ∧ s.group.state = .failed) ∧
    (let s := lastWord dropped (some (fill988 0 none)) (withGroup .opened);
      s.group.running = some dropped ∧ s.group.waiting = some (fill988 0 none)) ∧
    (let s := lastWord orphan none (serving .lineFill .write ready);
      s.group.running = some orphan ∧ s.host.access = some (held988 .write) ∧ s.host.hold = .lineFill ∧
        s.xlate.geometry = some smallGeometry ∧ s.group.state = .idle ∧ s.group.table = [] ∧ s.group.waiting = none ∧
        s.pool = 1022 :: [1023]) ∧
    (let s := lastWord f none (serving .lineFill .write (withGroup (.committing .complete)));
      s.group.running = some f ∧ s.host.access = some (held988 .write) ∧ s.host.hold = .lineFill) ∧
    (let s := lastWord orphan none (serving .lineFill .write (withGroup (.committing .retire)));
      s.group.running = some orphan ∧ s.host.access = some (held988 .write) ∧ s.host.hold = .lineFill ∧
        s.group.state = .committing .retire) := by decide

/-- A commit record of kind GROUP. -/
def someRecord (word : Nat) (heldWord : Option Word16) (body : Option CommitBody) (pos : Option Nat) : CommitRecord :=
  { kind := .group, target := .b, source := .current, pageCount := 1, copyEntry := 0, copyLine := 1, copyWord := word
    copyHeld := heldWord, body := body, writePos := pos }

/-- A commit in a phase. -/
def committing (phase : Phase) (r : CommitRecord) : State :=
  { withGroup (.committing phase) with commit := { latch := false, record := some r } }

theorem witness_CompleteCopiesEachAbsentLine :
    (∀ r ∈ [someRecord 15 none none (some 0), someRecord 14 (some 9) none (some 0),
        someRecord 15 (some 9) none (some 0)],
      let s := flying (if r.copyHeld = none then .read else .write) .engine (committing .complete r)
      Powered s ∧ s.mount.device = .ready ∧ s.group.running = none ∧ s.group.state = .committing .complete ∧
        s.commit.record = some r ∧ s.group.table[r.copyEntry]? = some entry0 ∧
        InFlight s (flyingRequest (if r.copyHeld = none then .read else .write)) .engine) ∧
    (flyingRequest .read).kind = .read ∧ (flyingRequest .write).kind = .write ∧
    (flyingRequest .write).data = some 0x1234 := by decide

/-- What WRITE fixes. -/
def someBody : CommitBody := { generation := 2, stamp := 0, acc := 0xFFFFFFFF }

/-- With P 2 the order is 1 to 25, 28, 29, 26, 27. -/
theorem witness_CommitWritesTheImageInOrder :
    (∀ s ∈ [committing .retire (someRecord 0 none none (some 0)),
        committing .write (someRecord 0 none (some someBody) (some 25)),
        committing .write (someRecord 0 none (some someBody) (some 27)),
        committing .mark (someRecord 0 none (some someBody) (some 0))],
      Powered (flying .write .engine s) ∧ Mounted (flying .write .engine s) smallGeometry ∧
        (flying .write .engine s).group.running = none ∧ (flying .write .engine s).commit.record ≠ none ∧
        InFlight (flying .write .engine s) (flyingRequest .write) .engine) ∧
    (writeOrder smallGeometry.p)[24]? = some 25 ∧ (writeOrder smallGeometry.p)[25]? = some 28 ∧
    (writeOrder smallGeometry.p)[26]? = some 29 ∧ (writeOrder smallGeometry.p)[27]? = some 26 := by decide

/-- MOUNTING, with words of a slot read and the next read in flight. -/
def readingSlot (slot : Slot) (va : Option Verdict) (words : List Word16) : State :=
  flying .read .engine
    { inState .mounting with
      mount := { (inState .mounting).mount with run := .reading slot va words 0xFFFFFFFF } }

/-- 26 words read: the one in flight makes 27, so one more follows. 27 words read: the slot ends, and being blank has
no entries. -/
theorem witness_MountReadsSlotAThenSlotB :
    (∀ n ∈ [26, 27],
      let s := readingSlot .a none (List.replicate n 0)
      Powered s ∧ s.mount.device = .mounting ∧ s.group.running = none ∧ InFlight s (flyingRequest .read) .engine ∧
        s.mount.run = .reading .a none (List.replicate n 0) 0xFFFFFFFF) ∧
    (List.replicate 26 (0 : Word16) ++ [0xFFFF]).length < 28 ∧
    (readWord (readingSlot .a none []).mem (flyingRequest .read).address = 0xFFFF) ∧
    SlotRead (List.replicate 27 0 ++ [0xFFFF]) := by
  refine ⟨by decide, by decide, by decide, ?_⟩
  simp only [SlotRead, if_neg (show ¬ ((List.replicate 27 (0 : Word16) ++ [0xFFFF])[0]? = some 0x4D4A ∧ _) from
    fun h => absurd h.1 (by decide))]
  rfl

/-- A marked slot with P 1: after 28 words one more is read, and then the slot ends. -/
def markedWords (n : Nat) : List Word16 := [0x4D4A, 0, 0, 0, 0, 1] ++ List.replicate (n - 6) 0

theorem witness_MountReadsSlotAThenSlotB_marked :
    ((markedWords 28)[0]? = some 0x4D4A ∧ ∃ w5, (markedWords 28)[5]? = some w5 ∧ 1 ≤ w5.toNat ∧ w5.toNat ≤ 4068 ∧
      (markedWords 28).length < 28 + w5.toNat) ∧ SlotRead (markedWords 29) := by
  refine ⟨⟨by decide, 1, by decide⟩, ?_⟩
  simp only [SlotRead, if_pos (show (markedWords 29)[0]? = some 0x4D4A ∧ ∃ w, (markedWords 29)[5]? = some w ∧
    1 ≤ w.toNat ∧ w.toNat ≤ 4068 from ⟨by decide, 1, by decide⟩)]
  rfl

/-- The verdict on slot B is blank; the verdict on slot A decides. -/
theorem witness_MountEndsByItsDecision :
    (∀ va ∈ [Verdict.blank, .invalid, .valid (imageWith 512 1)],
      let s := readingSlot .b (some va) (List.replicate 27 0)
      Powered s ∧ s.mount.device = .mounting ∧ s.group.running = none ∧ InFlight s (flyingRequest .read) .engine ∧
        s.mount.run = .reading .b (some va) (List.replicate 27 0) 0xFFFFFFFF) ∧
    mountDecision (.valid (imageWith 512 1)) (judge (List.replicate 28 0) 0xFFFFFFFF) = .ready .a (imageWith 512 1) ∧
    mountDecision .blank (judge (List.replicate 28 0) 0xFFFFFFFF) = .unformatted ∧
    mountDecision .invalid (judge (List.replicate 28 0) 0xFFFFFFFF) = .faulted .noValid := by decide

/-- FORMATTING, at a write. -/
def formattingAt (at? : Option FormatStep) : State :=
  { inState .formatting with mount := { (inState .formatting).mount with
      format := some { geometry := smallGeometry, step := at?, stamp := none, acc := 0xFFFFFFFF } } }

theorem witness_FormatWritesInOrderAndLoads :
    ∀ step ∈ [FormatStep.retireA, .retireB, .body 29, .body 27, .mark],
      let s := flying .write .engine (formattingAt (some step))
      Powered s ∧ s.mount.device = .formatting ∧ s.group.running = none ∧
        s.mount.format =
          some { geometry := smallGeometry, step := some step, stamp := none, acc := 0xFFFFFFFF } ∧
        InFlight s (flyingRequest .write) .engine := by decide

/-- The one entry with every line present. -/
theorem witness_CompleteEndsWhenAllIsPresent :
    let r := someRecord 0 none none (some 0)
    let s := committing .complete r
    let t : State := { s with group := { s.group with table := [{ entry0 with present := 0xFFFF }] } }
    (Powered t ∧ t.mount.device = .ready ∧ t.group.state = .committing .complete ∧ t.commit.record = some r ∧
      (∀ e ∈ t.group.table, e.present = 0xFFFF) ∧ t.group.running = none ∧ t.group.waiting = none ∧
      t.host.hold ≠ .lineFill ∧ t.port.hostReq = none ∧ t.port.flight = none) ∧
    (Powered s ∧ s.commit.record = some r ∧ ∃ e ∈ s.group.table, e.present ≠ 0xFFFF) := by decide

theorem witness_SwitchIsTakenWhole :
    let r := someRecord 0 none (some someBody) none
    let s := committing .mark r
    (Powered s ∧ Mounted s smallGeometry ∧ s.group.state = .committing .mark ∧ s.commit.record = some r ∧
      r.body = some someBody ∧ r.writePos = none ∧ s.host.access = none) ∧
    (let t := serving .commitHold .write s;
      Powered t ∧ Mounted t smallGeometry ∧ t.commit.record = some r ∧ t.host.access = some (held988 .write) ∧
        t.host.hold = .commitHold ∧ t.host.cycleTaken = true ∧ (held988 .write).kind = .write ∧
        (held988 .write).data = some 0xABCD) := by decide

/-- Guards are staged. -/
def stagedState (s : State) : State := { s with guards := { s.guards with staged := some someGuards } }

theorem witness_CommitRequestsAreAnsweredByTheGroup :
    (∀ s ∈ [framed (withGroup .opened), framed (stagedState ready)],
      Powered s ∧ s.mount.device = .ready ∧ s.group.waiting = none ∧ s.commit.latch = false ∧ AwaitsCode s) ∧
    (withGroup .opened).group.state = .opened ∧
    ((stagedState ready).group.state = .idle ∧ (stagedState ready).guards.staged ≠ none) ∧
    (∀ s ∈ [framed ready, framed (withGroup .failed), framed (withGroup (.committing .retire))],
      Powered s ∧ s.mount.device = .ready ∧ AwaitsCode s) ∧
    (ready.group.state = .idle ∧ ready.guards.staged = none) := by decide

theorem witness_MountAndFormatStartAtAnIdlePort :
    (let s : State := { inState .mounting with mount := { (inState .mounting).mount with run := .waiting } };
      Powered s ∧ s.group.running = none ∧ s.port.flight = none ∧ s.mount.device = .mounting ∧
        s.mount.run = .waiting) ∧
    (Powered (formattingAt none) ∧ (formattingAt none).group.running = none ∧ (formattingAt none).port.flight = none ∧
      (formattingAt none).mount.device = .formatting ∧ (formattingAt none).mount.format ≠ none) := by decide

theorem witness_TickCountsAndThePulseEnds :
    (Powered ready ∧ ready.events.period = some 32768) ∧ (Powered State.reset ∧ State.reset.events.period = none) := by
  decide

theorem witness_AbortGivesTheGroupBack :
    (∀ state ∈ [GroupState.opened, .failed, .idle, .committing .mark, .committing .complete],
      let s := framed (withGroup state)
      Powered s ∧ s.mount.device = .ready ∧ s.group.deadline = some 0 ∧ s.group.state = state ∧ AwaitsCode s) ∧
    Unaffected (framed (withGroup .opened)) ∧ Unaffected (framed (withGroup (.committing .complete))) := by
  refine ⟨by decide, ?_, ?_⟩ <;> intro a h <;> cases h

/-- A write waits for its word in the shadow frame, a read for its own there, and a write waits for a fill. -/
def asking (kind : AccessKind) (s : State) : State :=
  { s with port := { s.port with hostReq := some (engineWord kind 0x3FE00 none) } }

/-- Every line is present, and a host write to the entry's shadow frame waits, or is in flight and given up. -/
theorem witness_CompleteEndsWhenAllIsPresent_not_due :
    let s := committing .complete (someRecord 0 none none (some 0))
    let t : State := { s with group := { s.group with table := [{ entry0 with present := 0xFFFF }] } }
    let write := engineWord .write 0x3FE00 none
    let u : State := { t with port := { t.port with
      flight := some { request := write, requester := .host, live := false } } }
    ShadowWrite (asking .write t) ∧ ShadowWrite u ∧
    (∀ v ∈ [asking .write t, u, filling (some (fill988 3 none)) none t, filling none (some (fill988 0 none)) t],
      Powered v ∧ v.group.state = .committing .complete) :=
  ⟨⟨_, .inl rfl, rfl, by decide⟩, ⟨_, .inr ⟨_, rfl⟩, rfl, by decide⟩, by decide⟩

theorem witness_SwitchIsTakenWhole_not_due :
    let s := committing .mark (someRecord 0 none (some someBody) (some 0))
    Powered s ∧ s.mount.device = .ready ∧ s.commit.record = some (someRecord 0 none (some someBody) (some 0)) ∧
      (someRecord 0 none (some someBody) (some 0)).writePos ≠ none := by decide

theorem witness_CommitRequestsAreAnsweredByTheGroup_outside_ready :
    ∀ d ∈ [DeviceState.resetHeld, .mounting, .unformatted, .faulted, .formatting, .halted],
      Powered (inState d) ∧ (inState d).mount.device ≠ .ready := by decide

theorem witness_MountAndFormatStartAtAnIdlePort_not_due :
    (∀ s ∈ [flying .read .engine (inState .mounting), filling (some (fill988 3 none)) none (formattingAt none)],
      Powered s ∧ (s.group.running ≠ none ∨ s.port.flight ≠ none)) ∧
    (Powered ready ∧ ready.mount.device ≠ .mounting ∧ ready.mount.device ≠ .formatting) := by decide

theorem witness_AbortGivesTheGroupBack_not_due :
    (let s : State := { withGroup .opened with group := { (withGroup .opened).group with deadline := some 1 } };
      Powered s ∧ s.mount.device = .ready ∧ s.group.state = .opened ∧ s.group.deadline ≠ some 0) ∧
    (∀ state ∈ [GroupState.idle, .committing .complete],
      let s := withGroup state
      Powered s ∧ s.group.deadline = some 0 ∧ s.group.state ≠ .opened ∧ s.group.state ≠ .failed) := by decide

/-- R122 and R137: a response byte stands on SDO, and a read and a write are in flight. -/
theorem witness_OutputLinesFollowTheState :
    (let s : State := { ready with framer := answering ready.framer 0x20 [] [0x03] };
      s.framer.state = .response ∧ s.framer.response[s.framer.next]? = some 0x03) ∧
    (∀ kind ∈ [AccessKind.read, .write],
      (flying kind .engine ready).port.flight ≠ none ∧ (flyingRequest kind).kind = kind) ∧
    ready.port.flight = none ∧ ready.framer.state = .outside := by decide

/-- A write has opened a group while the last word of a cancelled COMPLETE copy is in flight. -/
def behindCancelledCopy : State :=
  after (.hostAccessTake line988 false true true true 0xABCD)
    (after .abort (framed (flying .read .engine (committing .complete (someRecord 3 none none (some 0))))))

/-- R39, R66, R123: the fill is the running one at once, and its first read is asked for when that word has completed,
which is then granted. -/
theorem test_fill_waits_for_cancelled_copy :
    (behindCancelledCopy.port.flight = some { request := flyingRequest .read, requester := .engine, live := false } ∧
      behindCancelledCopy.port.engineReq = none ∧ behindCancelledCopy.group.running.isSome = true) ∧
    (let t := after .memoryWordAccessComplete behindCancelledCopy;
      t.port.flight = some { request := engineWord .read (lineWord 1020 1 0) none, requester := .engine, live := true }) := by
  decide

theorem witness_AbortRoutesTheAccessAfresh :
    (∀ s ∈ [serving .lineFill .write (filling (some (fill988 3 none)) (some (fill988 0 none)) (withGroup .opened)),
        asking .write (serving .none .write (withGroup .opened)), asking .read (serving .none .read (withGroup .failed)),
        serving .lineFill .write (filling (some (fill988 3 none)) none (withGroup .opened))],
      Powered s ∧ (s.group.state = .opened ∨ s.group.state = .failed) ∧ s.group.deadline = some 0 ∧
        s.host.cycleTaken = true ∧ AtomicPlace s smallGeometry line988 true ∧
        AtomicPlace s smallGeometry line988 false ∧
        (s.host.access = some (held988 .write) ∨ s.host.access = some (held988 .read))) ∧
    (held988 .read).cls = .atomic ∧ (held988 .write).address = line988 ∧
    (let s := asking .read (serving .none .read (withGroup .failed));
      s.host.hold = .none ∧ s.port.hostReq = some (engineWord .read 0x3FE00 none) ∧
        ∃ e ∈ s.group.table, e.shadow = pageNo (engineWord .read 0x3FE00 none).address) := by decide

theorem witness_AbortRoutesTheAccessAfresh_by_abort :
    (∀ s ∈ [framed (serving .commitHold .write (withGroup (.committing .complete))),
        framed (asking .write (serving .none .write (withGroup (.committing .complete)))),
        framed (serving .lineFill .write (filling (some (fill988 3 none)) none (withGroup .failed)))],
      Powered s ∧ AwaitsCode s ∧ s.host.cycleTaken = true ∧ s.host.access = some (held988 .write) ∧
        AtomicPlace s smallGeometry line988 true) ∧
    (let s := framed (serving .commitHold .write (withGroup (.committing .complete)));
      s.group.state = .committing .complete ∧ s.host.hold = .commitHold ∧ s.port.hostReq = none) := by decide

theorem witness_FramesBeginEndAndTurnAwayBadCodes :
    (Powered ready ∧ ready.mount.device ≠ .resetHeld ∧ ready.framer.scsLow = false) ∧
    (Powered State.reset ∧ State.reset.mount.device = .resetHeld ∧ State.reset.framer.scsLow = false) ∧
    (Instr.badCmd 0x04).wellFormed = true ∧ (Powered (framed ready) ∧ AwaitsCode (framed ready)) ∧
    (framed ready).framer.scsLow = true ∧ (Instr.badCmd 0x41).wellFormed = false ∧ ¬ AwaitsCode ready := by decide

theorem witness_ByteArrivesDrivesTheFramer :
    (∀ s ∈ [framed ready, collecting 0x40 [1, 2, 3] ready, collecting 0x40 [1, 2, 3, 4] ready,
        { ready with framer := answering ready.framer 0x20 [] [0x00, 0x00] },
        { ready with framer := { ready.framer with state := .spent } }],
      Powered s ∧ s.mount.device ≠ .resetHeld) ∧
    (Instr.remount, (0x41 : Byte)) ∈ shortCommands ∧ (Instr.format 9, (0x40 : Byte), 5) ∈ longCommands 9 ∧
    ((collecting 0x40 [1, 2, 3] ready).framer.state = .arguments ∧
      (collecting 0x40 [1, 2, 3] ready).framer.code = some 0x40 ∧
      (collecting 0x40 [1, 2, 3] ready).framer.args.length + 1 < 5 ∧
      (collecting 0x40 [1, 2, 3, 4] ready).framer.args.length + 1 = 5) ∧
    ¬ AwaitsCode ready ∧ ¬ AwaitsLast (collecting 0x40 [1, 2, 3] ready) 0x40 5 := by decide

theorem witness_StatusReportsOnePicture :
    ∀ s ∈ [framed ready, framed (inState .halted)], Powered s ∧ AwaitsCode s := by decide

/-- The steal share's bounds pass, and a set with bit 6 does not. -/
theorem witness_ConfigurationIsReadAndWrittenWhole :
    (Powered (framed ready) ∧ AwaitsCode (framed ready)) ∧
    (∀ share ∈ [0x01#8, 0x08#8, 0x09#8],
      let s := collecting 0x03 [0x00, 0x64, 0x1F, share, 0x01] ready
      Powered s ∧ AwaitsLast s 0x03 6 ∧ s.framer.args = [0x00, 0x64, 0x1F, share, 0x01] ∧ s.mount.device = .ready) ∧
    (0x3F#8).toNat < 64 ∧ ¬ (0x40#8).toNat < 64 := by decide

theorem witness_EventPopReturnsTheOldestRecord :
    let r : EventRecord :=
      { kind := .halt, stamp := 3, generation := 0, address := none, page := none, detail := some 0x02 }
    let s : State := framed { ready with events := { ready.events with queue := [r] } }
    (Powered s ∧ AwaitsCode s ∧ s.events.queue = [r] ∧ r.address = none ∧ r.page = none) ∧
    (Powered (framed ready) ∧ AwaitsCode (framed ready) ∧ (framed ready).events.queue = []) := by decide

theorem witness_EventAckClearsTheNamedLatches :
    (Powered (collecting 0x11 [] ready) ∧ AwaitsLast (collecting 0x11 [] ready) 0x11 1) ∧ (0x3F#8).toNat < 64 ∧
    64 ≤ (0x40#8).toNat := by decide

/-- Index 0 names an entry and index 1 none. -/
theorem witness_GroupListAndMapQueryReport :
    (let s := collecting 0x22 [] (withGroup .opened);
      Powered s ∧ Mounted s smallGeometry ∧ AwaitsLast s 0x22 1 ∧ s.framer.args = [] ∧
        s.group.table[(0 : Byte).toNat]? = some entry0 ∧ s.group.openStamp = some 7 ∧
        s.group.table.length ≤ (1 : Byte).toNat) ∧
    (∀ hi ∈ [0x03#8, 0x0F#8, 0x10#8],
      let s := collecting 0x23 [hi] (withGroup .opened)
      Powered s ∧ Mounted s smallGeometry ∧ AwaitsLast s 0x23 2 ∧ s.framer.args = [hi]) ∧
    (256 * (0x03#8).toNat + (0xDB#8).toNat < smallGeometry.d ∧
      smallGeometry.d ≤ 256 * (0x03#8).toNat + (0xDC#8).toNat ∧ entryOf (withGroup .opened) 988 = some entry0 ∧
      256 * (0x03#8).toNat + (0xDD#8).toNat < smallGeometry.d + smallGeometry.p ∧
      entryOf (withGroup .opened) 989 = none ∧
      smallGeometry.d + smallGeometry.p ≤ 256 * (0x03#8).toNat + (0xDE#8).toNat ∧
      256 * (0x0F#8).toNat + (0xFF#8).toNat ≤ 4095 ∧ 4095 < 256 * (0x10#8).toNat + (0x00#8).toNat) := by decide

theorem witness_GuardCommandsReadStageAndDiscard :
    (∀ index ∈ [0x07#8, 0x08#8],
      let s := collecting 0x30 [index] ready
      Powered s ∧ s.mount.device = .ready ∧ AwaitsLast s 0x30 2 ∧ s.framer.args = [index]) ∧
    (∃ e, ready.guards.current[(0x07#8).toNat]? = some e ∧ (0x07#8).toNat ≤ 7 ∧ (0x01#8).toNat ≤ 1) ∧
    (∀ s ∈ [collecting 0x31 [0x07, 0x0F, 0xFF, 0x0F, 0xFF] ready,
        collecting 0x31 [0x07, 0x0F, 0xFF, 0x0F, 0xFF] (withGroup (.committing .write))],
      Powered s ∧ s.mount.device = .ready ∧ AwaitsLast s 0x31 6 ∧
        s.framer.args = [0x07, 0x0F, 0xFF, 0x0F, 0xFF]) ∧
    (256 * (0x0F#8).toNat + (0xFF#8).toNat ≤ 4095 ∧ modeByte .all = 0x02 ∧ 2 < (0x03#8).toNat) ∧
    (∀ s ∈ [framed ready, framed (withGroup (.committing .write))],
      Powered s ∧ s.mount.device = .ready ∧ AwaitsCode s) ∧ ready.group.state = .idle := by
  refine ⟨by decide, ⟨_, rfl, by decide, by decide⟩, by decide, by decide, by decide, by decide⟩

/-- The small geometry passes its checks; with one page more it does not. -/
theorem witness_FormatIsCheckedThenAccepted :
    (∀ s ∈ [collecting 0x40 [0x01, 0x03, 0xDC, 0x00] ready,
        collecting 0x40 [0x01, 0x03, 0xDC, 0x00] (withGroup .failed),
        collecting 0x40 [0x01, 0x03, 0xDC, 0x00] (withGroup (.committing .complete)),
        collecting 0x40 [0x01, 0x03, 0xDC, 0x00] (inState .faulted)],
      Powered s ∧ AwaitsLast s 0x40 5 ∧ s.framer.args = [0x01, 0x03, 0xDC, 0x00]) ∧
    (ready.mount.device = .ready ∧ ready.group.state = .idle) ∧ RawDevice (inState .faulted) ∧
    GeometryOk { sizeCode := (0x01#8).toNat, d := 256 * (0x03#8).toNat + (0xDC#8).toNat, p := (0x02#8).toNat } ∧
    ¬ GeometryOk { sizeCode := (0x01#8).toNat, d := 256 * (0x03#8).toNat + (0xDC#8).toNat, p := (0x03#8).toNat } := by
  decide

theorem witness_RemountDiscardsTheVolumeAndMounts :
    (∀ s ∈ [framed ready, framed (withGroup .failed), framed (withGroup (.committing .mark)),
        framed (inState .unformatted)],
      Powered s ∧ AwaitsCode s) ∧
    (ready.mount.device = .ready ∧ ready.group.state = .idle) ∧
    (RawDevice (inState .unformatted) ∧ (inState .unformatted).group.state = .idle) := by decide

theorem witness_VolumeCommandsAreTurnedAwayByTheDeviceState :
    ((Instr.commit, (0x20 : Byte)) ∈ shortCommands ∧ (Instr.mapQuery 5, (0x23 : Byte), 2) ∈ longCommands 5) ∧
    (Powered (framed (inState .mounting)) ∧ AwaitsCode (framed (inState .mounting)) ∧
      BusyDevice (framed (inState .mounting))) ∧
    (let s := collecting 0x23 [0x00] (inState .faulted);
      Powered s ∧ AwaitsLast s 0x23 2 ∧ RawDevice s) := by decide

/-- Requests waiting at an idle port and at a port with an access in flight; pass counts 3 and 4 at steal share 4. -/
theorem witness_GrantDecision :
    (flying .read .host ready).port.flight ≠ none ∧
    (∀ count ∈ [3, 4],
      let s : State := { ready with port := { ready.port with
        hostReq := some (flyingRequest .read), engineReq := some (flyingRequest .write), passCount := count } }
      s.port.flight = none ∧ s.port.hostReq = some (flyingRequest .read) ∧
        s.port.engineReq = some (flyingRequest .write) ∧ s.port.passCount = count) ∧ ready.config.stealShare = 4 := by
  decide

theorem witness_ClassificationOrderInReady :
    Mounted ready smallGeometry ∧ Covered ready.guards.current .all 5 ∧ ¬ Covered ready.guards.current .all 987 ∧
    Covered ready.guards.current .write 987 ∧ ¬ Covered ready.guards.current .write 986 ∧ 987 < smallGeometry.d ∧
    smallGeometry.d ≤ 988 ∧ smallGeometry.d + smallGeometry.p ≤ 990 := by decide

theorem witness_EffectiveModeIsTheStrongestThatCovers :
    Covered someGuards .all 6 ∧ (¬ Covered someGuards .all 987 ∧ Covered someGuards .write 987) ∧
    (¬ Covered someGuards .all 7 ∧ ¬ Covered someGuards .write 7) ∧ someGuards.Perm someGuards.reverse := by decide

/-- Adjacent across the wrap, and not adjacent. -/
theorem witness_MountDecisionTable :
    Newer (imageWith 512 0) (imageWith 512 4294967295) ∧
    (¬ Newer (imageWith 512 5) (imageWith 512 7) ∧ ¬ Newer (imageWith 512 7) (imageWith 512 5)) := by decide

/-- READY with a group and an access in service, and a tick waiting: a state that meets every invariant. -/
def running : State :=
  { serving .none .read (withGroup .opened) with pending := [.tick], mem := [(0, 0x4A), (1, 0x4D)] }

theorem witness_MemoryFormIsKept : running.mem.wf = true ∧ ∃ t, step running = .next t := ⟨by decide, _, rfl⟩

theorem witness_VolumeIsClearedOutsideReady :
    (∃ s : State, s.mount.device ≠ .ready ∧ ClearedOutsideReady s ∧ ∃ t, step s = .next t) ∧
    ClearedOutsideReady running := by
  refine ⟨⟨{ inState .mounting with pending := [.mountStart] }, by decide, fun _ => ?_, _, rfl⟩, ?_⟩
  · exact ⟨rfl, rfl, rfl, rfl, rfl, none, rfl, by simp⟩
  · intro h
    exact absurd rfl h

theorem witness_PoolPartitionIsKept : (Partition running ∧ Loadable running) ∧ ∃ t, step running = .next t := by
  refine ⟨⟨fun _ => ⟨smallGeometry, rfl, by decide, rfl, by decide, by decide, by decide, ?_⟩, ?_, ?_⟩, _, rfl⟩
  · intro a h
    cases h
    decide
  · intro slot im words acc h
    cases h
  · intro f h
    cases h

theorem witness_CountsStayInRange : InRange running ∧ ∃ t, step running = .next t :=
  ⟨⟨by decide, by decide, by decide, by decide, by decide, by decide⟩, _, rfl⟩

theorem witness_ResetHeldKeepsTheResetValues :
    (ResetHeldValues State.reset ∧ State.reset.mount.device = .resetHeld) ∧ ResetHeldValues running ∧
    ∃ t, step running = .next t := by
  refine ⟨⟨⟨by decide, fun _ => ?_⟩, rfl⟩, ⟨by decide, fun h => ?_⟩, _, rfl⟩
  · exact ⟨rfl, rfl, rfl, rfl, rfl, rfl, rfl, rfl, rfl, rfl, rfl, rfl, by simp [State.reset, HostPath.cleared]⟩
  · cases h

/-- Each row of the table is taken by some command: the first here is RST_ASSERT in READY. -/
theorem witness_DeviceStateChangesOnlyAsTheTableGives :
    exec .rstAssert ready = .next (after .rstAssert ready) ∧
    (after .rstAssert ready).mount.device ≠ ready.mount.device := ⟨rfl, by decide⟩

theorem witness_MemoryChangesOnlyWhereAWordCompletes :
    let s := flying .write .engine ready
    (exec .memoryWordAccessComplete s = .next (after .memoryWordAccessComplete s) ∧
      readByte (after .memoryWordAccessComplete s).mem 1 ≠ readByte s.mem 1) ∧
    (Powered s ∧ s.mem.wf = true ∧ InFlight s (flyingRequest .write) .engine ∧ (flyingRequest .write).kind = .write ∧
      (flyingRequest .write).data = some 0x1234 ∧ (flyingRequest .write).lanes.low = true) :=
  ⟨⟨rfl, by decide⟩, by decide⟩

/-- An image of the small geometry. -/
def smallImage : ImageBody :=
  { geometry := smallGeometry, generation := 1, guards := someGuards, stamp := 0, pageCount := 0
    entries := [1020, 1023] }

theorem witness_SlotsAreLaidOutAndJudged :
    MapOk smallImage.geometry smallImage.entries ∧ smallImage.guards.length = 8 ∧
    (∀ e ∈ smallImage.guards, e.first ≤ e.last ∧ e.last ≤ 4095) ∧
    (∃ e, smallImage.guards[7]? = some e ∧ e.first ≤ e.last) ∧ smallImage.entries[1]? = some 1023 ∧
    SlotRead (markedWords 29) ∧ SlotRead (List.replicate 28 0xFFFF) :=
  ⟨⟨by decide, by decide, by decide, by decide⟩, by decide, by decide, ⟨_, rfl, by decide⟩, by decide,
    witness_MountReadsSlotAThenSlotB_marked.2, by simp [SlotRead]⟩

end Sys2Proof.Tests
end

