-- ==== Sys2Proof/Proofs/Classification.lean ====
section
/-! PROOFS. The Classifier: the mode that a guard table gives a page (R113), the four tests of R8, and the statement
about their order in READY. -/

namespace Sys2Proof.Proofs

open Sys2Proof.Machine Sys2Proof.Claims

/-! ### The mode of a page (R113) -/

/-- The table test of `effectiveMode` is coverage in the mode it asks for; an entry in mode OFF covers nothing. -/
theorem any_covers_iff_covered (table : List Guard) {mode : GuardMode} (page : Nat) (hmode : mode ≠ .off) :
    (table.any fun g => g.covers page && g.mode == mode) = true ↔ Covered table mode page := by
  simp only [List.any_eq_true, Covered]
  refine exists_congr fun g => and_congr_right fun _ => ?_
  simp only [Guard.covers, Bool.and_eq_true, bne_iff_ne, beq_iff_eq, decide_eq_true_eq]
  constructor
  · rintro ⟨⟨⟨_, hfirst⟩, hlast⟩, rfl⟩
    exact ⟨rfl, hfirst, hlast⟩
  · rintro ⟨rfl, hfirst, hlast⟩
    exact ⟨⟨⟨hmode, hfirst⟩, hlast⟩, rfl⟩

/-- `effectiveMode` as the choice between coverage in mode ALL, in mode WRITE, and neither. -/
theorem effectiveMode_eq_ite_covered (table : List Guard) (page : Nat) :
    effectiveMode table page =
      if Covered table .all page then .all else if Covered table .write page then .write else .off := by
  simp only [effectiveMode, any_covers_iff_covered table page (show GuardMode.all ≠ .off by decide),
    any_covers_iff_covered table page (show GuardMode.write ≠ .off by decide)]

theorem effectiveMode_of_covered_all {table : List Guard} {page : Nat} (hall : Covered table .all page) :
    effectiveMode table page = .all := by
  rw [effectiveMode_eq_ite_covered, if_pos hall]

theorem effectiveMode_of_covered_write {table : List Guard} {page : Nat} (hall : ¬ Covered table .all page)
    (hwrite : Covered table .write page) : effectiveMode table page = .write := by
  rw [effectiveMode_eq_ite_covered, if_neg hall, if_pos hwrite]

theorem effectiveMode_of_not_covered {table : List Guard} {page : Nat} (hall : ¬ Covered table .all page)
    (hwrite : ¬ Covered table .write page) : effectiveMode table page = .off := by
  rw [effectiveMode_eq_ite_covered, if_neg hall, if_neg hwrite]

/-! ### The four tests of R8 -/

section
variable {g : Geometry} {table : List Guard} {page : Nat} {kind : AccessKind}

/-- Test 1 does not consult the guard table. -/
theorem classifyReady_of_beyond_volume (hpage : g.d + g.p ≤ page) :
    classifyReady g table page kind = .unbacked := if_pos hpage

/-- Within the volume the tests 2 and 3 refuse, and what they let pass has the class of its window: so a read of a page
in mode WRITE reaches test 4. -/
theorem classifyReady_of_backed (hpage : page < g.d + g.p) :
    classifyReady g table page kind =
      if Covered table .all page ∨ (Covered table .write page ∧ kind = .write) then .guarded
      else windowClass g page := by
  unfold classifyReady
  rw [if_neg (Nat.not_le.mpr hpage)]
  by_cases hall : Covered table .all page
  · rw [effectiveMode_of_covered_all hall, if_pos (.inl hall)]
  by_cases hwrite : Covered table .write page
  · rw [effectiveMode_of_covered_write hall hwrite]
    cases kind with
    | read => rw [if_neg (not_or.mpr ⟨hall, fun h => nomatch h.2⟩)]
    | write => rw [if_pos (.inr ⟨hwrite, rfl⟩)]
  · rw [effectiveMode_of_not_covered hall hwrite, if_neg (not_or.mpr ⟨hall, fun h => hwrite h.1⟩)]

theorem windowClass_of_lt (hpage : page < g.d) : windowClass g page = .direct := if_pos hpage

theorem windowClass_of_ge (hpage : g.d ≤ page) : windowClass g page = .atomic := if_neg (Nat.not_lt.mpr hpage)

/-- In READY the class comes from the loaded geometry and the current table; the staged table has no part in it. -/
theorem classify_of_mounted {s : State} (h : Mounted s g) :
    classify s page kind = classifyReady g s.guards.current page kind := by
  obtain ⟨hready, hgeometry⟩ := h
  simp only [classify, hready, State.geometry, hgeometry, Option.getD_some]

end

/-- Settles O49: test 1 by `classifyReady_of_beyond_volume`, tests 2 to 4 by the branches of
`classifyReady_of_backed`. -/
theorem classificationOrderInReady : Obligations.ClassificationOrderInReady := by
  intro s g page kind hmounted
  rw [classify_of_mounted hmounted]
  refine ⟨classifyReady_of_beyond_volume, fun hpage => ?_⟩
  rw [classifyReady_of_backed hpage]
  refine ⟨fun hall => if_pos (.inl hall), fun hall =>
    ⟨fun hcov hkind => if_pos (.inr ⟨hcov, hkind⟩), fun hwrite => ?_⟩⟩
  rw [if_neg (not_or.mpr ⟨hall, hwrite⟩)]
  exact ⟨windowClass_of_lt, windowClass_of_ge⟩

end Sys2Proof.Proofs
end

