-- ==== Sys2Proof/Proofs/MountDecision.lean ====
section
/-! PROOFS. The Mount Engine: the newer image of a pair (R88), the choice between two valid images, and the statement
of the mount decision (R99, Table 6-2). -/

namespace Sys2Proof.Proofs

open Sys2Proof.Machine Sys2Proof.Claims

/-! ### Pairs (R88) -/

section
variable {x y : Image}

/-- The engine compares generations as 32-bit words, whose sum wraps as R88 asks. -/
theorem newer_iff_generation_eq_add_one :
    Newer x y ↔ x.geometry = y.geometry ∧ x.generation = y.generation + 1 :=
  and_congr_right fun _ => by
    rw [← BitVec.toNat_inj, BitVec.toNat_add]
    rfl

/-- No pair has two newer images: one generation would be itself plus two, modulo 2^32. -/
theorem not_newer_of_newer (h : Newer x y) : ¬ Newer y x := by
  rintro ⟨-, hyx⟩
  obtain ⟨-, hxy⟩ := h
  omega

/-! ### Two valid images -/

/-- `choosePair` as the choice between the newer in slot A, the newer in slot B, and no pair. -/
theorem choosePair_eq_ite_newer (x y : Image) :
    choosePair x y = if Newer x y then .ready .a x else if Newer y x then .ready .b y else .faulted .mismatch := by
  simp only [choosePair, newer_iff_generation_eq_add_one, eq_comm (a := y.geometry)]

theorem choosePair_of_newer_in_slot_a (h : Newer x y) : choosePair x y = .ready .a x := by
  rw [choosePair_eq_ite_newer, if_pos h]

theorem choosePair_of_newer_in_slot_b (h : Newer y x) : choosePair x y = .ready .b y := by
  rw [choosePair_eq_ite_newer, if_neg (not_newer_of_newer h), if_pos h]

theorem choosePair_of_not_newer (hxy : ¬ Newer x y) (hyx : ¬ Newer y x) :
    choosePair x y = .faulted .mismatch := by
  rw [choosePair_eq_ite_newer, if_neg hxy, if_neg hyx]

end

/-! ### The mount decision (R99) -/

theorem mountDecision_of_both_valid (x y : Image) :
    mountDecision (.valid x) (.valid y) = choosePair x y := rfl

/-- Settles O51: the rows with at most one valid verdict are the model's own, and the row with two is `choosePair`, by
which slot holds the newer image. -/
theorem mountDecisionTable : Obligations.MountDecisionTable := by
  refine ⟨rfl, fun _ => ⟨rfl, rfl, rfl, rfl⟩, fun x y => ?bothValid, rfl, rfl, rfl⟩
  case bothValid =>
    rw [mountDecision_of_both_valid]
    exact ⟨choosePair_of_newer_in_slot_a, choosePair_of_newer_in_slot_b, choosePair_of_not_newer⟩

end Sys2Proof.Proofs
end

