-- ==== Sys2Proof/Proofs/EventCommands.lean ====
section
/-! PROOFS. The Management Port's commands on the Event Unit: what a take that is due leaves, the bytes of a record
(R160, Table 12-6), the class set a byte names, and the statements of EVENT_POP (R154) and EVENT_ACK (R155). -/

namespace Sys2Proof.Proofs

open Sys2Proof.Machine Sys2Proof.Claims

/-! ### A take that is due -/

section
variable {s : State} {take : List Byte → State → List Byte × State}

theorem whenPowered_takeCommand_of_awaitsCode {code : Byte} (hpowered : Powered s) (hawaits : AwaitsCode s) :
    whenPowered s (takeCommand code 0 none take) = .next (answered code (take [] s).1 (take [] s).2) := by
  obtain ⟨hdevice, hframe⟩ := hawaits
  rw [whenPowered_powered hpowered, takeCommand_of_command hdevice hframe]
  rfl

/-- The claim's argument bytes are those of the framer before the take, so the take must leave the framer alone. -/
theorem whenPowered_takeCommand_of_awaitsLast {code : Byte} {count : Nat} {last : Byte} (hpowered : Powered s)
    (hawaits : AwaitsLast s code count)
    (hframer : (take (s.framer.args ++ [last]) s).2.framer = s.framer) :
    whenPowered s (takeCommand code count (some last) take) =
      .next (answeredArgs s.framer code last (take (s.framer.args ++ [last]) s).1
        (take (s.framer.args ++ [last]) s).2) := by
  obtain ⟨hdevice, hframe, hcode, hlength⟩ := hawaits
  rw [whenPowered_powered hpowered, takeCommand_of_last hdevice hframe hcode hlength (by omega), respond, hframer]
  rfl

end

/-! ### Numbers as bytes (R159) -/

theorem bytes16_num16 (n : Nat) : bytes16 (num16 n) = [BitVec.ofNat 8 (n / 256), BitVec.ofNat 8 n] := by
  have hhigh : highByte (num16 n) = BitVec.ofNat 8 (n / 256) := by
    apply BitVec.eq_of_toNat_eq
    simp only [highByte, num16, BitVec.toNat_setWidth, BitVec.toNat_ushiftRight, BitVec.toNat_ofNat,
      Nat.shiftRight_eq_div_pow]
    omega
  have hlow : lowByte (num16 n) = BitVec.ofNat 8 n := BitVec.setWidth_ofNat_of_le (by decide) n
  rw [bytes16, hhigh, hlow]

/-- Of a 20-bit address, bytes 7 and 8 of a record hold bits 15 to 0. -/
theorem bytes16_setWidth_addr (a : Addr) :
    bytes16 (a.setWidth 16) = [(a >>> 8).setWidth 8, a.setWidth 8] := by
  have hhigh : highByte (a.setWidth 16) = (a >>> 8).setWidth 8 := by
    apply BitVec.eq_of_toNat_eq
    simp only [highByte, BitVec.toNat_setWidth, BitVec.toNat_ushiftRight, Nat.shiftRight_eq_div_pow]
    omega
  have hlow : lowByte (a.setWidth 16) = a.setWidth 8 := BitVec.setWidth_setWidth_of_le a (by decide)
  rw [bytes16, hhigh, hlow]

/-! ### The ten bytes of a record (R160, Table 12-6) -/

theorem kindByte_eq_code (kind : EventKind) : kindByte kind = kind.code := by
  cases kind <;> rfl

/-- The three bits of the presence set do not overlap, so their sum is their union. -/
theorem presence_eq_sum (r : EventRecord) :
    r.presence = (if r.address = none then 0x00 else 0x01) + (if r.page = none then 0x00 else 0x02) +
      (if r.detail = none then 0x00 else 0x04) := by
  simp only [EventRecord.presence, Option.isSome_iff_ne_none, ne_eq, ite_not]
  split_ifs <;> rfl

section
variable {r : EventRecord}

theorem place_of_address {a : Addr} (haddress : r.address = some a) :
    r.place = [(a >>> 16).setWidth 8, (a >>> 8).setWidth 8, a.setWidth 8] := by
  simp only [EventRecord.place, haddress, bytes16_setWidth_addr]

theorem place_of_page {p : Nat} (haddress : r.address = none) (hpage : r.page = some p) :
    r.place = [0x00, BitVec.ofNat 8 (p / 256), BitVec.ofNat 8 p] := by
  simp only [EventRecord.place, haddress, hpage, bytes16_num16]

theorem place_of_nowhere (haddress : r.address = none) (hpage : r.page = none) : r.place = [0x00, 0x00, 0x00] := by
  simp only [EventRecord.place, haddress, hpage]

end

theorem length_place (r : EventRecord) : r.place.length = 3 := by
  cases haddress : r.address with
  | some a => rw [place_of_address haddress]; rfl
  | none =>
    cases hpage : r.page with
    | some p => rw [place_of_page haddress hpage]; rfl
    | none => rw [place_of_nowhere haddress hpage]; rfl

theorem length_bytes (r : EventRecord) : r.bytes.length = 10 := by
  simp [EventRecord.bytes, bytes16, length_place]

/-- The place and the detail stand behind six bytes of fixed position. -/
theorem drop_bytes (r : EventRecord) : r.bytes.drop 6 = r.place ++ [r.detail.getD 0] := rfl

/-! ### EVENT_POP (R154) -/

theorem takeEventPop_of_empty {s : State} (args : List Byte) (hqueue : s.events.queue = []) :
    takeEventPop args s = ([0x07], s) := by
  simp only [takeEventPop, hqueue, resultOnly, Result.code]

theorem takeEventPop_of_cons {s : State} {r : EventRecord} {rest : List EventRecord} (args : List Byte)
    (hqueue : s.events.queue = r :: rest) :
    takeEventPop args s = (0x00 :: r.bytes, { s with events := { s.events with queue := rest } }) := by
  simp only [takeEventPop, hqueue, okWith, Result.code]

/-- Settles O39: the take answers with the model's bytes of the oldest record, and these are Table 12-6 field by
field. -/
theorem eventPopReturnsTheOldestRecord : Obligations.EventPopReturnsTheOldestRecord := by
  intro s hpowered hawaits
  have hpop : exec .eventPop s = .next (answered 0x10 (takeEventPop [] s).1 (takeEventPop [] s).2) :=
    whenPowered_takeCommand_of_awaitsCode hpowered hawaits
  rw [hpop]
  refine ⟨fun hqueue => by rw [takeEventPop_of_empty [] hqueue], fun r rest hqueue => ⟨r.bytes, ?answer,
    length_bytes r, ?kind, ?address, ?page, ?nowhere, congrArg some (presence_eq_sum r), rfl⟩⟩
  case answer => rw [takeEventPop_of_cons [] hqueue]
  case kind => rw [kindByte_eq_code]; rfl
  case address => intro a haddress _; rw [drop_bytes, place_of_address haddress]; rfl
  case page => intro p haddress hpage; rw [drop_bytes, place_of_page haddress hpage]; rfl
  case nowhere => intro haddress hpage; rw [drop_bytes, place_of_nowhere haddress hpage]; rfl

/-! ### EVENT_ACK (R155) -/

/-- A class set byte leaves bits 7 and 6 unused, whose values are the powers of two from 64. -/
theorem and_unused_eq_zero_iff : ∀ b : Byte, b &&& 0xC0 = 0 ↔ b.toNat < 64 := by decide

theorem classSetOf_of_lt {b : Byte} (hset : b.toNat < 64) : classSetOf b = some (b.setWidth 6) :=
  if_pos ((and_unused_eq_zero_iff b).mpr hset)

theorem classSetOf_of_ge {b : Byte} (hset : 64 ≤ b.toNat) : classSetOf b = none :=
  if_neg fun hunused => Nat.not_lt.mpr hset ((and_unused_eq_zero_iff b).mp hunused)

section
variable {set : Byte}

theorem takeEventAck_of_lt (s : State) (hset : set.toNat < 64) :
    takeEventAck [set] s =
      ([0x00, (s.events.latches &&& ~~~(set.setWidth 6)).setWidth 8],
        { s with events := { s.events with latches := s.events.latches &&& ~~~(set.setWidth 6) } }) := by
  have hclasses : classSetOf (argByte [set] 0) = some (set.setWidth 6) := classSetOf_of_lt hset
  simp only [takeEventAck, hclasses, okWith, Result.code, classByte]

theorem takeEventAck_of_ge (s : State) (hset : 64 ≤ set.toNat) : takeEventAck [set] s = ([0x06], s) := by
  have hclasses : classSetOf (argByte [set] 0) = none := classSetOf_of_ge hset
  simp only [takeEventAck, hclasses, resultOnly, Result.code]

end

/-- Settles O40: the one argument byte is the class set, whose range decides between the two takes. -/
theorem eventAckClearsTheNamedLatches : Obligations.EventAckClearsTheNamedLatches := by
  intro s set hpowered hawaits
  have hargs : s.framer.args = [] := by
    obtain ⟨-, -, -, hlength⟩ := hawaits
    exact List.eq_nil_of_length_eq_zero (by omega)
  have hack : exec (.eventAck set) s =
      .next (answeredArgs s.framer 0x11 set (takeEventAck [set] s).1 (takeEventAck [set] s).2) := by
    have htake := whenPowered_takeCommand_of_awaitsLast (last := set) (take := takeEventAck) hpowered hawaits
      (by simp only [takeEventAck_frame])
    rwa [hargs] at htake
  rw [hack]
  refine ⟨fun hset => ?_, fun hset => ?_⟩
  · rw [takeEventAck_of_lt s hset]
  · rw [takeEventAck_of_ge s hset]

end Sys2Proof.Proofs
end

