-- ==== Sys2Proof/Proofs/Steps.lean ====
section
/-! PROOFS. What every step keeps, packaged once: an invariant that does not look at the queue and that every effect of
a command keeps is kept by every step. With it what the fourteen takes leave alone, what the completion of a word access
hands over, and the queue, which no command touches (log entries 5 and 13). -/

namespace Sys2Proof.Proofs

open Sys2Proof.Machine Sys2Proof.Claims

/-! ### The induction over a step -/

/-- An invariant that does not look at the queue has to pass the commands only. -/
theorem step_keeps_of_exec {P : State → Prop} (hqueue : ∀ s rest, P s → P { s with pending := rest })
    (hexec : ∀ c s t, exec c s = .next t → P s → P t) {s t : State} (hs : P s) (hstep : step s = .next t) : P t := by
  rw [step] at hstep
  split at hstep
  · cases hstep
    exact hs
  · exact hexec _ _ t hstep (hqueue s _ hs)

/-- The effect of a command that answers `t`. -/
theorem effect_of_exec {c : Instr} {s t : State} (h : exec c s = .next t) : Effect s t := by
  obtain ⟨u, hu, he⟩ := exec_effect c s
  rw [h] at hu
  cases hu
  exact he

/-- An invariant that does not look at the queue has to pass the effects only. -/
theorem step_keeps {P : State → Prop} (hqueue : ∀ s rest, P s → P { s with pending := rest })
    (heffect : ∀ s t, Effect s t → P s → P t) {s t : State} (hs : P s) (hstep : step s = .next t) : P t :=
  step_keeps_of_exec hqueue (fun _ s t h => heffect s t (effect_of_exec h)) hs hstep

/-! ### What the fourteen takes leave alone -/

/-- A property of takes holds of all fourteen when it holds of each. -/
theorem takes_all {Q : (List Byte → State → List Byte × State) → Prop} (h1 : Q takeStatus) (h2 : Q takeConfigRead)
    (h3 : Q takeConfigWrite) (h4 : Q takeEventPop) (h5 : Q takeEventAck) (h6 : Q takeCommit) (h7 : Q takeAbort)
    (h8 : Q takeGroupList) (h9 : Q takeMapQuery) (h10 : Q takeGuardRead) (h11 : Q takeGuardStage)
    (h12 : Q takeGuardDiscard) (h13 : Q takeFormat) (h14 : Q takeRemount)
    (take : List Byte → State → List Byte × State) (h : take ∈ takes) : Q take := by
  simp only [takes, List.mem_cons, List.not_mem_nil, or_false] at h
  rcases h with rfl | rfl | rfl | rfl | rfl | rfl | rfl | rfl | rfl | rfl | rfl | rfl | rfl | rfl <;> assumption

/-- No take touches memory, the count of open bytes or the queue. -/
theorem take_frame {take : List Byte → State → List Byte × State} (h : take ∈ takes) (args : List Byte) (s : State) :
    (take args s).2.supply = s.supply ∧ (take args s).2.framer = s.framer ∧ (take args s).2.mem = s.mem ∧
      (take args s).2.pending = s.pending := by
  revert args s
  exact takes_all (Q := fun take => ∀ args s, (take args s).2.supply = s.supply ∧
      (take args s).2.framer = s.framer ∧ (take args s).2.mem = s.mem ∧ (take args s).2.pending = s.pending)
    (by simp) (by simp) (by simp) (by simp) (by simp) (by simp) (by simp) (by simp) (by simp) (by simp) (by simp)
    (by simp) (by simp) (by simp) take h

/-! ### The completion of a word access -/

section
variable {s : State}

/-- Only a mount's word and a format's word can change the device state. -/
theorem completeEngine_mount (hm : s.mount.device ≠ .mounting) (hf : s.mount.device ≠ .formatting) (w : Word16) :
    (completeEngine w s).mount = s.mount := by
  simp only [completeEngine]
  split
  · simp
  · split
    · simp
    · exact absurd ‹_› hm
    · exact absurd ‹_› hf
    all_goals rfl

theorem deliver_mount (hm : s.mount.device ≠ .mounting) (hf : s.mount.device ≠ .formatting) (f : Flight)
    (underReset : Bool) (w : Word16) : (deliver f underReset w s).mount = s.mount := by
  simp only [deliver]
  split
  · rfl
  · simp
  · simp
  · exact completeEngine_mount hm hf w

/-- With an access in flight: the port is idle and memory as the access leaves it, the word is handed over, and the
arbiter decides (R122). -/
theorem completeWordAccess_eq_deliver {f : Flight} (hflight : s.port.flight = some f) :
    completeWordAccess s =
      arbitrate (deliver f s.port.underReset (requestWord f.request s.mem)
        (completed (performRequest f.request s.mem) s)) :=
  completeWordAccess_of_flight hflight

theorem completeWordAccess_mount (hm : s.mount.device ≠ .mounting) (hf : s.mount.device ≠ .formatting) :
    (completeWordAccess s).mount = s.mount := by
  cases hflight : s.port.flight with
  | none => simp only [completeWordAccess, hflight]
  | some f =>
    rw [completeWordAccess_eq_deliver hflight]
    exact deliver_mount (s := completed _ s) hm hf f _ _

end

/-! ### The queue -/

theorem effect_pending {s t : State} (h : Effect s t) : t.pending = s.pending := by
  cases h with
  | power => simp only [risePower]; split <;> rfl
  | supplyLost => rfl
  | command code args given response take _ htake => simp [take_frame htake]
  | framed => rfl
  | _ => simp

/-- Settles O2, by the effect that every command has. -/
theorem everyCommandAnswersANextState : Obligations.EveryCommandAnswersANextState := by
  intro c s
  obtain ⟨t, ht, he⟩ := exec_effect c s
  exact ⟨t, ht, effect_pending he⟩

end Sys2Proof.Proofs
end

