-- ==== Sys2Proof/Proofs/Memory.lean ====
section
/-! PROOFS. Memory: the ways in which a command can change it, its canonical form, and the bytes that a completed or a
cut-off write changes (R122, R127, R136). -/

namespace Sys2Proof.Proofs

open Sys2Proof.Machine Sys2Proof.Claims

/-! ### What a command does to memory -/

/-- Memory when POWER_ON is taken: a part that still has its supply has lost it first. -/
theorem risePower_mem (pfail rst scs : Bool) (s : State) :
    (risePower pfail rst scs s).mem = if s.supply.powered then tornMemory s else s.mem := by
  simp only [risePower]
  split <;> rfl

theorem completeWordAccess_mem (s : State) :
    (completeWordAccess s).mem = match s.port.flight with
      | none => s.mem
      | some f => performRequest f.request s.mem := by
  cases hf : s.port.flight with
  | none => simp only [completeWordAccess, hf]
  | some f => simp [completeWordAccess_of_flight hf]

theorem whenPowered_mem {s t : State} {effect : State → State} (hmem : (effect s).mem = s.mem)
    (h : whenPowered s effect = .next t) : t.mem = s.mem := by
  cases h
  split
  · exact hmem
  · rfl

@[simp] theorem takeCommand_mem {take : List Byte → State → List Byte × State} {s : State}
    (h : ∀ args, (take args s).2.mem = s.mem) (code : Byte) (count : Nat) (last : Option Byte) :
    (takeCommand code count last take s).mem = s.mem := by
  simp only [takeCommand]
  split
  · exact h _
  · rfl

@[simp] theorem arriveByte_mem (b : Byte) (s : State) : (arriveByte b s).mem = s.mem := by
  rcases arriveByte_cases b s with h | ⟨_, ⟨f, h, _⟩ | ⟨code, args, given, response, _, h⟩⟩ <;> rw [h]
  simp [take_frame (takeOf_mem code)]

/-- The supply is lost under a command: its own failure, or a POWER_ON on a part that still had it (log entry 3). -/
abbrev LosesSupply (c : Instr) : Prop := c = .supplyFailure ∨ ∃ pfail rst scs, c = .powerOn pfail rst scs

/-- Every way in which a command can change memory. -/
theorem exec_mem_cases {c : Instr} {s t : State} (h : exec c s = .next t) :
    t.mem = s.mem ∨ (LosesSupply c ∧ t.mem = tornMemory s) ∨
      (c = .memoryWordAccessComplete ∧ ∃ f, s.port.flight = some f ∧ t.mem = performRequest f.request s.mem) := by
  cases c with
  | powerOn pfail rst scs =>
    cases h
    rw [risePower_mem]
    split
    · exact .inr (.inl ⟨.inr ⟨_, _, _, rfl⟩, rfl⟩)
    · exact .inl rfl
  | supplyFailure =>
    cases h
    split
    · exact .inr (.inl ⟨.inl rfl, rfl⟩)
    · exact .inl rfl
  | memoryWordAccessComplete =>
    cases h
    split
    · rw [completeWordAccess_mem]
      cases hf : s.port.flight with
      | none => exact .inl rfl
      | some f => exact .inr (.inr ⟨rfl, f, rfl, rfl⟩)
    · exact .inl rfl
  | readDataRelease line => cases line <;> exact .inl (whenPowered_mem (by simp) h)
  | _ => exact .inl (whenPowered_mem (by simp) h)

/-- A command changes memory as `exec_mem_cases` says, and each of those ways keeps the canonical form. -/
theorem exec_keeps_wf {c : Instr} {s t : State} (hs : s.mem.wf = true) (h : exec c s = .next t) :
    t.mem.wf = true := by
  rcases exec_mem_cases h with hmem | ⟨_, hmem⟩ | ⟨_, f, _, hmem⟩ <;> rw [hmem]
  · exact hs
  · exact tornMemory_wf s hs
  · exact performRequest_wf _ _ hs

/-- Settles O52: a step runs the front command on the same memory, or idles. -/
theorem memoryFormIsKept : Obligations.MemoryFormIsKept := by
  intro s t hs hstep
  exact step_keeps_of_exec (P := fun s => s.mem.wf = true) (fun _ _ h => h) (fun _ _ _ h hs => exec_keeps_wf hs h) hs
    hstep

/-! ### The bytes a request writes -/

theorem readByte_writeWord_of_not_writesByte {r : Request} {k : Nat} (hkind : r.kind = .write) (h : ¬ WritesByte r k)
    (m : Memory) (w : Word16) : readByte (writeWord m r.address r.lanes w) k = readByte m k :=
  readByte_writeWord_other _ _ _ _ _ (fun hlow hk => h ⟨hkind, .inl ⟨hlow, hk⟩⟩)
    fun hhigh hk => h ⟨hkind, .inr ⟨hhigh, hk⟩⟩

/-- A completed access changes the bytes that its request writes, and no other. -/
theorem readByte_performRequest {r : Request} {k : Nat} (h : ¬ WritesByte r k) (m : Memory) :
    readByte (performRequest r m) k = readByte m k := by
  simp only [performRequest]
  split
  · rfl
  next hkind =>
    exact readByte_writeWord_of_not_writesByte hkind h m _

/-- The failure of the supply leaves open the bytes that the write in flight writes, and no other (R136). -/
theorem readByte_tornMemory {s : State} {k : Nat} (h : ∀ f, s.port.flight = some f → ¬ WritesByte f.request k) :
    readByte (tornMemory s) k = readByte s.mem k := by
  simp only [tornMemory]
  split
  · rfl
  next f hf =>
    split
    · rfl
    next hkind =>
      exact readByte_writeWord_of_not_writesByte hkind (h f hf) _ _

theorem performRequest_of_write {r : Request} {w : Word16} (hkind : r.kind = .write) (hdata : r.data = some w)
    (m : Memory) : performRequest r m = writeWord m r.address r.lanes w := by
  simp only [performRequest, hkind, hdata, Option.getD_some]

/-- Settles O59: the first part by the ways in which a command changes memory, the second by the laws of a word just
written. -/
theorem memoryChangesOnlyWhereAWordCompletes : Obligations.MemoryChangesOnlyWhereAWordCompletes := by
  refine ⟨fun c s t k h hk => ?changed, fun s f w hpowered hwf hflight hkind hdata => ?written⟩
  case changed =>
    have hwrites : (t.mem = tornMemory s ∨ ∃ f, s.port.flight = some f ∧ t.mem = performRequest f.request s.mem) →
        ∃ f, s.port.flight = some f ∧ WritesByte f.request k := by
      rintro (hmem | ⟨f, hf, hmem⟩)
      · by_contra hnone
        exact hk (hmem ▸ readByte_tornMemory fun f hf hw => hnone ⟨f, hf, hw⟩)
      · by_contra hnone
        exact hk (hmem ▸ readByte_performRequest (fun hw => hnone ⟨f, hf, hw⟩) _)
    rcases exec_mem_cases h with hmem | ⟨hc, hmem⟩ | ⟨hc, f, hf, hmem⟩
    · exact absurd (by rw [hmem]) hk
    · exact ⟨hwrites (.inl hmem), .inr hc⟩
    · exact ⟨hwrites (.inr ⟨f, hf, hmem⟩), .inl hc⟩
  case written =>
    refine ⟨completeWordAccess s, whenPowered_powered hpowered _, ?_⟩
    rw [completeWordAccess_mem, hflight]
    simp only [performRequest_of_write hkind hdata]
    exact ⟨readByte_writeWord_low _ _ _ _ hwf, readByte_writeWord_high _ _ _ _ hwf⟩

end Sys2Proof.Proofs
end

