-- ==== Sys2Proof/Proofs/ClearedVolume.lean ====
section
/-! PROOFS. The volume outside READY: every effect leaves the Translation Table, the free list, the commit, the guard
tables and the group cleared there (R23, R27, R32, R57, R58, R111, R112). -/

namespace Sys2Proof.Proofs

open Sys2Proof.Machine Sys2Proof.Claims

/-! ### The cleared volume -/

/-- What `ClearedOutsideReady` asks of a state outside READY. -/
def VolumeCleared (s : State) : Prop :=
  s.xlate = clearedTable ∧ s.pool = [] ∧ s.commit = { latch := false, record := none } ∧
    s.guards.current = [] ∧ s.guards.staged = none ∧
    ∃ running, s.group = idleGroup running ∧ ∀ f, running = some f → f.mergeWanted = false ∧ f.entry = none

theorem clearedOutsideReady_iff (s : State) :
    ClearedOutsideReady s ↔ (s.mount.device ≠ .ready → VolumeCleared s) := Iff.rfl

/-- The volume stays cleared where the group is the same and the volume's other blocks too. -/
theorem VolumeCleared.congr {s t : State} (h : VolumeCleared s) (hxlate : t.xlate = s.xlate) (hpool : t.pool = s.pool)
    (hcommit : t.commit = s.commit) (hguards : t.guards = s.guards) (hgroup : t.group = s.group) :
    VolumeCleared t := by
  simpa only [VolumeCleared, hxlate, hpool, hcommit, hguards, hgroup] using h

/-- The running fill may move on, as long as it has nothing to release. -/
theorem VolumeCleared.with_running {s t : State} (h : VolumeCleared s) (hxlate : t.xlate = s.xlate)
    (hpool : t.pool = s.pool) (hcommit : t.commit = s.commit) (hguards : t.guards = s.guards)
    {running : Option Fill} (hgroup : t.group = { s.group with running := running })
    (hrunning : ∀ f, running = some f → f.mergeWanted = false ∧ f.entry = none) : VolumeCleared t := by
  obtain ⟨h1, h2, h3, h4, h5, r, h6, -⟩ := h
  exact ⟨hxlate.trans h1, hpool.trans h2, hcommit.trans h3, by rw [hguards, h4], by rw [hguards, h5], running,
    by rw [hgroup, h6]; rfl, hrunning⟩

section
variable {s : State}

/-- With the volume cleared no fill waits, and the running one has nothing to release. -/
theorem VolumeCleared.running (h : VolumeCleared s) {f : Fill} (hf : s.group.running = some f) :
    f.mergeWanted = false ∧ f.entry = none := by
  obtain ⟨-, -, -, -, -, r, hgroup, hr⟩ := h
  rw [hgroup] at hf
  exact hr f hf

/-- With the volume cleared the engine requester has nothing to pass on to. -/
theorem VolumeCleared.engineNext_eq (h : VolumeCleared s) : engineNext s = s := by
  obtain ⟨-, -, -, -, -, r, hgroup, -⟩ := h
  simp only [engineNext, hgroup, idleGroup]
  split <;> rfl

/-! ### Accesses outside READY -/

theorem classify_ne_atomic (h : s.mount.device ≠ .ready) (page : Nat) (kind : AccessKind) :
    classify s page kind = .notReady ∨ classify s page kind = .raw := by
  cases hd : s.mount.device <;> simp_all [classify]

/-- Outside READY an access touches neither the volume nor the group. -/
theorem VolumeCleared.serveAccess (h : VolumeCleared s) (hd : s.mount.device ≠ .ready) (a : Access) :
    VolumeCleared (serveAccess a s) := by
  rcases classify_ne_atomic hd (pageOf a.address) a.kind with hc | hc
  all_goals
    simp only [Machine.serveAccess, serveClass, hc]
    exact h.congr (by simp) (by simp) (by simp) (by simp) (by simp)

theorem VolumeCleared.takeAccess (h : VolumeCleared s) (hd : s.mount.device ≠ .ready) (address : Addr)
    (hoe hwe hlb hub : Bool) (w : Word16) : VolumeCleared (takeAccess address hoe hwe hlb hub w s) := by
  simp only [Machine.takeAccess]
  split
  · exact h
  · exact VolumeCleared.congr
      (VolumeCleared.serveAccess (s := { s with host := { s.host with cycleTaken := true } }) h hd _) rfl rfl rfl rfl
      rfl

/-- A host that gives its access up drops the merge of a fill that runs. -/
theorem VolumeCleared.endCycle (h : VolumeCleared s) : VolumeCleared (endCycle s) := by
  have hdrop : VolumeCleared { s with group := { s.group with running := s.group.running.map dropMerge } } := by
    refine h.with_running rfl rfl rfl rfl rfl fun f hf => ?_
    obtain ⟨f', hf', rfl⟩ := Option.map_eq_some_iff.mp hf
    exact ⟨rfl, (h.running hf').2⟩
  have hgive : VolumeCleared (giveUp s) := by
    have hw : s.group.waiting = none := by
      obtain ⟨-, -, -, -, -, r, hgroup, -⟩ := h
      rw [hgroup]; rfl
    simp only [giveUp, hw]
    split
    · exact h
    · exact hdrop.congr rfl rfl rfl rfl (by simp [hw])
    · exact h
  simp only [Machine.endCycle]
  split
  · exact hgive
  · exact h

/-! ### The engine outside READY -/

theorem VolumeCleared.startFill (h : VolumeCleared s) {f : Fill} (hf : f.mergeWanted = false ∧ f.entry = none) :
    VolumeCleared (startFill f s) :=
  h.with_running (running := some f) rfl rfl rfl rfl rfl (by rintro f' hf'; cases hf'; exact hf)

/-- What a fill that has ended releases: nothing when it was given up. -/
theorem releaseFill_of_given_up {f : Fill} (h : f.mergeWanted = false) (t : State) : releaseFill f t = t := by
  simp only [releaseFill, h]
  split <;> trivial

/-- A fill that runs on outside READY only copies, and its end releases nothing. -/
theorem VolumeCleared.fillStep (h : VolumeCleared s) {f : Fill} (hf : f.mergeWanted = false ∧ f.entry = none)
    (w : Word16) : VolumeCleared (fillStep f w s) := by
  simp only [Machine.fillStep]
  split
  · exact h.with_running (running := some { f with held := some w }) rfl rfl rfl rfl rfl
      (by rintro f' hf'; cases hf'; exact hf)
  · split
    · exact h.startFill hf
    · have hended : VolumeCleared { s with group := { s.group with running := none } } :=
        h.with_running (running := none) rfl rfl rfl rfl rfl (by simp)
      obtain ⟨hmerge, hentry⟩ := hf
      simp only [endFill, hentry]
      rw [releaseFill_of_given_up hmerge, hended.engineNext_eq]
      exact hended

/-- The Mount Engine either loads a volume, and the device is READY, or leaves what was cleared. -/
theorem VolumeCleared.mountStep (h : VolumeCleared s) (w : Word16) : ClearedOutsideReady (mountStep w s) := by
  have hnothing : ∀ device reason, VolumeCleared (mountNothing device reason s) := fun device reason =>
    h.congr (by simp) (by simp) (by simp) (by simp) (by simp)
  simp only [Machine.mountStep]
  split
  · exact fun _ => h
  · exact fun _ => h
  · split
    · exact fun _ => h
    · split
      · exact fun _ => h
      next va _ =>
        cases hm : mountDecision va (judge _ _) with
        | ready slot image => exact fun hd => absurd rfl hd
        | unformatted => exact fun _ => hnothing .unformatted none
        | faulted reason => exact fun _ => hnothing .faulted (some reason)
      · exact fun _ => h

theorem VolumeCleared.formatStep (h : VolumeCleared s) (w : Word16) : ClearedOutsideReady (formatStep w s) := by
  simp only [Machine.formatStep]
  split
  · exact fun _ => h
  · split
    · exact fun _ => h
    · exact fun _ => h
    · exact fun _ => h
    · split <;> exact fun _ => h
    · exact fun hd => absurd rfl hd

theorem VolumeCleared.completeEngine (h : VolumeCleared s) (hd : s.mount.device ≠ .ready) (w : Word16) :
    ClearedOutsideReady (completeEngine w s) := by
  cases hr : s.group.running with
  | some f => simp only [Machine.completeEngine, hr]; exact fun _ => h.fillStep (h.running hr) w
  | none =>
    cases hdev : s.mount.device <;> simp only [Machine.completeEngine, hr, hdev]
    case ready => exact absurd hdev hd
    case mounting => exact h.mountStep w
    case formatting => exact h.formatStep w
    all_goals exact fun _ => h

theorem VolumeCleared.resumeEngine (h : VolumeCleared s) : VolumeCleared (resumeEngine s) := by
  simp only [Machine.resumeEngine]
  split
  next f hf =>
    exact h.startFill (h.running hf)
  · rwa [h.engineNext_eq]

theorem VolumeCleared.deliver (h : VolumeCleared s) (hd : s.mount.device ≠ .ready) (f : Flight) (underReset : Bool)
    (w : Word16) : ClearedOutsideReady (deliver f underReset w s) := by
  simp only [Machine.deliver]
  split
  · exact fun _ => h
  · exact fun _ => h.resumeEngine
  · exact fun _ => h.congr (by simp) (by simp) (by simp) (by simp) (by simp)
  · exact h.completeEngine hd w

theorem VolumeCleared.completeWordAccess (h : VolumeCleared s) (hd : s.mount.device ≠ .ready) :
    ClearedOutsideReady (completeWordAccess s) := by
  cases hf : s.port.flight with
  | none => simp only [Machine.completeWordAccess, hf]; exact fun _ => h
  | some f =>
    rw [completeWordAccess_eq_deliver hf]
    exact VolumeCleared.deliver (s := completed _ s) h hd f _ _

/-! ### Clearing the volume -/

/-- HALTED and RESET_HELD are entered with everything cleared, whatever was there. -/
theorem volumeCleared_enterHalted (s : State) : VolumeCleared (enterHalted s) :=
  ⟨rfl, rfl, rfl, rfl, rfl, none, rfl, by simp⟩

theorem volumeCleared_enterReset (s : State) : VolumeCleared (enterReset s) :=
  ⟨rfl, rfl, rfl, rfl, rfl, none, rfl, by simp⟩

/-- Leaving READY by command clears the volume, and takes from a fill that runs on what it had to release. -/
theorem volumeCleared_discardVolume (s : State) : VolumeCleared (discardVolume s) := by
  refine ⟨rfl, rfl, rfl, rfl, rfl, _, rfl, fun f hf => ?_⟩
  obtain ⟨f', -, rfl⟩ := Option.map_eq_some_iff.mp hf
  exact ⟨rfl, rfl⟩

theorem VolumeCleared.enterMounting (h : VolumeCleared s) (cause : MountCause) :
    VolumeCleared (enterMounting cause s) :=
  h.congr (by simp) (by simp) (by simp) (by simp) (by simp)

theorem VolumeCleared.leaveReset (h : VolumeCleared s) : VolumeCleared (leaveReset s) := by
  simp only [Machine.leaveReset]
  split
  · exact volumeCleared_enterHalted _
  · exact h.congr (by simp) (by simp) (by simp) (by simp) (by simp)

/-! ### The takes outside READY -/

/-- Outside READY a command on the volume changes nothing (R143). -/
theorem onVolume_not_ready (hd : s.mount.device ≠ .ready) (serve : State → List Byte × State) :
    (onVolume serve s).2 = s := by
  rcases onVolume_cases serve s with ⟨hready, -⟩ | ⟨-, r, h⟩
  · exact absurd hready hd
  · rw [h]

/-- FORMAT either discards the volume or changes nothing (R104, R105). -/
theorem takeFormat_cases (args : List Byte) (s : State) :
    (takeFormat args s).2 = s ∨ (takeFormat args s).2 = discardVolume (enterFormatting (geometryOf args) s) := by
  simp only [takeFormat, formatChecked, resultOnly]
  repeat' split
  all_goals simp

/-- REMOUNT either discards the volume or changes nothing (R109, R110). -/
theorem takeRemount_cases (args : List Byte) (s : State) :
    (takeRemount args s).2 = s ∨ (takeRemount args s).2 = acceptRemount s := by
  simp only [takeRemount, resultOnly]
  repeat' split
  all_goals simp

end

/-- Where the device and the volume's blocks are left alone, the volume stays cleared outside READY. -/
theorem clearedOutsideReady_congr {s t : State} (h : ClearedOutsideReady s) (hmount : t.mount = s.mount)
    (hxlate : t.xlate = s.xlate) (hpool : t.pool = s.pool) (hcommit : t.commit = s.commit)
    (hguards : t.guards = s.guards) (hgroup : t.group = s.group) : ClearedOutsideReady t := fun hd =>
  VolumeCleared.congr (h (hmount ▸ hd)) hxlate hpool hcommit hguards hgroup

theorem clearedOutsideReady_take {take : List Byte → State → List Byte × State} (htake : take ∈ takes)
    (args : List Byte) {s : State} (h : ClearedOutsideReady s) : ClearedOutsideReady (take args s).2 := by
  have hvolume : ∀ serve : State → List Byte × State, (onVolume serve s).2.mount = s.mount →
      ClearedOutsideReady (onVolume serve s).2 := by
    intro serve hmount hd
    rw [hmount] at hd
    rw [onVolume_not_ready hd]
    exact h hd
  refine takes_all (Q := fun take => ClearedOutsideReady (take args s).2) ?status ?configRead ?configWrite ?eventPop
    ?eventAck ?commit ?abort ?groupList ?mapQuery ?guardRead ?guardStage ?guardDiscard ?format ?remount take htake
  case commit => exact hvolume _ (show (takeCommit args s).2.mount = s.mount by simp)
  case abort => exact hvolume _ (show (takeAbort args s).2.mount = s.mount by simp)
  case guardStage => exact hvolume _ (show (takeGuardStage args s).2.mount = s.mount by simp)
  case guardDiscard => exact hvolume _ (show (takeGuardDiscard args s).2.mount = s.mount by simp)
  case format =>
    rcases takeFormat_cases args s with hf | hf <;> rw [hf]
    · exact h
    · exact fun _ => volumeCleared_discardVolume _
  case remount =>
    rcases takeRemount_cases args s with hf | hf <;> rw [hf]
    · exact h
    · exact fun _ => volumeCleared_discardVolume _
  all_goals exact clearedOutsideReady_congr h (by simp) (by simp) (by simp) (by simp) (by simp) (by simp)

/-! ### Every effect -/

/-- An effect that does not change the device has to keep the volume cleared, and one in READY keeps nothing. -/
theorem clearedOutsideReady_of_device {s t : State} (h : ClearedOutsideReady s) (hmount : t.mount = s.mount)
    (hkeeps : VolumeCleared s → s.mount.device ≠ .ready → VolumeCleared t) : ClearedOutsideReady t := fun hd =>
  hkeeps (h (hmount ▸ hd)) (hmount ▸ hd)

/-- The ends of RESET_HELD, from the cleared volume of that state. -/
theorem clearedOutsideReady_endPowerOn {s : State} (h : ClearedOutsideReady s) :
    ClearedOutsideReady (endPowerOn s) := by
  simp only [endPowerOn]
  split
  next hc =>
    have hv : VolumeCleared { s with supply := { s.supply with powerOnEnded := true } } := h (by simp [hc.1])
    split
    · exact fun _ => hv
    · exact fun _ => hv.leaveReset
  · exact h

theorem clearedOutsideReady_releaseRst {s : State} (h : ClearedOutsideReady s) :
    ClearedOutsideReady (releaseRst s) := by
  simp only [releaseRst]
  split
  next hd _ _ =>
    have hv : VolumeCleared { s with supply := { s.supply with rst := false } } := h (by simp [hd])
    exact fun _ => hv.leaveReset
  · exact h

theorem clearedOutsideReady_effect (s t : State) (he : Effect s t) (h : ClearedOutsideReady s) :
    ClearedOutsideReady t := by
  cases he with
  | nothing => exact h
  | power pfail rst scs => exact fun _ => ⟨rfl, rfl, rfl, rfl, rfl, none, rfl, by simp⟩
  | supplyLost => exact fun _ => ⟨rfl, rfl, rfl, rfl, rfl, none, rfl, by simp⟩
  | powerOnEnded => exact clearedOutsideReady_endPowerOn h
  | rstReleased => exact clearedOutsideReady_releaseRst h
  | rstAsserted =>
    simp only [assertRst]
    split
    · exact h
    all_goals exact fun _ => volumeCleared_enterReset s
  | pfailAsserted =>
    simp only [assertPfail]
    split
    · exact h
    · exact h
    all_goals exact fun _ => volumeCleared_enterHalted _
  | pfailReleased =>
    simp only [releasePfail]
    split
    next hd =>
      have hv : VolumeCleared (setPfail false s) := h (by simp [hd])
      exact fun _ => hv.enterMounting _
    all_goals exact h
  | taken address hoe hwe hlb hub hd =>
    exact clearedOutsideReady_of_device h (by simp) fun hv hd => hv.takeAccess hd _ _ _ _ _ _
  | cycleEnded => exact clearedOutsideReady_of_device h (by simp) fun hv _ => hv.endCycle
  | wordCompleted =>
    by_cases hd : s.mount.device = .ready
    · refine fun hnot => absurd ?_ hnot
      rw [completeWordAccess_mount (by simp [hd]) (by simp [hd]), hd]
    · exact VolumeCleared.completeWordAccess (h hd) hd
  | mountStarted =>
    simp only [startMount]
    split
    next hd _ _ _ =>
      have hv : VolumeCleared s := h (by simp [hd])
      exact fun _ => hv
    · exact h
  | formatStarted =>
    simp only [startFormatWrites]
    split
    next hd _ _ _ =>
      have hv : VolumeCleared s := h (by simp [hd])
      split
      · exact fun _ => hv
      · exact h
    · exact h
  | ticked =>
    refine clearedOutsideReady_of_device h (by simp) fun hv _ => ?_
    simp only [takeTick]
    split
    · exact hv
    · refine hv.congr rfl rfl rfl rfl ?_
      obtain ⟨-, -, -, -, -, r, hgroup, -⟩ := hv
      simp [hgroup, idleGroup]
  | requested =>
    refine clearedOutsideReady_of_device h (by simp) fun hv hd => ?_
    simp only [takeCmt]
    split
    · exact absurd ‹_› hd
    all_goals exact hv
  | completeEnded => exact clearedOutsideReady_of_device h (by simp) fun hv hd => by simp [endComplete, hd, hv]
  | switched => exact clearedOutsideReady_of_device h (by simp) fun hv hd => by simp [takeSwitch, hd, hv]
  | expired => exact clearedOutsideReady_of_device h (by simp) fun hv hd => by simp [expire, hd, hv]
  | pulseEnded => exact h
  | command code args given response take _ htake => exact clearedOutsideReady_take htake given h
  | dataReleased | frameBegun | frameEnded | framed =>
    exact clearedOutsideReady_congr h (by simp) (by simp) (by simp) (by simp) (by simp) (by simp)

/-- Settles O53. -/
theorem volumeIsClearedOutsideReady : Obligations.VolumeIsClearedOutsideReady := fun _ _ hs hstep =>
  step_keeps (P := ClearedOutsideReady) (fun _ _ h => h) clearedOutsideReady_effect hs hstep

end Sys2Proof.Proofs
end

