-- ==== Sys2Proof/Proofs/PoolSplit.lean ====
section
/-! PROOFS. The pool and what is split from it: the claims' geometry in the model's words, the frames a volume can map,
and the exchange of shadow and superseded frames that a SWITCH makes in the map cache (R19, R22, R29 to R31). -/

namespace Sys2Proof.Proofs

open Sys2Proof.Machine Sys2Proof.Claims

/-! ### The geometry in the claims' words -/

theorem framesOf_eq_frameCount (code : Nat) : framesOf code = frameCount code := by
  match code with
  | 0 | 1 | 2 | 3 => rfl
  | n + 4 => rfl

theorem geometry_ok_iff (g : Geometry) : g.ok = true ↔ GeometryOk g := by
  have hcode : 1 ≤ g.sizeCode ∧ g.sizeCode ≤ 3 ↔ g.sizeCode = 1 ∨ g.sizeCode = 2 ∨ g.sizeCode = 3 := by omega
  simp only [Geometry.ok, Bool.and_eq_true, decide_eq_true_eq, framesOf_eq_frameCount, hcode, and_assoc]

theorem poolFrames_eq_poolList (g : Geometry) : g.poolFrames = poolList g := by
  rw [Geometry.poolFrames, framesOf_eq_frameCount, poolList]

theorem inPool_iff_mem_poolList (g : Geometry) (f : Nat) : g.inPool f = true ↔ f ∈ poolList g := by
  rw [← mem_poolFrames, poolFrames_eq_poolList]

theorem nodup_poolList (g : Geometry) : (poolList g).Nodup := List.nodup_range'

/-! ### Frames that a volume can map -/

/-- The map of a valid verdict is one a volume can have: the conditions 3 to 7 of R85 are those of `MapOk`. -/
theorem mapOk_of_judge {words : List Word16} {acc : BitVec 32} {im : Image} (h : judge words acc = .valid im) :
    MapOk im.geometry im.entries := by
  simp only [judge] at h
  split at h
  · cases h
  · split at h
    · cases h
    · split at h
      next hc =>
        cases h
        obtain ⟨-, -, hok, -, hlength, hpool, hnodup⟩ := hc
        refine ⟨(geometry_ok_iff _).mp hok, hlength, hnodup, fun f hf => ?_⟩
        exact (inPool_iff_mem_poolList _ f).mp (List.all_eq_true.mp hpool f hf)
      · cases h

/-- A fresh volume maps the first P pool frames. -/
theorem mapOk_freshMap {g : Geometry} (h : GeometryOk g) : MapOk g (freshMap g) := by
  have hfit : 32 + g.d + g.p + 2 ≤ frameCount g.sizeCode := by
    obtain ⟨-, -, -, hfit, -⟩ := h
    exact hfit
  refine ⟨h, List.length_range', List.nodup_range', fun f hf => ?_⟩
  simp only [freshMap, poolList, List.mem_range'_1] at hf ⊢
  omega

/-- A loading splits the pool between the map and the free list. -/
theorem freeFrames_append_map_perm {g : Geometry} {map : List Nat} (h : MapOk g map) :
    (g.freeFrames map ++ map).Perm (poolList g) := by
  obtain ⟨-, -, hnodup, hpool⟩ := h
  have hdisjoint : (g.freeFrames map).Disjoint map := fun f hfree hmap =>
    ((mem_freeFrames g map f).mp hfree).2 hmap
  have hfree : (g.freeFrames map).Nodup := by
    rw [Geometry.freeFrames, poolFrames_eq_poolList]
    exact (nodup_poolList g).filter _
  refine (List.perm_ext_iff_of_nodup (hfree.append hnodup hdisjoint) (nodup_poolList g)).mpr fun f => ?_
  rw [List.mem_append, mem_freeFrames, poolFrames_eq_poolList]
  by_cases hf : f ∈ map
  · simp [hf, hpool f hf]
  · simp [hf]

/-! ### The map of an image (R22) -/

/-- To put a frame in place of another exchanges the two. -/
theorem cons_set_perm (x : Nat) : ∀ (map : List Nat) (i : Nat), i < map.length →
    ((map[i]?).getD 0 :: map.set i x).Perm (x :: map)
  | y :: map, 0, _ => List.Perm.swap x y map
  | y :: map, i + 1, hi => by
    have ih := cons_set_perm x map i (Nat.lt_of_succ_lt_succ hi)
    calc ((map[i]?).getD 0 :: y :: map.set i x).Perm (y :: (map[i]?).getD 0 :: map.set i x) := .swap ..
      _ |>.Perm (y :: x :: map) := ih.cons y
      _ |>.Perm (x :: y :: map) := .swap ..

/-- The entries of a group are of distinct pages of the window, each superseding the frame its page has in `map`. -/
def Supersedes (d : Nat) (table : List Entry) (map : List Nat) : Prop :=
  (table.map Entry.page).Nodup ∧
    ∀ e ∈ table, d ≤ e.page ∧ e.page < d + map.length ∧ e.superseded = (map[e.page - d]?).getD 0

/-- The remaining entries supersede the same frames once the first has put its shadow frame in place. -/
theorem Supersedes.tail {d : Nat} {e : Entry} {table : List Entry} {map : List Nat}
    (h : Supersedes d (e :: table) map) : Supersedes d table (map.set (e.page - d) e.shadow) := by
  obtain ⟨hnodup, hentries⟩ := h
  obtain ⟨hfresh, hnodup⟩ := List.nodup_cons.mp hnodup
  obtain ⟨hfirst, -, -⟩ := hentries e List.mem_cons_self
  refine ⟨hnodup, fun e' he' => ?_⟩
  obtain ⟨hlow, hhigh, hsuperseded⟩ := hentries e' (List.mem_cons_of_mem e he')
  have hpage : e.page ≠ e'.page := fun heq => hfresh (heq ▸ List.mem_map_of_mem he')
  rw [List.length_set, List.getElem?_set_ne (by omega)]
  exact ⟨hlow, hhigh, hsuperseded⟩

/-- A SWITCH exchanges the group's shadow frames with the frames they supersede, one entry after the other. -/
theorem committedMap_perm (d : Nat) : ∀ (table : List Entry) (map : List Nat), Supersedes d table map →
    (committedMap d table map ++ table.map Entry.superseded).Perm (map ++ table.map Entry.shadow)
  | [], map, _ => .rfl
  | e :: table, map, h => by
    have ih := committedMap_perm d table _ h.tail
    obtain ⟨-, hentries⟩ := h
    obtain ⟨hlow, hhigh, hsuperseded⟩ := hentries e List.mem_cons_self
    have hexchange := cons_set_perm e.shadow map (e.page - d) (by omega)
    rw [← hsuperseded] at hexchange
    calc (committedMap d (e :: table) map ++ e.superseded :: table.map Entry.superseded).Perm
          (e.superseded :: (committedMap d (e :: table) map ++ table.map Entry.superseded)) := List.perm_middle
      _ |>.Perm (e.superseded :: (map.set (e.page - d) e.shadow ++ table.map Entry.shadow)) := ih.cons _
      _ |>.Perm (e.shadow :: (map ++ table.map Entry.shadow)) := hexchange.append_right _
      _ |>.Perm (map ++ e.shadow :: table.map Entry.shadow) := List.perm_middle.symm

theorem length_committedMap (d : Nat) : ∀ (table : List Entry) (map : List Nat),
    (committedMap d table map).length = map.length
  | [], _ => rfl
  | _ :: table, _ => (length_committedMap d table _).trans List.length_set

end Sys2Proof.Proofs
end

