-- ==== Sys2Proof/Proofs/Partition.lean ====
section
/-! PROOFS. The pool partition: in READY every effect keeps the pool split between the free list, the map cache and the
group's shadow frames, and what a mount or a format holds can be loaded (R31, R85, R104). -/

namespace Sys2Proof.Proofs

open Sys2Proof.Machine Sys2Proof.Claims

/-! ### The partition, cut into the pool's part and the Host Path's -/

/-- The pool's part of `Partition`: the frames, and the group's entries. -/
def PoolSplit (g : Geometry) (s : State) : Prop :=
  s.xlate.geometry = some g ∧ GeometryOk g ∧ s.xlate.map.length = g.p ∧
    (s.pool ++ s.xlate.map ++ s.group.table.map Entry.shadow).Perm (poolList g) ∧
    Supersedes g.d s.group.table s.xlate.map

/-- An access of the atomic window. -/
def InWindow (g : Geometry) (a : Access) : Prop :=
  a.cls = .atomic → g.d ≤ pageNo a.address ∧ pageNo a.address < g.d + g.p

/-- The Host Path's part of `Partition`: what is held for a line fill is atomic, and what is atomic has its page. -/
def Placed (g : Geometry) (s : State) : Prop :=
  ∀ a, s.host.access = some a → (s.host.hold = .lineFill → a.cls = .atomic) ∧ InWindow g a

def Volume (g : Geometry) (s : State) : Prop := PoolSplit g s ∧ Placed g s

theorem partition_iff (s : State) : Partition s ↔ (s.mount.device = .ready → ∃ g, Volume g s) := by
  refine imp_congr_right fun _ => exists_congr fun g => ?_
  constructor
  · rintro ⟨hg, hok, hlength, hperm, hnodup, hentries, hhost⟩
    exact ⟨⟨hg, hok, hlength, hperm, hnodup, hlength ▸ hentries⟩, hhost⟩
  · rintro ⟨⟨hg, hok, hlength, hperm, hnodup, hentries⟩, hhost⟩
    exact ⟨hg, hok, hlength, hperm, hnodup, hlength ▸ hentries, hhost⟩

section
variable {g : Geometry} {s t : State}

theorem PoolSplit.congr (h : PoolSplit g s) (hxlate : t.xlate = s.xlate) (hpool : t.pool = s.pool)
    (htable : t.group.table = s.group.table) : PoolSplit g t := by
  simpa only [PoolSplit, hxlate, hpool, htable] using h

theorem Placed.congr (h : Placed g s) (hhost : t.host = s.host) : Placed g t := by
  simpa only [Placed, hhost] using h

theorem Volume.congr (h : Volume g s) (hxlate : t.xlate = s.xlate) (hpool : t.pool = s.pool)
    (htable : t.group.table = s.group.table) (hhost : t.host = s.host) : Volume g t :=
  ⟨h.1.congr hxlate hpool htable, h.2.congr hhost⟩

/-! ### The access in service -/

theorem placed_of_no_access (h : s.host.access = none) : Placed g s := by
  intro a ha
  rw [h] at ha
  cases ha

theorem refuse_access (a : Access) (notReady : Bool) (s : State) : (refuse a notReady s).host.access = none := by
  rw [refuse_eq]

theorem placed_refuse (a : Access) (notReady : Bool) : Placed g (refuse a notReady s) :=
  placed_of_no_access (refuse_access a notReady s)

theorem placed_requestHost {a : Access} (ha : InWindow g a) (frame : Nat) : Placed g (requestHost frame a s) := by
  rintro _ ⟨⟩
  exact ⟨nofun, ha⟩

theorem placed_holdAccess {a : Access} (hatomic : a.cls = .atomic) (ha : InWindow g a) (why : HoldReason) :
    Placed g (holdAccess why a s) := by
  rintro _ ⟨⟩
  exact ⟨fun _ => hatomic, ha⟩

/-! ### The group table -/

@[simp] theorem orderFill_table (e : Entry) (line : Nat) (s : State) :
    (orderFill e line s).group.table = s.group.table := by
  rcases orderFill_cases e line s with ⟨_, h⟩ | ⟨_, _, ⟨_, _, h⟩ | ⟨_, h⟩⟩ <;> simp only [h]
  rfl

@[simp] theorem engineNext_table (s : State) : (engineNext s).group.table = s.group.table := by
  simp only [engineNext]
  repeat' split
  all_goals simp [startFill, requestEngine]

@[simp] theorem resumeEngine_table (s : State) : (resumeEngine s).group.table = s.group.table := by
  simp only [resumeEngine]
  split
  · rfl
  · simp

theorem Volume.orderFill (h : Volume g s) (e : Entry) (line : Nat) : Volume g (orderFill e line s) :=
  h.congr (by simp) (by simp) (by simp) (by simp)

theorem Volume.engineNext (h : Volume g s) : Volume g (engineNext s) :=
  h.congr (by simp) (by simp) (by simp) (by simp)

/-- A line that becomes present leaves every entry its page and its frames. -/
theorem PoolSplit.markPresent (h : PoolSplit g s) (page line : Nat) :
    PoolSplit g { s with group := { s.group with table := markPresent s.group.table page line } } := by
  obtain ⟨hg, hok, hlength, hperm, hnodup, hentries⟩ := h
  obtain ⟨hpages, hshadows, -⟩ := markPresent_frames s.group.table page line
  refine ⟨hg, hok, hlength, by rwa [hshadows], by rwa [hpages], fun e he => ?_⟩
  obtain ⟨e', he', rfl⟩ := List.mem_map.mp he
  split <;> exact hentries e' he'

theorem committedFrame_eq (h : s.xlate.geometry = some g) (page : Nat) :
    s.committedFrame page = (s.xlate.map[page - g.d]?).getD 0 := by
  simp only [State.committedFrame, State.geometry, h, Option.getD_some]

/-- An entry of a new page takes the head of the free list and supersedes the committed frame (R37). -/
theorem PoolSplit.newEntry (h : PoolSplit g s) {page frame : Nat} {rest : List Nat}
    (hpool : s.pool = frame :: rest) (hpage : g.d ≤ page ∧ page < g.d + g.p)
    (hnew : findEntry s.group.table page = none) (present : BitVec 16) :
    PoolSplit g { s with
      pool := rest
      group := { s.group with table := s.group.table ++
        [{ page := page, shadow := frame, superseded := s.committedFrame page, present := present }] } } := by
  obtain ⟨hg, hok, hlength, hperm, hnodup, hentries⟩ := h
  have hfresh : page ∉ s.group.table.map Entry.page := by
    rintro hmem
    obtain ⟨e, he, rfl⟩ := List.mem_map.mp hmem
    simpa using List.find?_eq_none.mp hnew e he
  refine ⟨hg, hok, hlength, ?_, ?_, fun e he => ?_⟩
  · rw [hpool] at hperm
    simp only [List.map_append, List.map_cons, List.map_nil, ← List.append_assoc]
    exact List.perm_append_comm.trans hperm
  · simp only [List.map_append, List.map_cons, List.map_nil]
    exact hnodup.append (List.nodup_singleton _) (List.disjoint_singleton.mpr hfresh)
  · rcases List.mem_append.mp he with he | he
    · exact hentries e he
    · obtain rfl := List.mem_singleton.mp he
      exact ⟨hpage.1, hlength ▸ hpage.2, committedFrame_eq hg page⟩

/-- A group given back returns its shadow frames to the free list (R47). -/
theorem PoolSplit.dissolveGroup (h : PoolSplit g s) : PoolSplit g (dissolveGroup s) := by
  obtain ⟨hg, hok, hlength, hperm, hnodup, hentries⟩ := h
  refine ⟨hg, hok, hlength, ?_, List.nodup_nil, nofun⟩
  refine List.Perm.trans ?_ hperm
  simp only [Machine.dissolveGroup, GroupControl.cleared, List.map_nil, List.append_nil, List.append_assoc]
  exact List.perm_append_comm.append_left _

/-- A SWITCH returns the superseded frames to the free list and maps the shadow frames (R22, R29). -/
theorem PoolSplit.switchState (h : PoolSplit g s) (r : CommitRecord) (b : CommitBody) :
    PoolSplit g (switchState r b s) := by
  obtain ⟨hg, hok, hlength, hperm, hentries⟩ := h
  have hmap : (Machine.switchState r b s).xlate.map = committedMap g.d s.group.table s.xlate.map := by
    simp only [Machine.switchState, State.geometry, hg, Option.getD_some]
  refine ⟨hg, hok, by rw [hmap, length_committedMap, hlength], ?_, List.nodup_nil, nofun⟩
  rw [hmap]
  simp only [Machine.switchState, GroupControl.cleared, List.map_nil, List.append_nil, List.append_assoc] at hperm ⊢
  exact ((List.perm_append_comm.trans (committedMap_perm g.d _ _ hentries)).append_left _).trans hperm

/-- A loading splits the pool anew (R30). -/
theorem poolSplit_loadVolume {map : List Nat} (h : MapOk g map) (generation : BitVec 32) (slot : Slot)
    (table : List Guard) (s : State) : PoolSplit g (loadVolume g map generation slot table s) := by
  have hperm := freeFrames_append_map_perm h
  obtain ⟨hok, hlength, -⟩ := h
  refine ⟨rfl, hok, hlength, ?_, List.nodup_nil, nofun⟩
  simpa [loadVolume, GroupControl.cleared] using hperm

/-! ### Routing and serving an access in READY -/

/-- A refused access leaves the volume as it was. -/
theorem PoolSplit.refuse (h : PoolSplit g s) (a : Access) (notReady : Bool) : Volume g (refuse a notReady s) :=
  ⟨h.congr (by simp) (by simp) (by simp), placed_refuse a notReady⟩

theorem PoolSplit.requestHost (h : PoolSplit g s) {a : Access} (ha : InWindow g a) (frame : Nat) :
    Volume g (requestHost frame a s) :=
  ⟨h, placed_requestHost ha frame⟩

theorem PoolSplit.holdAccess (h : PoolSplit g s) {a : Access} (hatomic : a.cls = .atomic) (ha : InWindow g a)
    (why : HoldReason) : Volume g (holdAccess why a s) :=
  ⟨h, placed_holdAccess hatomic ha why⟩

theorem PoolSplit.failGroup (h : PoolSplit g s) (kind : EventKind) (a : Access) : Volume g (failGroup kind a s) :=
  (h.refuse a false).congr rfl rfl rfl rfl

theorem PoolSplit.routeOpen (h : PoolSplit g s) {a : Access} (hatomic : a.cls = .atomic) (ha : InWindow g a) :
    Volume g (routeOpen a s) := by
  simp only [Machine.routeOpen]
  split
  · split
    · exact h.requestHost ha _
    · exact (h.holdAccess hatomic ha _).orderFill _ _
  next hnew =>
    split
    · exact h.failGroup _ a
    · simp only [Machine.newEntry]
      split
      · exact h.failGroup _ a
      next hpool =>
        exact ((h.newEntry hpool (ha hatomic) hnew 0).holdAccess hatomic ha _).orderFill _ _

theorem PoolSplit.routeWrite (h : PoolSplit g s) {a : Access} (hatomic : a.cls = .atomic) (ha : InWindow g a) :
    Volume g (routeWrite a s) := by
  simp only [Machine.routeWrite]
  split
  · exact PoolSplit.routeOpen (s := openGroup s) h hatomic ha
  · exact h.routeOpen hatomic ha
  · exact h.refuse a false
  · exact h.holdAccess hatomic ha _

theorem PoolSplit.serveAtomic (h : PoolSplit g s) {a : Access} (hatomic : a.cls = .atomic) (ha : InWindow g a) :
    Volume g (serveAtomic a s) := by
  simp only [Machine.serveAtomic]
  split
  · exact h.requestHost ha _
  · exact h.routeWrite hatomic ha

/-- The Classifier calls atomic only what lies in the window (R8). -/
theorem inWindow_of_classify (hd : s.mount.device = .ready) (hg : s.xlate.geometry = some g) (a : Access) :
    InWindow g { a with cls := classify s (pageOf a.address) a.kind } := by
  intro hatomic
  simp only [classify_of_mounted ⟨hd, hg⟩] at hatomic
  by_cases hpage : pageOf a.address < g.d + g.p
  · rw [classifyReady_of_backed hpage] at hatomic
    split at hatomic
    · cases hatomic
    · refine ⟨Nat.not_lt.mp fun hlow => ?_, hpage⟩
      rw [windowClass_of_lt (page := pageOf a.address) hlow] at hatomic
      cases hatomic
  · rw [classifyReady_of_beyond_volume (Nat.not_lt.mp hpage)] at hatomic
    cases hatomic

theorem PoolSplit.serveClass (h : PoolSplit g s) {a : Access} (ha : InWindow g a) : Volume g (serveClass a s) := by
  have hended : Volume g (endService s) := ⟨h, placed_of_no_access rfl⟩
  have hhit : ∀ onRead onWrite, Volume g (hit onRead onWrite a s) := fun onRead onWrite =>
    ⟨h.congr (by simp) (by simp) (by simp), placed_refuse a false⟩
  simp only [Machine.serveClass]
  split
  · exact h.refuse a true
  · simp only [serveRaw]
    split
    · exact PoolSplit.refuse (s := post _ _ _ _ s) h a false
    · split
      · exact hended
      · exact h.requestHost ha _
  · exact hhit _ _
  · exact hhit _ _
  · split
    · exact hended
    · exact h.requestHost ha _
  · split
    · exact hended
    · exact h.serveAtomic ‹_› ha

theorem PoolSplit.serveAccess (h : PoolSplit g s) (hd : s.mount.device = .ready) (a : Access) :
    Volume g (serveAccess a s) :=
  h.serveClass (inWindow_of_classify hd h.1 a)

theorem Volume.takeAccess (h : Volume g s) (hd : s.mount.device = .ready) (address : Addr)
    (hoe hwe hlb hub : Bool) (w : Word16) : Volume g (takeAccess address hoe hwe hlb hub w s) := by
  simp only [Machine.takeAccess]
  split
  · exact h
  · exact PoolSplit.serveAccess (s := { s with host := { s.host with cycleTaken := true } }) h.1 hd _

/-! ### Fills, commits and aborts in READY -/

theorem Volume.releaseFill (h : Volume g s) (f : Fill) : Volume g (releaseFill f s) := by
  obtain ⟨hpool, hhost⟩ := h
  simp only [Machine.releaseFill]
  split
  next a _ ha _ _ _ =>
    exact hpool.requestHost (hhost a ha).2 _
  next a ha hhold _ _ =>
    obtain ⟨hatomic, hwindow⟩ := hhost a ha
    exact hpool.routeWrite (hatomic hhold) hwindow
  · exact ⟨hpool, hhost⟩

theorem Volume.fillStep (h : Volume g s) (f : Fill) (w : Word16) : Volume g (fillStep f w s) := by
  simp only [Machine.fillStep]
  split
  · exact h
  · split
    · exact h
    · simp only [endFill]
      refine (Volume.releaseFill ?_ f).engineNext
      split
      · exact ⟨h.1.markPresent _ _, h.2⟩
      · exact h

theorem requestCopy_volume (h : Volume g s) (r : CommitRecord) : Volume g (requestCopy r s) :=
  h.congr (by simp) (by simp) (by simp) (by simp)

theorem Volume.commitStep (h : Volume g s) (w : Word16) : Volume g (commitStep w s) := by
  have hcopy : ∀ r, Volume g (copyStep r w s) := by
    intro r
    simp only [copyStep]
    split
    · exact h
    · split
      · exact h
      · split
        · exact h
        · exact requestCopy_volume ⟨h.1.markPresent _ _, h.2⟩ r
  have hwrite : ∀ r, Volume g (writeStep r w s) := by
    intro r
    simp only [writeStep]
    split
    · split <;> exact h
    · exact h
  simp only [Machine.commitStep]
  split
  · exact hcopy _
  · exact h
  · exact hwrite _
  · exact h
  · exact h

theorem Volume.completeEngine (h : Volume g s) (hd : s.mount.device = .ready) (w : Word16) :
    Volume g (completeEngine w s) := by
  cases hr : s.group.running with
  | some f => simp only [Machine.completeEngine, hr]; exact h.fillStep f w
  | none => simp only [Machine.completeEngine, hr, hd]; exact h.commitStep w

theorem Volume.completeHost (h : Volume g s) (underReset : Bool) (w : Word16) :
    Volume g (completeHost underReset w s) :=
  ⟨h.1.congr (by simp) (by simp) (by simp), placed_of_no_access (completeHost_spec underReset w s).1⟩

theorem Volume.completeWordAccess (h : Volume g s) (hd : s.mount.device = .ready) :
    Volume g (completeWordAccess s) := by
  cases hf : s.port.flight with
  | none => simp only [Machine.completeWordAccess, hf]; exact h
  | some f =>
    rw [completeWordAccess_eq_deliver hf]
    have hc : Volume g (completed (performRequest f.request s.mem) s) := h
    show Volume g (deliver f _ _ _)
    simp only [deliver]
    split
    · exact hc
    · exact hc.congr (by simp) (by simp) (by simp) (by simp)
    · exact hc.completeHost _ _
    · exact hc.completeEngine hd _

theorem Volume.reroute (h : Volume g s) (hd : s.mount.device = .ready) (table : List Entry) (waited : Bool) :
    Volume g (reroute table waited s) := by
  simp only [Machine.reroute]
  split
  · exact h
  next a ha =>
    obtain ⟨hatomic, hwindow⟩ := h.2 a ha
    split
    · exact h.1.serveAccess hd a
    next hhold =>
      split
      · exact h.1.routeWrite (hatomic hhold) hwindow
      · exact h
    · split
      · exact h
      · split
        next hc =>
          exact PoolSplit.serveAtomic (s := withdrawHost s) h.1 hc.1 hwindow
        · exact h

/-- An abort gives the group back, tells it by an event, and reroutes. -/
theorem Volume.abortGroup (h : Volume g s) (hd : s.mount.device = .ready) (kind : EventKind) (detail : Option Byte) :
    Volume g (abortGroup (post kind none none detail) s) :=
  Volume.reroute (s := post _ _ _ _ (dissolveGroup s)) ⟨h.1.dissolveGroup, h.2⟩ hd _ _

theorem Volume.expire (h : Volume g s) (hd : s.mount.device = .ready) : Volume g (expire s) := by
  simp only [Machine.expire]
  split
  · exact h.abortGroup hd _ _
  · exact h.abortGroup hd _ _
  · exact h

theorem Volume.takeSwitch (h : Volume g s) (hd : s.mount.device = .ready) : Volume g (takeSwitch s) := by
  have hs : ∀ r b, Volume g (switchState r b s) := fun r b => ⟨h.1.switchState r b, h.2⟩
  simp only [Machine.takeSwitch]
  split
  · split
    · show Volume g (releaseCommitHold _)
      simp only [releaseCommitHold]
      split
      · exact PoolSplit.serveAccess (s := post _ _ _ _ (switchState _ _ s)) (hs _ _).1 hd _
      · exact hs _ _
    · exact h
  · exact h

@[simp] theorem startCommit_table (kind : CommitKind) (s : State) :
    (startCommit kind s).group.table = s.group.table := by
  simp only [startCommit, engineNext_table]
  rfl

theorem Volume.startCommit (h : Volume g s) (kind : CommitKind) : Volume g (startCommit kind s) :=
  h.congr (by simp) (by simp) (by simp) (by simp)

theorem Volume.takeCmt (h : Volume g s) : Volume g (takeCmt s) := by
  simp only [Machine.takeCmt]
  split
  · simp only [answerLatch]
    split
    · split
      · exact Volume.startCommit (s := { s with commit := { s.commit with latch := false } }) h _
      · exact h
    · exact h
  all_goals exact h

theorem Volume.endComplete (h : Volume g s) : Volume g (endComplete s) := by
  simp only [Machine.endComplete]
  split
  · split <;> exact h
  · exact h

theorem Volume.endCycle (h : Volume g s) : Volume g (endCycle s) := by
  have hgive : (giveUp s).group.table = s.group.table := by
    simp only [giveUp]
    repeat' split
    all_goals rfl
  simp only [Machine.endCycle]
  split
  · exact ⟨h.1.congr (by simp) (by simp) hgive, placed_of_no_access rfl⟩
  · exact ⟨h.1, placed_of_no_access rfl⟩

/-! ### The takes in READY -/

theorem Volume.takeAbort (h : Volume g s) (hd : s.mount.device = .ready) (args : List Byte) :
    Volume g (takeAbort args s).2 := by
  have habort : ∀ u, Volume g u → u.mount.device = .ready → ∀ n, Volume g (Machine.abortGroup (postAbortDone n) u) :=
    fun u hu hdu n => hu.abortGroup hdu _ _
  have hcancel : Volume g (cancelCommit s) := h.congr (by simp) (by simp) (by simp) (by simp)
  simp only [Machine.takeAbort, onVolume, volumeRefusal, hd]
  split
  · exact h
  · exact habort s h hd _
  · exact habort s h hd _
  · exact habort _ hcancel (by simp [hd]) _
  · exact h

theorem Volume.takeCommit (h : Volume g s) (hd : s.mount.device = .ready) (args : List Byte) :
    Volume g (takeCommit args s).2 := by
  simp only [Machine.takeCommit, onVolume, volumeRefusal, hd]
  split
  · exact h.startCommit _
  · exact h

/-! ### What can be loaded -/

theorem loadable_congr (h : Loadable s) (hrun : t.mount.run = s.mount.run) (hformat : t.mount.format = s.mount.format) :
    Loadable t := by
  simpa only [Loadable, hrun, hformat] using h

/-- With neither a mount nor a format in progress there is nothing to load. -/
theorem loadable_of_idle (hrun : s.mount.run = .idle ∨ s.mount.run = .waiting) (hformat : s.mount.format = none) :
    Loadable s := by
  refine ⟨fun slot im words acc h => ?_, fun f h => ?_⟩
  · rcases hrun with hrun | hrun <;> (rw [hrun] at h; cases h)
  · rw [hformat] at h
    cases h

/-- What `PoolPartitionIsKept` asks of a state. -/
def PoolKept (s : State) : Prop := Partition s ∧ Loadable s

theorem poolKept_of_ready (hs : Volume g s) (hload : Loadable s) : PoolKept s :=
  ⟨(partition_iff s).mpr fun _ => ⟨g, hs⟩, hload⟩

theorem poolKept_of_not_ready (hd : s.mount.device ≠ .ready) (hload : Loadable s) : PoolKept s :=
  ⟨fun hready => absurd hready hd, hload⟩

/-- Where the Mount Engine stands still, READY has to keep the volume. -/
theorem PoolKept.of_mount (h : PoolKept s) (hmount : t.mount = s.mount)
    (hkeeps : ∀ g, s.mount.device = .ready → Volume g s → Volume g t) : PoolKept t := by
  obtain ⟨hpart, hload⟩ := h
  refine ⟨(partition_iff t).mpr fun hd => ?_, loadable_congr hload (by rw [hmount]) (by rw [hmount])⟩
  rw [hmount] at hd
  obtain ⟨g, hv⟩ := (partition_iff s).mp hpart hd
  exact ⟨g, hkeeps g hd hv⟩

/-! ### The Mount Engine -/

/-- A mount takes a volume only from a valid verdict. -/
theorem mountDecision_ready {a b : Verdict} {slot : Slot} {im : Image} (h : mountDecision a b = .ready slot im) :
    a = .valid im ∨ b = .valid im := by
  cases a <;> cases b <;> simp only [mountDecision, choosePair] at h
  case valid.valid =>
    split at h
    · cases h; exact .inl rfl
    · split at h
      · cases h; exact .inr rfl
      · cases h
  all_goals cases h <;> simp

theorem releaseAccess_access (hg : s.port.hostGranted = false) : (releaseAccess s).host.access = none := by
  rcases releaseAccess_cases s with ⟨hnone | hgranted, h⟩ | ⟨a, _, _, h⟩
  · rw [h, hnone]
  · simp [hg] at hgranted
  · rw [h, refuse_access]

/-- A volume that can be loaded is partitioned once it is; with no access granted none stays in service (R17, R30). -/
theorem poolKept_loadVolume {map : List Nat} (hmap : MapOk g map) (hg : s.port.hostGranted = false)
    (generation : BitVec 32) (slot : Slot) (table : List Guard) :
    PoolKept (loadVolume g map generation slot table s) :=
  poolKept_of_ready ⟨poolSplit_loadVolume hmap generation slot table s, placed_of_no_access (releaseAccess_access hg)⟩
    (loadable_of_idle (.inl rfl) rfl)

/-- A mount that reads on can load what its verdict on slot A holds. -/
theorem loadable_readSlotWord {verdictA : Option Verdict}
    (hverdict : ∀ im, verdictA = some (.valid im) → MapOk im.geometry im.entries) (h : Loadable s) (slot : Slot)
    (words : List Word16) (acc : BitVec 32) : Loadable (readSlotWord slot verdictA words acc s) := by
  obtain ⟨-, hformat⟩ := h
  refine ⟨fun _ im _ _ hrun => ?_, hformat⟩
  obtain ⟨-, hva, -⟩ := MountRun.reading.inj hrun
  exact hverdict im hva

theorem PoolKept.mountStep (h : PoolKept s) (hd : s.mount.device ≠ .ready) (hg : s.port.hostGranted = false)
    (w : Word16) : PoolKept (mountStep w s) := by
  simp only [Machine.mountStep]
  split
  · exact h
  · exact h
  next slot verdictA words acc hrun =>
    obtain ⟨hpart, hload⟩ := h
    obtain ⟨hverdict, -⟩ := id hload
    have hva : ∀ im, verdictA = some (.valid im) → MapOk im.geometry im.entries := by
      rintro im rfl
      exact hverdict slot im words acc hrun
    split
    · exact poolKept_of_not_ready hd (loadable_readSlotWord hva hload _ _ _)
    · split
      · exact poolKept_of_not_ready hd
          (loadable_readSlotWord (fun im hv => mapOk_of_judge (Option.some.inj hv)) hload _ _ _)
      next va =>
        cases hm : mountDecision va (judge _ _) with
        | ready slot im =>
          have hmap : MapOk im.geometry im.entries := by
            rcases mountDecision_ready hm with rfl | hv
            · exact hva im rfl
            · exact mapOk_of_judge hv
          exact poolKept_loadVolume hmap hg im.generation slot im.guards
        | unformatted => exact poolKept_of_not_ready nofun (loadable_of_idle (.inl rfl) rfl)
        | faulted reason => exact poolKept_of_not_ready nofun (loadable_of_idle (.inl rfl) rfl)
      · exact ⟨hpart, hload⟩

/-- A format that goes on can load what it was accepted with. -/
theorem loadable_requestFormat {f : FormatRun} (hf : GeometryOk f.geometry) (h : Loadable s) (at' : FormatStep) :
    Loadable (requestFormat f at' s) := by
  obtain ⟨hrun, -⟩ := h
  exact ⟨hrun, by rintro _ ⟨⟩; exact hf⟩

theorem PoolKept.formatStep (h : PoolKept s) (hd : s.mount.device ≠ .ready) (hg : s.port.hostGranted = false)
    (w : Word16) : PoolKept (formatStep w s) := by
  simp only [Machine.formatStep]
  split
  · exact h
  next f hf =>
    obtain ⟨hpart, hload⟩ := h
    have hok : GeometryOk f.geometry := by
      obtain ⟨-, hformat⟩ := hload
      exact hformat f hf
    have hnext : ∀ f' at', f'.geometry = f.geometry → PoolKept (requestFormat f' at' s) :=
      fun f' at' hf' => poolKept_of_not_ready hd (loadable_requestFormat (hf' ▸ hok) hload at')
    split
    · exact ⟨hpart, hload⟩
    · exact hnext _ _ rfl
    · exact hnext _ _ rfl
    · split <;> exact hnext _ _ rfl
    · exact poolKept_loadVolume (mapOk_freshMap hok) hg 1 .a (List.replicate 8 offGuard)

theorem PoolKept.completeEngine (h : PoolKept s) (hg : s.port.hostGranted = false) (w : Word16) :
    PoolKept (completeEngine w s) := by
  by_cases hm : s.mount.device = .mounting
  · cases hr : s.group.running with
    | some f => exact h.of_mount (by simp [Machine.completeEngine, hr]) fun _ hd => by simp [hm] at hd
    | none => simp only [Machine.completeEngine, hr, hm]; exact h.mountStep (by simp [hm]) hg w
  by_cases hf : s.mount.device = .formatting
  · cases hr : s.group.running with
    | some f => exact h.of_mount (by simp [Machine.completeEngine, hr]) fun _ hd => by simp [hf] at hd
    | none => simp only [Machine.completeEngine, hr, hf]; exact h.formatStep (by simp [hf]) hg w
  exact h.of_mount (completeEngine_mount hm hf w) fun g hd hv => hv.completeEngine hd w

theorem PoolKept.completeWordAccess (h : PoolKept s) : PoolKept (completeWordAccess s) := by
  cases hf : s.port.flight with
  | none => simp only [Machine.completeWordAccess, hf]; exact h
  | some f =>
    have hc : PoolKept (completed (performRequest f.request s.mem) s) := h
    rw [completeWordAccess_eq_deliver hf]
    show PoolKept (deliver f _ _ _)
    simp only [deliver]
    split
    · exact hc
    · exact hc.of_mount (by simp) fun g _ hv => hv.congr (by simp) (by simp) (by simp) (by simp)
    · exact hc.of_mount (by simp) fun g _ hv => hv.completeHost _ _
    · exact hc.completeEngine rfl _

/-! ### Every effect -/

/-- Entering MOUNTING, HALTED or RESET_HELD drops what was to be loaded. -/
theorem poolKept_enterMounting (cause : MountCause) (s : State) : PoolKept (enterMounting cause s) :=
  poolKept_of_not_ready nofun (loadable_of_idle (.inr rfl) rfl)

theorem poolKept_enterHalted (s : State) : PoolKept (enterHalted s) :=
  poolKept_of_not_ready nofun (loadable_of_idle (.inl rfl) rfl)

theorem poolKept_enterReset (s : State) : PoolKept (enterReset s) :=
  poolKept_of_not_ready nofun (loadable_of_idle (.inl rfl) rfl)

theorem poolKept_leaveReset (s : State) : PoolKept (leaveReset s) := by
  simp only [leaveReset]
  split
  · exact poolKept_enterHalted _
  · exact poolKept_enterMounting _ _

/-- FORMAT answers with the state as it was, or as its checks leave it (R104). -/
theorem takeFormat_eq_or_checked (args : List Byte) (s : State) :
    (takeFormat args s).2 = s ∨ (takeFormat args s).2 = (formatChecked args s).2 := by
  simp only [Machine.takeFormat, resultOnly]
  repeat' split
  all_goals simp

theorem PoolKept.takeFormat (h : PoolKept s) (args : List Byte) : PoolKept (takeFormat args s).2 := by
  have hchecked : PoolKept (formatChecked args s).2 := by
    simp only [formatChecked]
    split
    next hok =>
      refine poolKept_of_not_ready nofun ⟨nofun, ?_⟩
      rintro _ ⟨⟩
      exact (geometry_ok_iff _).mp hok
    · exact h
  rcases takeFormat_eq_or_checked args s with hf | hf <;> rw [hf]
  · exact h
  · exact hchecked

theorem PoolKept.takeRemount (h : PoolKept s) (args : List Byte) : PoolKept (takeRemount args s).2 := by
  rcases takeRemount_cases args s with hr | hr <;> rw [hr]
  · exact h
  · exact poolKept_of_not_ready nofun (loadable_of_idle (.inr rfl) rfl)

theorem PoolKept.take {take : List Byte → State → List Byte × State} (htake : take ∈ takes) (args : List Byte)
    (h : PoolKept s) : PoolKept (take args s).2 := by
  refine takes_all (Q := fun take => PoolKept (take args s).2) ?status ?configRead ?configWrite ?eventPop
    ?eventAck ?commit ?abort ?groupList ?mapQuery ?guardRead ?guardStage ?guardDiscard ?format ?remount take htake
  case commit => exact h.of_mount (by simp) fun g hd hv => hv.takeCommit hd args
  case abort => exact h.of_mount (by simp) fun g hd hv => hv.takeAbort hd args
  case format => exact h.takeFormat args
  case remount => exact h.takeRemount args
  all_goals exact h.of_mount (by simp) fun g _ hv => hv.congr (by simp) (by simp) (by simp) (by simp)

theorem PoolKept.effect (s t : State) (he : Effect s t) (h : PoolKept s) : PoolKept t := by
  cases he with
  | nothing => exact h
  | power pfail rst scs => exact poolKept_of_not_ready nofun (loadable_of_idle (.inl rfl) rfl)
  | supplyLost => exact poolKept_of_not_ready nofun (loadable_of_idle (.inl rfl) rfl)
  | powerOnEnded =>
    simp only [endPowerOn]
    split
    · split
      · exact h
      · exact poolKept_leaveReset _
    · exact h
  | rstReleased =>
    simp only [releaseRst]
    split
    · exact poolKept_leaveReset _
    · exact h
  | rstAsserted =>
    simp only [assertRst]
    split
    · exact h
    all_goals exact poolKept_enterReset s
  | pfailAsserted =>
    simp only [assertPfail]
    split
    · exact h
    · exact h
    all_goals exact poolKept_enterHalted _
  | pfailReleased =>
    simp only [releasePfail]
    split
    · exact poolKept_enterMounting _ _
    all_goals exact h
  | taken address hoe hwe hlb hub hd => exact h.of_mount (by simp) fun g hd hv => hv.takeAccess hd _ _ _ _ _ _
  | cycleEnded => exact h.of_mount (by simp) fun g _ hv => hv.endCycle
  | dataReleased =>
    simp only [releaseData]
    split
    · exact h
    · exact h.of_mount rfl fun g _ hv => ⟨hv.1, placed_of_no_access ‹_›⟩
  | wordCompleted => exact h.completeWordAccess
  | completeEnded => exact h.of_mount (by simp) fun g _ hv => hv.endComplete
  | switched => exact h.of_mount (by simp) fun g hd hv => hv.takeSwitch hd
  | requested => exact h.of_mount (by simp) fun g _ hv => hv.takeCmt
  | expired => exact h.of_mount (by simp) fun g hd hv => hv.expire hd
  | mountStarted =>
    simp only [startMount]
    split
    next hd _ _ _ =>
      obtain ⟨-, hload⟩ := h
      have hready : s.mount.device ≠ .ready := by simp [hd]
      exact poolKept_of_not_ready hready (loadable_readSlotWord (by simp) hload _ _ _)
    · exact h
  | formatStarted =>
    simp only [startFormatWrites]
    split
    next f hd hf _ _ =>
      obtain ⟨-, hload⟩ := id h
      obtain ⟨-, hformat⟩ := id hload
      have hready : s.mount.device ≠ .ready := by simp [hd]
      split
      · exact poolKept_of_not_ready hready (loadable_requestFormat (hformat f hf) hload _)
      · exact h
    · exact h
  | ticked =>
    simp only [takeTick]
    split <;> exact h
  | command code args given response take _ htake => exact PoolKept.take htake given h
  | pulseEnded | frameEnded | framed => exact h
  | frameBegun => exact h.of_mount (by simp) fun g _ hv => hv.congr (by simp) (by simp) (by simp) (by simp)

end

/-- Settles O54. -/
theorem poolPartitionIsKept : Obligations.PoolPartitionIsKept := fun _ _ hs hstep =>
  step_keeps (P := PoolKept) (fun _ _ h => h) PoolKept.effect hs hstep

end Sys2Proof.Proofs
end

