-- ==== Sys2Proof/Proofs/Ranges.lean ====
section
/-! PROOFS. The arbiter's settled port, one engine word at a time, and the counts in their ranges (R33, R122 to R124,
R145, R152). -/

namespace Sys2Proof.Proofs

open Sys2Proof.Machine Sys2Proof.Claims

/-! ### The ranges that hold within a command -/

/-- The port's part of `InRange` but for its being settled, which only the arbiter's decision gives back. -/
def PortBounded (p : Port) : Prop := (p.engineInFlight = true → p.engineReq = none) ∧ p.passCount ≤ 8

/-- What every operation within a command keeps: `InRange` but for the settled port. -/
def Bounded (s : State) : Prop :=
  PortBounded s.port ∧ (1 ≤ s.config.stealShare ∧ s.config.stealShare ≤ 8) ∧ s.events.queue.length ≤ 16 ∧
    s.group.table.length ≤ 32

/-- `InRange` as what a command's last decision settles and what every operation keeps. -/
def Ranged (s : State) : Prop := PortSettled s ∧ Bounded s

theorem inRange_iff (s : State) : InRange s ↔ Ranged s := by
  show _ ∧ (s.port.engineInFlight = true → _) ∧ _ ↔ _
  simp only [Ranged, Bounded, PortBounded, and_assoc]

section
variable {s t : State}

theorem Bounded.congr (h : Bounded s) (hport : PortBounded t.port) (hconfig : t.config = s.config)
    (hevents : t.events = s.events) (htable : t.group.table = s.group.table) : Bounded t := by
  obtain ⟨-, hshare, hqueue, hlength⟩ := h
  exact ⟨hport, hconfig ▸ hshare, hevents ▸ hqueue, htable ▸ hlength⟩

/-! ### The port -/

/-- The engine asks only while none of its words is in flight. -/
theorem PortBounded.askEngine {p : Port} (h : PortBounded p) (r : Request) : PortBounded (p.askEngine r) := by
  obtain ⟨hengine, hpass⟩ := h
  rcases askEngine_cases p r with ⟨_, hp⟩ | ⟨hidle, hp⟩ <;> rw [hp]
  · exact ⟨hengine, hpass⟩
  · exact ⟨fun hflies => by simp [Port.engineInFlight] at hidle hflies; simp_all, hpass⟩

/-- The decision puts one request at most in flight, and counts a pass only below the steal share. -/
theorem PortBounded.decide {p : Port} (h : PortBounded p) {share : Nat} (hshare : share ≤ 8) :
    PortBounded (p.decide share) := by
  obtain ⟨hengine, hpass⟩ := h
  rcases decide_cases p share with ⟨_, hp⟩ | ⟨_, r, _, ⟨hnone, hp⟩ | ⟨_, hlt, hp⟩⟩ | ⟨_, r, _, _, hp⟩ <;> rw [hp]
  · exact ⟨hengine, hpass⟩
  · exact ⟨fun _ => hnone, hpass⟩
  · exact ⟨nofun, hlt.trans_le hshare⟩
  · exact ⟨fun _ => rfl, Nat.zero_le 8⟩

/-- An operation that is given up leaves no word in flight that it was not in before. -/
theorem engineInFlight_orphan (p : Port) (who : Requester) : (p.orphan who).engineInFlight = p.engineInFlight := by
  simp only [Port.engineInFlight, Port.orphan]
  cases hf : p.flight with
  | none => rfl
  | some f =>
    simp only [Option.map_some]
    split <;> rfl

theorem Bounded.withPort (h : Bounded s) {p : Port} (hp : PortBounded p) : Bounded { s with port := p } :=
  h.congr hp rfl rfl rfl

theorem Bounded.requestEngine (h : Bounded s) (kind : AccessKind) (address : Addr) (data : Option Word16) :
    Bounded (requestEngine kind address data s) :=
  h.withPort (h.1.askEngine _)

theorem Bounded.withdrawEngine (h : Bounded s) : Bounded (withdrawEngine s) :=
  h.withPort ⟨fun _ => rfl, h.1.2⟩

theorem Bounded.arbitrate (h : Bounded s) : Ranged (arbitrate s) := by
  refine ⟨arbitrate_settles s, h.withPort (h.1.decide ?_)⟩
  obtain ⟨-, ⟨-, hshare⟩, -⟩ := h
  exact hshare

/-! ### Events -/

theorem Bounded.post (h : Bounded s) (kind : EventKind) (address : Option Addr) (page : Option Nat)
    (detail : Option Byte) : Bounded (post kind address page detail s) := by
  obtain ⟨hport, hshare, hqueue, hlength⟩ := h
  refine ⟨hport, hshare, ?_, hlength⟩
  obtain ⟨-, -, hq | ⟨hroom, hq⟩⟩ := eventPost_queue s.events s.config.enable (s.eventRecord kind address page detail)
  · rw [Machine.post, hq]
    exact hqueue
  · rw [Machine.post, hq, List.length_append]
    exact hroom

/-! ### Accesses -/

theorem Bounded.refuse (h : Bounded s) (a : Access) (notReady : Bool) : Bounded (refuse a notReady s) :=
  h.congr (by simpa using h.1) (by simp) (by simp) (by simp)

theorem Bounded.requestHost (h : Bounded s) (frame : Nat) (a : Access) : Bounded (requestHost frame a s) := h

theorem Bounded.orderFill (h : Bounded s) (e : Entry) (line : Nat) : Bounded (orderFill e line s) := by
  rcases orderFill_cases e line s with ⟨_, heq⟩ | ⟨_, _, ⟨_, _, heq⟩ | ⟨_, heq⟩⟩ <;> rw [heq]
  · exact Bounded.requestEngine (s := { s with group := { s.group with running := some (fillOf e line) } }) h _ _ _
  · exact h
  · exact h

theorem Bounded.failGroup (h : Bounded s) (kind : EventKind) (a : Access) : Bounded (failGroup kind a s) :=
  (h.refuse a false).post kind none (some (pageOf a.address)) none

/-- A new entry comes only where fewer than 32 stand (R44). -/
theorem Bounded.routeOpen (h : Bounded s) (a : Access) : Bounded (routeOpen a s) := by
  simp only [Machine.routeOpen]
  split
  · split
    · exact h
    · exact Bounded.orderFill (s := holdAccess _ _ s) h _ _
  · split
    · exact h.failGroup _ a
    next hroom =>
      simp only [Machine.newEntry]
      split
      · exact h.failGroup _ a
      · refine Bounded.orderFill ?_ _ _
        obtain ⟨hport, hshare, hqueue, -⟩ := h
        refine ⟨hport, hshare, hqueue, ?_⟩
        simp only [holdAccess, List.length_append, List.length_singleton]
        exact Nat.not_le.mp hroom

theorem Bounded.routeWrite (h : Bounded s) (a : Access) : Bounded (routeWrite a s) := by
  simp only [Machine.routeWrite]
  split
  · exact Bounded.routeOpen (s := openGroup s) h a
  · exact h.routeOpen a
  · exact h.refuse a false
  · exact h

theorem Bounded.serveAtomic (h : Bounded s) (a : Access) : Bounded (serveAtomic a s) := by
  simp only [Machine.serveAtomic]
  split
  · exact h
  · exact h.routeWrite a

theorem Bounded.hit (h : Bounded s) (onRead onWrite : EventKind) (a : Access) : Bounded (hit onRead onWrite a s) := by
  have hpulse : ∀ u, Bounded u → Bounded (startPulse u) := fun u hu =>
    hu.congr (by simpa using hu.1) (by simp) (by simp) (by simp)
  exact Bounded.refuse (hpulse _ (h.post _ _ _ _)) a false

theorem Bounded.serveAccess (h : Bounded s) (a : Access) : Bounded (serveAccess a s) := by
  simp only [Machine.serveAccess, serveClass]
  split
  · exact h.refuse _ _
  · simp only [serveRaw]
    split
    · exact (h.post _ _ _ _).refuse _ _
    · split <;> exact h
  · exact h.hit _ _ _
  · exact h.hit _ _ _
  · split <;> exact h
  · split
    · exact h
    · exact h.serveAtomic _

theorem Bounded.releaseAccess (h : Bounded s) : Bounded (releaseAccess s) := by
  rcases releaseAccess_cases s with ⟨_, heq⟩ | ⟨a, _, _, heq⟩ <;> rw [heq]
  · exact h
  · exact Bounded.refuse (s := withdrawHost s) h a false

/-! ### The engine -/

theorem Bounded.requestCopy (h : Bounded s) (r : CommitRecord) : Bounded (requestCopy r s) := by
  simp only [Machine.requestCopy]
  split
  · exact h
  · split
    · exact h
    · exact Bounded.requestEngine (s := withRecord _ s) h _ _ _

theorem Bounded.engineNext (h : Bounded s) : Bounded (engineNext s) := by
  simp only [Machine.engineNext]
  split
  · exact h
  · split
    · exact Bounded.requestEngine (s := { s with group := { s.group with running := some _, waiting := none } }) h _ _ _
    · split
      · exact h.requestCopy _
      · exact h.requestEngine _ _ _
      · exact h

theorem Bounded.startFill (h : Bounded s) (f : Fill) : Bounded (startFill f s) :=
  Bounded.requestEngine (s := { s with group := { s.group with running := some f } }) h _ _ _

theorem Bounded.resumeEngine (h : Bounded s) : Bounded (resumeEngine s) := by
  simp only [Machine.resumeEngine]
  split
  · exact h.startFill _
  · exact h.engineNext

theorem Bounded.markPresent (h : Bounded s) (page line : Nat) :
    Bounded { s with group := { s.group with table := markPresent s.group.table page line } } := by
  obtain ⟨hport, hshare, hqueue, hlength⟩ := h
  exact ⟨hport, hshare, hqueue, by simpa [Machine.markPresent] using hlength⟩

theorem Bounded.fillStep (h : Bounded s) (f : Fill) (w : Word16) : Bounded (fillStep f w s) := by
  have hrelease : ∀ u, Bounded u → Bounded (releaseFill f u) := by
    intro u hu
    simp only [releaseFill]
    split
    · exact hu
    · exact hu.routeWrite _
    · exact hu
  simp only [Machine.fillStep]
  split
  · exact Bounded.requestEngine (s := { s with group := { s.group with running := some { f with held := some w } } })
      h _ _ _
  · split
    · exact h.startFill _
    · refine Bounded.engineNext (hrelease _ ?_)
      split
      · exact h.markPresent _ _
      · exact h

theorem Bounded.commitStep (h : Bounded s) (w : Word16) : Bounded (commitStep w s) := by
  have hrecord : ∀ r kind address data, Bounded (Machine.requestEngine kind address data (withRecord r s)) :=
    fun r kind address data => Bounded.requestEngine (s := withRecord r s) h kind address data
  have hphase : ∀ state r kind address data, Bounded (Machine.requestEngine kind address data
      (withRecord r { s with group := { s.group with state := state } })) := fun state r kind address data =>
    Bounded.requestEngine (s := withRecord r { s with group := { s.group with state := state } }) h kind address data
  have hcopy : ∀ r, Bounded (copyStep r w s) := by
    intro r
    simp only [copyStep]
    split
    · exact h
    · split
      · exact hrecord _ _ _ _
      · split
        · exact hrecord _ _ _ _
        · exact (h.markPresent _ _).requestCopy r
  have hwrite : ∀ r, Bounded (writeStep r w s) := by
    intro r
    simp only [writeStep]
    split
    · split
      · exact hrecord _ _ _ _
      · exact hphase _ _ _ _ _
    · exact h
  simp only [Machine.commitStep]
  split
  · exact hcopy _
  · exact hphase _ _ _ _ _
  · exact hwrite _
  · exact h
  · exact h

/-! ### The Mount Engine -/

theorem Bounded.loadVolume (h : Bounded s) (g : Geometry) (map : List Nat) (generation : BitVec 32) (slot : Slot)
    (table : List Guard) : Bounded (loadVolume g map generation slot table s) := by
  obtain ⟨hport, hshare, hqueue, -⟩ := h.releaseAccess
  exact ⟨hport, hshare, hqueue, Nat.zero_le 32⟩

theorem Bounded.mountStep (h : Bounded s) (w : Word16) : Bounded (mountStep w s) := by
  have hread : ∀ slot verdictA words acc, Bounded (readSlotWord slot verdictA words acc s) :=
    fun slot verdictA words acc =>
      Bounded.requestEngine (s := { s with mount := { s.mount with run := .reading slot verdictA words acc } }) h _ _ _
  have hnothing : ∀ device reason, Bounded (mountNothing device reason s) := fun _ _ => h.releaseAccess
  simp only [Machine.mountStep]
  split
  · exact h
  · exact h
  · split
    · exact hread _ _ _ _
    · split
      · exact hread _ _ _ _
      · cases mountDecision _ (judge _ _) with
        | ready slot im => exact (h.loadVolume _ _ _ _ _).post _ _ _ _
        | unformatted => exact (hnothing _ _).post _ _ _ _
        | faulted reason => exact (hnothing _ _).post _ _ _ _
      · exact h

theorem Bounded.requestFormat (h : Bounded s) (f : FormatRun) (at' : FormatStep) : Bounded (requestFormat f at' s) :=
  Bounded.requestEngine (s := { s with mount := { s.mount with format := some { f with step := some at' } } }) h _ _ _

theorem Bounded.formatStep (h : Bounded s) (w : Word16) : Bounded (formatStep w s) := by
  simp only [Machine.formatStep]
  split
  · exact h
  · split
    · exact h
    · exact h.requestFormat _ _
    · exact h.requestFormat _ _
    · split <;> exact h.requestFormat _ _
    · exact (h.loadVolume _ _ _ _ _).post _ _ _ _

theorem Bounded.completeEngine (h : Bounded s) (w : Word16) : Bounded (completeEngine w s) := by
  simp only [Machine.completeEngine]
  split
  · exact h.fillStep _ w
  · split
    · exact h.commitStep w
    · exact h.mountStep w
    · exact h.formatStep w
    all_goals exact h

theorem Bounded.deliver (h : Bounded s) (f : Flight) (underReset : Bool) (w : Word16) :
    Bounded (deliver f underReset w s) := by
  simp only [Machine.deliver]
  split
  · exact h
  · exact h.resumeEngine
  · exact h.congr (by simpa using h.1) (by simp) (by simp) (by simp)
  · exact h.completeEngine w

/-! ### Aborts and commits -/

theorem Bounded.dissolveGroup (h : Bounded s) : Bounded (dissolveGroup s) := by
  obtain ⟨hport, hshare, hqueue, -⟩ := h
  exact ⟨hport, hshare, hqueue, Nat.zero_le 32⟩

theorem Bounded.reroute (h : Bounded s) (table : List Entry) (waited : Bool) : Bounded (reroute table waited s) := by
  rcases reroute_cases table waited s with heq | ⟨a, _, heq | heq | heq⟩ <;> rw [heq]
  · exact h
  · exact h.serveAccess a
  · exact h.routeWrite a
  · exact Bounded.serveAtomic (s := withdrawHost s) h a

theorem Bounded.abortGroup (h : Bounded s) (kind : EventKind) (detail : Option Byte) :
    Bounded (abortGroup (Machine.post kind none none detail) s) :=
  (h.dissolveGroup.post _ _ _ _).reroute _ _

theorem Bounded.cancelCommit (h : Bounded s) : Bounded (cancelCommit s) := by
  simp only [Machine.cancelCommit]
  split
  · exact h
  · exact h.withdrawEngine

theorem Bounded.startCommit (h : Bounded s) (kind : CommitKind) : Bounded (startCommit kind s) :=
  Bounded.engineNext
    (s := withRecord (newRecord s kind) { s with group := { s.group with state := _, deadline := none } }) h

theorem Bounded.switchState (h : Bounded s) (r : CommitRecord) (b : CommitBody) : Bounded (switchState r b s) := by
  obtain ⟨hport, hshare, hqueue, -⟩ := h
  exact ⟨hport, hshare, hqueue, Nat.zero_le 32⟩

/-! ### Commands that end without a decision -/

/-- Where the port stands still, the counts have to stay in range. -/
theorem Ranged.of_port (h : Ranged s) (hport : t.port = s.port) (ht : Bounded t) : Ranged t :=
  ⟨by simpa only [PortSettled, hport] using h.1, ht⟩

/-- An access released by a change of device state takes its request with it. -/
theorem Ranged.releaseAccess (h : Ranged s) : Ranged (releaseAccess s) := by
  obtain ⟨hsettled, hbounded⟩ := h
  rcases releaseAccess_cases s with ⟨_, heq⟩ | ⟨a, _, _, heq⟩
  · rw [heq]
    exact ⟨hsettled, hbounded⟩
  · refine ⟨?_, hbounded.releaseAccess⟩
    simp only [heq, PortSettled, refuse_frame, withdrawHost]
    exact hsettled.imp_right fun hnone => ⟨trivial, hnone.2⟩

theorem Ranged.enterMounting (h : Ranged s) (cause : MountCause) : Ranged (enterMounting cause s) := h.releaseAccess

/-- HALTED and RESET_HELD leave no request waiting and no pass counted. -/
theorem Bounded.enterHalted (h : Bounded s) : Ranged (enterHalted s) := by
  obtain ⟨-, hshare, hqueue, -⟩ := h.releaseAccess
  refine ⟨.inr ⟨rfl, rfl⟩, Bounded.post ?_ _ _ _ _⟩
  exact ⟨⟨fun _ => rfl, Nat.zero_le 8⟩, hshare, hqueue, Nat.zero_le 32⟩

theorem ranged_enterReset (s : State) : Ranged (enterReset s) :=
  ⟨.inr ⟨rfl, rfl⟩, ⟨fun _ => rfl, Nat.zero_le 8⟩, show 1 ≤ 4 ∧ 4 ≤ 8 by decide, Nat.zero_le 16, Nat.zero_le 32⟩

theorem Ranged.leaveReset (h : Ranged s) : Ranged (leaveReset s) := by
  have hperiod : ∀ supply period, Ranged { s with supply := supply, events := { s.events with period := period } } :=
    fun _ _ => h
  simp only [Machine.leaveReset]
  split
  · exact (hperiod _ _).2.enterHalted
  · exact (hperiod _ _).enterMounting _

theorem Ranged.endCycle (h : Ranged s) : Ranged (endCycle s) := by
  obtain ⟨hsettled, hbounded⟩ := h
  have hgive : Ranged (giveUp s) := by
    simp only [giveUp]
    split
    · refine ⟨?_, hbounded.withPort ?_⟩
      · exact hsettled.imp (fun hf => by simpa [Port.orphan] using hf) fun hnone => ⟨rfl, hnone.2⟩
      · obtain ⟨⟨hengine, hpass⟩, -⟩ := hbounded
        exact ⟨fun hflies => hengine (engineInFlight_orphan s.port .host ▸ hflies), hpass⟩
    · split <;> exact ⟨hsettled, hbounded⟩
    · exact ⟨hsettled, hbounded⟩
  simp only [Machine.endCycle]
  split
  · exact hgive
  · exact ⟨hsettled, hbounded⟩

/-! ### The takes -/

/-- CONFIG_WRITE accepts a steal share from 1 to 8 only (R146). -/
theorem stealShare_of_configOf {args : List Byte} {c : Configuration} (h : configOf args = some c) :
    1 ≤ c.stealShare ∧ c.stealShare ≤ 8 := by
  simp only [configOf] at h
  split at h
  · split at h
    · cases h
      assumption
    · cases h
  · cases h

theorem Ranged.discardVolume (h : Ranged s) : Ranged (discardVolume s) := by
  obtain ⟨hsettled, hport, hshare, hqueue, -⟩ := h
  exact ⟨hsettled, hport, hshare, hqueue, Nat.zero_le 32⟩

theorem Ranged.acceptRemount (h : Ranged s) : Ranged (acceptRemount s) := by
  have habort : Ranged (remountAbort s) := by
    refine h.of_port (by simp) ?_
    simp only [remountAbort]
    split
    · exact h.2.dissolveGroup.post _ _ _ _
    · exact h.2.dissolveGroup.post _ _ _ _
    · exact h.2
    · exact h.2
  obtain ⟨hsettled, ⟨hengine, -⟩, hrest⟩ := (habort.enterMounting .command).discardVolume
  exact ⟨hsettled, ⟨hengine, Nat.zero_le 8⟩, hrest⟩

theorem Ranged.takeAbort (h : Ranged s) (args : List Byte) : Ranged (takeAbort args s).2 := by
  have habort : ∀ u, Bounded u → ∀ n, Ranged (Machine.arbitrate (abortGroup (postAbortDone n) u)) :=
    fun u hu n => (hu.abortGroup _ _).arbitrate
  simp only [Machine.takeAbort]
  rcases onVolume_cases _ s with ⟨_, heq⟩ | ⟨_, r, heq⟩ <;> rw [heq]
  · split
    · exact h
    · exact habort s h.2 _
    · exact habort s h.2 _
    · exact habort _ h.2.cancelCommit _
    · exact h
  · exact h

theorem Ranged.takeCommit (h : Ranged s) (args : List Byte) : Ranged (takeCommit args s).2 := by
  simp only [Machine.takeCommit]
  rcases onVolume_cases _ s with ⟨_, heq⟩ | ⟨_, r, heq⟩ <;> rw [heq]
  · split
    · exact (h.2.startCommit _).arbitrate
    · exact h
  · exact h

theorem Ranged.takeEventPop (h : Ranged s) (args : List Byte) : Ranged (takeEventPop args s).2 := by
  simp only [Machine.takeEventPop]
  split
  · exact h
  next hq =>
    obtain ⟨hsettled, hport, hshare, hqueue, hlength⟩ := h
    rw [hq] at hqueue
    exact ⟨hsettled, hport, hshare, (Nat.le_succ _).trans hqueue, hlength⟩

theorem Ranged.take {take : List Byte → State → List Byte × State} (htake : take ∈ takes) (args : List Byte)
    (h : Ranged s) : Ranged (take args s).2 := by
  refine takes_all (Q := fun take => Ranged (take args s).2) ?status ?configRead ?configWrite ?eventPop
    ?eventAck ?commit ?abort ?groupList ?mapQuery ?guardRead ?guardStage ?guardDiscard ?format ?remount take htake
  case commit => exact h.takeCommit args
  case abort => exact h.takeAbort args
  case eventPop => exact h.takeEventPop args
  case eventAck => simp only [takeEventAck]; split <;> exact h
  case configWrite =>
    have hwrite : ∀ c, configOf args = some c → Ranged { s with config := c } := fun c hc => by
      obtain ⟨hsettled, hport, -, hrest⟩ := h
      exact ⟨hsettled, hport, stealShare_of_configOf hc, hrest⟩
    simp only [takeConfigWrite]
    split
    any_goals exact h
    all_goals
      split
      · exact hwrite _ ‹_›
      · exact h
  case format =>
    rcases takeFormat_cases args s with heq | heq <;> rw [heq]
    · exact h
    · exact Ranged.discardVolume (s := enterFormatting _ s) h.releaseAccess
  case remount =>
    rcases takeRemount_cases args s with heq | heq <;> rw [heq]
    · exact h
    · exact h.acceptRemount
  all_goals exact h.of_port (by simp) (h.2.congr (by simpa using h.2.1) (by simp) (by simp) (by simp))

/-! ### Every effect -/

theorem Ranged.effect (s t : State) (he : Effect s t) (h : Ranged s) : Ranged t := by
  have hreset : ∀ u : State, u.port = .cleared → u.config = .default → u.events = .cleared →
      u.group = .cleared → Ranged u := by
    intro u hport hconfig hevents hgroup
    refine ⟨.inr ?_, ?_⟩
    · rw [hport]; exact ⟨rfl, rfl⟩
    · rw [Bounded, hport, hconfig, hevents, hgroup]
      exact ⟨⟨fun _ => rfl, Nat.zero_le 8⟩, by decide, Nat.zero_le 16, Nat.zero_le 32⟩
  cases he with
  | nothing => exact h
  | power pfail rst scs => exact hreset _ rfl rfl rfl rfl
  | supplyLost => exact hreset _ rfl rfl rfl rfl
  | powerOnEnded =>
    simp only [endPowerOn]
    split
    · split
      · exact h
      · exact Ranged.leaveReset (s := { s with supply := { s.supply with powerOnEnded := true } }) h
    · exact h
  | rstReleased =>
    simp only [releaseRst]
    split
    · exact Ranged.leaveReset (s := { s with supply := { s.supply with rst := false } }) h
    · exact h
  | rstAsserted =>
    simp only [assertRst]
    split
    · exact h
    all_goals exact ranged_enterReset s
  | pfailAsserted =>
    simp only [assertPfail]
    split
    · exact h
    · exact h
    all_goals exact Bounded.enterHalted (s := setPfail true s) h.2
  | pfailReleased =>
    simp only [releasePfail]
    split
    · exact Ranged.enterMounting (s := setPfail false s) h _
    all_goals exact h
  | taken address hoe hwe hlb hub hd =>
    simp only [takeAccess]
    split
    · exact h
    · exact (Bounded.serveAccess (s := { s with host := { s.host with cycleTaken := true } }) h.2 _).arbitrate
  | cycleEnded => exact h.endCycle
  | dataReleased => simp only [releaseData]; split <;> exact h
  | wordCompleted =>
    cases hf : s.port.flight with
    | none => simp only [completeWordAccess, hf]; exact h
    | some f =>
      rw [completeWordAccess_eq_deliver hf]
      have hc : Bounded (completed (performRequest f.request s.mem) s) :=
        h.2.congr ⟨nofun, h.2.1.2⟩ rfl rfl rfl
      exact (hc.deliver f _ _).arbitrate
  | completeEnded =>
    simp only [endComplete]
    split
    · split
      · exact (Bounded.requestEngine
          (s := { s with group := { s.group with state := .committing .retire } }) h.2 _ _ _).arbitrate
      · exact h
    · exact h
  | switched =>
    simp only [takeSwitch]
    split
    · split
      · refine Bounded.arbitrate ?_
        simp only [releaseCommitHold]
        split
        · exact ((h.2.switchState _ _).post _ _ _ _).serveAccess _
        · exact (h.2.switchState _ _).post _ _ _ _
      · exact h
    · exact h
  | requested =>
    simp only [takeCmt]
    split
    · simp only [answerLatch]
      split
      · split
        · exact (Bounded.startCommit (s := { s with commit := { s.commit with latch := false } }) h.2 _).arbitrate
        · exact h.of_port rfl (h.2.post _ _ _ _)
      · exact h
    all_goals exact h
  | expired =>
    simp only [expire]
    split
    · exact (h.2.abortGroup _ _).arbitrate
    · exact (h.2.abortGroup _ _).arbitrate
    · exact h
  | mountStarted =>
    simp only [startMount]
    split
    · exact (Bounded.requestEngine
        (s := { s with mount := { s.mount with run := .reading .a none [] crcStart } }) h.2 _ _ _).arbitrate
    · exact h
  | formatStarted =>
    simp only [startFormatWrites]
    split
    · split
      · exact (h.2.requestFormat _ _).arbitrate
      · exact h
    · exact h
  | ticked => simp only [takeTick]; split <;> exact h
  | command code args given response take _ htake => exact Ranged.take htake given h
  | frameBegun => simp only [beginFrame]; repeat' split
                  all_goals exact h
  | pulseEnded | frameEnded | framed => exact h

end

/-- Settles O55. -/
theorem countsStayInRange : Obligations.CountsStayInRange := by
  intro s t hs hstep
  rw [inRange_iff] at hs ⊢
  exact step_keeps (P := Ranged) (fun _ _ h => h) Ranged.effect hs hstep

end Sys2Proof.Proofs
end

