-- ==== Sys2Proof/Proofs/DeviceState.lean ====
section
/-! PROOFS. The device state: the causes of a change that the table of section 6.1 gives, command by command (R95). -/

namespace Sys2Proof.Proofs

open Sys2Proof.Machine Sys2Proof.Claims

section
variable {s t : State}

/-! ### The engines -/

/-- A mount ends in READY, UNFORMATTED or FAULTED, and a word before its last changes nothing (R99 to R102). -/
theorem mountStep_device (w : Word16) (s : State) :
    (mountStep w s).mount.device = s.mount.device ∨ (mountStep w s).mount.device = .ready ∨
      (mountStep w s).mount.device = .unformatted ∨ (mountStep w s).mount.device = .faulted := by
  simp only [mountStep]
  split
  · exact .inl rfl
  · exact .inl rfl
  · split
    · exact .inl rfl
    · split
      · exact .inl rfl
      · cases mountDecision _ (judge _ _) with
        | ready slot im => exact .inr (.inl rfl)
        | unformatted => exact .inr (.inr (.inl rfl))
        | faulted reason => exact .inr (.inr (.inr rfl))
      · exact .inl rfl

/-- A format ends in READY (R107). -/
theorem formatStep_device (w : Word16) (s : State) :
    (formatStep w s).mount.device = s.mount.device ∨ (formatStep w s).mount.device = .ready := by
  simp only [formatStep]
  split
  · exact .inl rfl
  · split
    · exact .inl rfl
    · exact .inl rfl
    · exact .inl rfl
    · split <;> exact .inl rfl
    · exact .inr rfl

/-- The rows of the table whose cause is the completion of a word access. -/
def EndsByWord (before after : DeviceState) : Prop :=
  (before = .mounting ∧ (after = .ready ∨ after = .unformatted ∨ after = .faulted)) ∨
    (before = .formatting ∧ after = .ready)

theorem completeEngine_device (w : Word16) (s : State) :
    (completeEngine w s).mount.device = s.mount.device ∨
      EndsByWord s.mount.device (completeEngine w s).mount.device := by
  cases hr : s.group.running with
  | some f => exact .inl (by simp [completeEngine, hr])
  | none =>
    cases hd : s.mount.device <;> simp only [completeEngine, hr, hd]
    case mounting => exact (mountStep_device w s).imp (·.trans hd) fun h => .inl ⟨rfl, h⟩
    case formatting => exact (formatStep_device w s).imp (·.trans hd) fun h => .inr ⟨rfl, h⟩
    case ready => exact .inl (by simp [hd])
    all_goals exact .inl trivial

theorem completeWordAccess_device (s : State) :
    (completeWordAccess s).mount.device = s.mount.device ∨
      EndsByWord s.mount.device (completeWordAccess s).mount.device := by
  cases hf : s.port.flight with
  | none => exact .inl (by simp only [completeWordAccess, hf])
  | some f =>
    rw [completeWordAccess_eq_deliver hf]
    simp only [arbitrate_frame, deliver]
    split
    · exact .inl rfl
    · exact .inl (by simp [completed])
    · exact .inl (by simp [completed])
    · exact completeEngine_device _ (completed _ s)

/-! ### The takes -/

/-- FORMAT and REMOUNT are accepted in READY, UNFORMATTED and FAULTED only (R104, R109). -/
theorem takeFormat_device (args : List Byte) (s : State) :
    (takeFormat args s).2.mount.device = s.mount.device ∨
      ((s.mount.device = .ready ∨ RawDevice s) ∧ (takeFormat args s).2.mount.device = .formatting) := by
  rcases takeFormat_cases args s with heq | heq
  · exact .inl (by rw [heq])
  · cases hd : s.mount.device
    case ready | unformatted | faulted => exact .inr ⟨by simp [RawDevice, hd], by rw [heq]; rfl⟩
    all_goals exact .inl (by simp [takeFormat, hd, resultOnly])

theorem takeRemount_device (args : List Byte) (s : State) :
    (takeRemount args s).2.mount.device = s.mount.device ∨
      ((s.mount.device = .ready ∨ RawDevice s) ∧ (takeRemount args s).2.mount.device = .mounting) := by
  rcases takeRemount_cases args s with heq | heq
  · exact .inl (by rw [heq])
  · cases hd : s.mount.device
    case ready | unformatted | faulted => exact .inr ⟨by simp [RawDevice, hd], by rw [heq]; rfl⟩
    all_goals exact .inl (by simp [takeRemount, hd, resultOnly])

/-- A code names a command exactly when it has a count of arguments (Table 12-2, R138). -/
theorem namesCommand_iff : ∀ code : Byte, namesCommand code = true ↔ argumentCount code ≠ none := by decide

/-- No other code's take changes the device state. -/
theorem takeOf_mount {code : Byte} (hcode : argumentCount code ≠ none) (hformat : code ≠ 0x40)
    (hremount : code ≠ 0x41) (args : List Byte) (s : State) : (takeOf code args s).2.mount = s.mount := by
  have hmem := (namesCommand_iff code).mpr hcode
  simp only [namesCommand, List.contains_eq_mem, decide_eq_true_eq, List.mem_cons, List.not_mem_nil, or_false]
    at hmem
  rcases hmem with rfl | rfl | rfl | rfl | rfl | rfl | rfl | rfl | rfl | rfl | rfl | rfl | rfl | rfl
  case inr.inr.inr.inr.inr.inr.inr.inr.inr.inr.inr.inr.inl => exact absurd rfl hformat
  case inr.inr.inr.inr.inr.inr.inr.inr.inr.inr.inr.inr.inr => exact absurd rfl hremount
  all_goals simp [takeOf]

@[simp] theorem takeCommand_mount {take : List Byte → State → List Byte × State}
    (h : ∀ args, (take args s).2.mount = s.mount) (code : Byte) (count : Nat) (last : Option Byte) :
    (takeCommand code count last take s).mount = s.mount := by
  simp only [takeCommand]
  split
  · exact h _
  · rfl

/-- What the take of a command makes of the device state, when it is due. -/
theorem takeCommand_device (code : Byte) (count : Nat) (last : Option Byte)
    (take : List Byte → State → List Byte × State) {P : DeviceState → Prop}
    (h : ∀ args, (take args s).2.mount.device = s.mount.device ∨ P (take args s).2.mount.device) :
    (takeCommand code count last take s).mount.device = s.mount.device ∨
      P (takeCommand code count last take s).mount.device := by
  simp only [takeCommand]
  split
  · exact h _
  · exact .inl rfl

/-- A byte changes the device state only as the last byte of FORMAT, or as REMOUNT's. -/
theorem arriveByte_device (b : Byte) (s : State) :
    (arriveByte b s).mount.device = s.mount.device ∨
      ((s.mount.device = .ready ∨ RawDevice s) ∧
        ((s.framer.code = some 0x40 ∧ (arriveByte b s).mount.device = .formatting) ∨
          (b = 0x41 ∧ (arriveByte b s).mount.device = .mounting))) := by
  rcases arriveByte_cases b s with h | ⟨_, ⟨f, h, _⟩ | ⟨code, args, given, response, hcode, h⟩⟩ <;> rw [h]
  · exact .inl rfl
  · exact .inl rfl
  · by_cases hformat : code = 0x40
    · subst hformat
      rcases hcode with ⟨_, hcount⟩ | ⟨hframer, _⟩
      · cases hcount
      · exact (takeFormat_device given s).imp_right fun ⟨hd, hf⟩ => ⟨hd, .inl ⟨hframer, hf⟩⟩
    by_cases hremount : code = 0x41
    · subst hremount
      rcases hcode with ⟨rfl, _⟩ | ⟨_, n, hn, hcount⟩
      · exact (takeRemount_device given s).imp_right fun ⟨hd, hm⟩ => ⟨hd, .inr ⟨rfl, hm⟩⟩
      · cases hcount
        exact absurd rfl hn
    · have hnames : argumentCount code ≠ none := by
        rcases hcode with ⟨_, hcount⟩ | ⟨_, n, _, hcount⟩ <;> simp [hcount]
      exact .inl (by simp [takeOf_mount hnames hformat hremount])

/-! ### The supply and the reset line -/

theorem leaveReset_device (s : State) :
    (leaveReset s).mount.device = if s.supply.pfail then .halted else .mounting := by
  simp only [leaveReset]
  split <;> rfl

theorem endPowerOn_device (s : State) :
    (endPowerOn s).mount.device = s.mount.device ∨
      (s.mount.device = .resetHeld ∧ (endPowerOn s).mount.device = if s.supply.pfail then .halted else .mounting) := by
  simp only [endPowerOn]
  split
  next hc =>
    split
    · exact .inl rfl
    · exact .inr ⟨hc.1, leaveReset_device _⟩
  · exact .inl rfl

theorem releaseRst_device (s : State) :
    (releaseRst s).mount.device = s.mount.device ∨
      (s.mount.device = .resetHeld ∧ (releaseRst s).mount.device = if s.supply.pfail then .halted else .mounting) := by
  simp only [releaseRst]
  split
  · exact .inr ⟨‹_›, leaveReset_device _⟩
  · exact .inl rfl

theorem assertRst_device (s : State) : (assertRst s).mount.device = .resetHeld := by
  simp only [assertRst]
  split
  · assumption
  all_goals rfl

theorem assertPfail_device (s : State) :
    (assertPfail s).mount.device = s.mount.device ∨
      (s.mount.device ≠ .resetHeld ∧ (assertPfail s).mount.device = .halted) := by
  cases hd : s.mount.device <;> simp only [assertPfail, hd]
  case resetHeld => exact .inl hd
  case halted => exact .inl trivial
  all_goals exact .inr ⟨nofun, rfl⟩

theorem releasePfail_device (s : State) :
    (releasePfail s).mount.device = s.mount.device ∨
      (s.mount.device = .halted ∧ (releasePfail s).mount.device = .mounting) := by
  cases hd : s.mount.device <;> simp only [releasePfail, hd]
  case halted => exact .inr ⟨trivial, rfl⟩
  all_goals exact .inl hd

/-! ### The table of causes (R95) -/

/-- A command that changes the device state has run its effect. -/
theorem whenPowered_changed {effect : State → State} {P : DeviceState → Prop}
    (h : (effect s).mount.device = s.mount.device ∨ P (effect s).mount.device)
    (hexec : whenPowered s effect = .next t) (hne : t.mount.device ≠ s.mount.device) : P t.mount.device := by
  cases hexec
  split at hne
  · rw [if_pos ‹_›]
    exact h.resolve_left hne
  · exact absurd rfl hne

theorem whenPowered_device {effect : State → State} (h : (effect s).mount.device = s.mount.device)
    (hexec : whenPowered s effect = .next t) : t.mount.device = s.mount.device := by
  cases hexec
  split
  · exact h
  · rfl

theorem startMount_device (s : State) : (startMount s).mount.device = s.mount.device := by
  simp only [startMount]
  split <;> rfl

theorem startFormatWrites_device (s : State) : (startFormatWrites s).mount.device = s.mount.device := by
  simp only [startFormatWrites]
  split
  · split <;> rfl
  · rfl

end

/-- Settles O58: command by command, by what its effect makes of the device state. -/
theorem deviceStateChangesOnlyAsTheTableGives : Obligations.DeviceStateChangesOnlyAsTheTableGives := by
  intro c s t hexec hne
  cases c with
  | powerOn pfail rst scs =>
    cases hexec
    exact .inl ⟨.inl ⟨_, _, _, rfl⟩, rfl⟩
  | supplyFailure =>
    exact .inl ⟨.inr (.inl rfl), whenPowered_changed (P := (· = .resetHeld)) (.inr rfl) hexec hne⟩
  | rstAssert =>
    exact .inl ⟨.inr (.inr rfl), whenPowered_changed (P := (· = .resetHeld)) (.inr (assertRst_device s)) hexec hne⟩
  | endOfPowerOn =>
    obtain ⟨hd, ht⟩ := whenPowered_changed (P := fun d => _ ∧ d = _) (endPowerOn_device s) hexec hne
    exact .inr (.inl ⟨hd, .inl rfl, ht⟩)
  | rstRelease =>
    obtain ⟨hd, ht⟩ := whenPowered_changed (P := fun d => _ ∧ d = _) (releaseRst_device s) hexec hne
    exact .inr (.inl ⟨hd, .inr rfl, ht⟩)
  | pfailAssert =>
    obtain ⟨hd, ht⟩ := whenPowered_changed (P := fun d => _ ∧ d = _) (assertPfail_device s) hexec hne
    exact .inr (.inr (.inl ⟨rfl, hd, ht⟩))
  | pfailRelease =>
    obtain ⟨hd, ht⟩ := whenPowered_changed (P := fun d => _ ∧ d = _) (releasePfail_device s) hexec hne
    exact .inr (.inr (.inr (.inl ⟨rfl, hd, ht⟩)))
  | memoryWordAccessComplete =>
    have h := whenPowered_changed (P := EndsByWord s.mount.device) (completeWordAccess_device s) hexec hne
    exact .inr (.inr (.inr (.inr (.inl ⟨rfl, h⟩))))
  | format last =>
    obtain ⟨hd, ht⟩ := whenPowered_changed (P := fun d => _ ∧ d = _)
      (takeCommand_device _ _ _ _ (P := fun d => _ ∧ d = _) fun args => takeFormat_device args s) hexec hne
    exact .inr (.inr (.inr (.inr (.inr ⟨hd, .inl ⟨.inl ⟨last, rfl⟩, ht⟩⟩))))
  | remount =>
    obtain ⟨hd, ht⟩ := whenPowered_changed (P := fun d => _ ∧ d = _)
      (takeCommand_device _ _ _ _ (P := fun d => _ ∧ d = _) fun args => takeRemount_device args s) hexec hne
    exact .inr (.inr (.inr (.inr (.inr ⟨hd, .inr ⟨.inl rfl, ht⟩⟩))))
  | byteArrives b =>
    obtain ⟨hd, ⟨hcode, ht⟩ | ⟨rfl, ht⟩⟩ := whenPowered_changed
      (P := fun d => _ ∧ ((_ ∧ d = .formatting) ∨ (_ ∧ d = .mounting))) (arriveByte_device b s) hexec hne
    · exact .inr (.inr (.inr (.inr (.inr ⟨hd, .inl ⟨.inr ⟨⟨b, rfl⟩, hcode⟩, ht⟩⟩))))
    · exact .inr (.inr (.inr (.inr (.inr ⟨hd, .inr ⟨.inr rfl, ht⟩⟩))))
  | mountStart => exact absurd (whenPowered_device (startMount_device s) hexec) hne
  | formatWritesStart => exact absurd (whenPowered_device (startFormatWrites_device s) hexec) hne
  | readDataRelease line => cases line <;> exact absurd (whenPowered_device (by simp) hexec) hne
  | _ => exact absurd (whenPowered_device (by simp) hexec) hne

end Sys2Proof.Proofs
end

