-- ==== Sys2Proof/Proofs/ResetHeld.lean ====
section
/-! PROOFS. RESET_HELD: every effect keeps the reset values there, and the reset origin held exactly there (R2, R128,
R133, Table 9-4); and the reset state meets every invariant. -/

namespace Sys2Proof.Proofs

open Sys2Proof.Machine Sys2Proof.Claims

/-! ### The reset values -/

/-- What `ResetHeldValues` asks of a state in RESET_HELD. -/
def ResetValues (s : State) : Prop :=
  s.mount = { device := .resetHeld, reason := none, cause := none, run := .idle, format := none } ∧
    s.xlate = clearedTable ∧ s.pool = [] ∧ s.group = idleGroup none ∧
    s.commit = { latch := false, record := none } ∧
    s.guards = { current := [], staged := none, pulse := none } ∧
    s.port.hostReq = none ∧ s.port.engineReq = none ∧ s.port.passCount = 0 ∧
    s.config = { deadline := 0, divider := 31, stealShare := 4, guardAction := .event, enable := 0x3B } ∧
    s.events = { tick := 0, period := none, latches := 0, queue := [] } ∧ s.framer.state = .outside ∧
    (s.host.access ≠ none → isGranted s = true) ∧ s.host.hold = .none ∧
    ∀ d, s.host.hd = some d → d.notReady = true

/-- The reset origin is held exactly in RESET_HELD (R128). -/
def OriginHeld (s : State) : Prop :=
  s.supply.powered = true → (s.supply.origin ≠ none ↔ s.mount.device = .resetHeld)

/-- `ResetHeldValues`, by its two parts. -/
def ResetKept (s : State) : Prop := OriginHeld s ∧ (s.mount.device = .resetHeld → ResetValues s)

theorem resetHeldValues_iff (s : State) : ResetHeldValues s ↔ ResetKept s := Iff.rfl

section
variable {s t : State}

/-- Outside RESET_HELD there is nothing to keep but its absence. -/
theorem ResetKept.of_not_held (h : ResetKept s) (hd : s.mount.device ≠ .resetHeld)
    (hd' : t.mount.device ≠ .resetHeld) (hpowered : t.supply.powered = s.supply.powered)
    (horigin : t.supply.origin = s.supply.origin) : ResetKept t := by
  obtain ⟨hheld, -⟩ := h
  refine ⟨fun hp => ?_, fun h => absurd h hd'⟩
  rw [horigin, hheld (hpowered ▸ hp)]
  simp [hd, hd']

/-- Where the device and the supply stand still, RESET_HELD has to keep its values. -/
theorem ResetKept.of_frame (h : ResetKept s) (hmount : t.mount = s.mount) (hsupply : t.supply = s.supply)
    (hkeeps : s.mount.device = .resetHeld → ResetValues s → ResetValues t) : ResetKept t := by
  obtain ⟨hheld, hvalues⟩ := h
  refine ⟨by rwa [OriginHeld, hmount, hsupply], fun hd => ?_⟩
  rw [hmount] at hd
  exact hkeeps hd (hvalues hd)

/-- With the reset values no request waits, so the arbiter decides nothing. -/
theorem ResetValues.arbitrate_eq (h : ResetValues s) : arbitrate s = s := by
  obtain ⟨-, -, -, -, -, -, hhost, hengine, -⟩ := h
  exact arbitrate_settled (.inr ⟨hhost, hengine⟩)

/-- The Host Path may go on, as long as it shows what it may in RESET_HELD; and so may the access in flight. -/
theorem ResetValues.with_host (h : ResetValues s) (hmount : t.mount = s.mount) (hxlate : t.xlate = s.xlate)
    (hpool : t.pool = s.pool) (hgroup : t.group = s.group) (hcommit : t.commit = s.commit)
    (hguards : t.guards = s.guards) (hhostReq : t.port.hostReq = none) (hengineReq : t.port.engineReq = none)
    (hpass : t.port.passCount = 0) (hconfig : t.config = s.config) (hevents : t.events = s.events)
    (hframer : t.framer = s.framer) (haccess : t.host.access ≠ none → isGranted t = true)
    (hhold : t.host.hold = .none) (hhd : ∀ d, t.host.hd = some d → d.notReady = true) : ResetValues t := by
  obtain ⟨h1, h2, h3, h4, h5, h6, -, -, -, h10, h11, h12, -⟩ := h
  exact ⟨hmount.trans h1, hxlate.trans h2, hpool.trans h3, hgroup.trans h4, hcommit.trans h5, hguards.trans h6,
    hhostReq, hengineReq, hpass, hconfig.trans h10, hevents.trans h11, by rw [hframer, h12], haccess, hhold, hhd⟩

/-! ### The Host Path in RESET_HELD -/

/-- An access taken in RESET_HELD is refused: it drives FFFFh as a NOT_READY read does, or nothing. -/
theorem ResetValues.takeAccess (h : ResetValues s) (hd : s.mount.device = .resetHeld) (address : Addr)
    (hoe hwe hlb hub : Bool) (w : Word16) : ResetValues (takeAccess address hoe hwe hlb hub w s) := by
  have hrefuse : ∀ a, ResetValues (refuse a true { s with host := { s.host with cycleTaken := true } }) := by
    intro a
    obtain ⟨-, -, -, -, -, -, hhost, hengine, hpass, -, -, -, -, -, hhd⟩ := id h
    refine h.with_host (by simp) (by simp) (by simp) (by simp) (by simp) (by simp) (by simpa using hhost)
      (by simpa using hengine) (by simpa using hpass) (by simp) (by simp) (by simp) ?_ ?_ ?_
    · intro hnone
      exact absurd (refuse_access a true _) hnone
    · rw [refuse_eq]
    · intro d hdrive
      rw [refuse_eq] at hdrive
      simp only at hdrive
      split at hdrive
      · exact hhd d hdrive
      · cases hdrive
        rfl
  simp only [Machine.takeAccess]
  split
  · exact h
  · simp only [serveAccess, serveClass, classify, hd]
    rw [(hrefuse _).arbitrate_eq]
    exact hrefuse _

theorem ResetValues.endCycle (h : ResetValues s) : ResetValues (endCycle s) := by
  obtain ⟨-, -, -, -, -, -, hhost, hengine, hpass, -, -, -, -, hhold, -⟩ := id h
  cases ha : s.host.access with
  | none =>
    simp only [Machine.endCycle, ha]
    exact h.with_host rfl rfl rfl rfl rfl rfl hhost hengine hpass rfl rfl rfl (absurd rfl) rfl nofun
  | some a =>
    simp only [Machine.endCycle, ha, giveUp, hhold]
    exact h.with_host rfl rfl rfl rfl rfl rfl rfl hengine hpass rfl rfl rfl (absurd rfl) rfl nofun

/-! ### The completion of a word in RESET_HELD -/

theorem ResetValues.completeEngine_eq (h : ResetValues s) (w : Word16) : completeEngine w s = s := by
  obtain ⟨hmount, -, -, hgroup, -⟩ := h
  simp only [completeEngine, hgroup, idleGroup, hmount]

theorem ResetValues.resumeEngine_eq (h : ResetValues s) : resumeEngine s = s := by
  obtain ⟨-, -, -, hgroup, -⟩ := h
  simp only [resumeEngine, engineNext, hgroup, idleGroup]

theorem completeHost_hold (h : s.host.hold = .none) (underReset : Bool) (w : Word16) :
    (completeHost underReset w s).host.hold = .none := by
  cases haccess : s.host.access with
  | none =>
    simp only [completeHost, haccess]
    exact h
  | some a =>
    cases hkind : a.kind with
    | write =>
      simp only [completeHost, haccess, hkind]
      rfl
    | read =>
      simp only [completeHost, haccess, hkind, driveHd, endService]
      split_ifs <;> rfl

/-- The word of the access in service ends it, and leaves on HD what RESET_HELD allows there. -/
theorem ResetValues.completeHost (h : ResetValues s) (hd : s.mount.device = .resetHeld) (mem : Memory)
    (underReset : Bool) (w : Word16) : ResetValues (completeHost underReset w (completed mem s)) := by
  obtain ⟨-, -, -, -, -, -, hhost, hengine, hpass, -, -, -, -, hhold, hhd⟩ := id h
  obtain ⟨hended, hdrives⟩ := completeHost_spec underReset w (completed mem s)
  exact h.with_host (by simp [completed]) (by simp [completed]) (by simp [completed]) (by simp [completed])
    (by simp [completed]) (by simp [completed]) (by simpa [completed, idlePort] using hhost)
    (by simpa [completed, idlePort] using hengine)
    (by simpa [completed, idlePort] using hpass) (by simp [completed]) (by simp [completed]) (by simp [completed])
    (absurd hended)
    (completeHost_hold (s := completed mem s) hhold underReset w) (hdrives (.inr hd) hhd)

/-- An access in service is granted, so a word that is not live for the host leaves none. -/
theorem ResetValues.completed (h : ResetValues s) {f : Flight} (hflight : s.port.flight = some f)
    (hnot : f.live = false ∨ f.requester = .engine) (mem : Memory) : ResetValues (completed mem s) := by
  obtain ⟨-, -, -, -, -, -, hhost, hengine, hpass, -, -, -, hgranted, hhold, hhd⟩ := id h
  refine h.with_host rfl rfl rfl rfl rfl rfl hhost hengine hpass rfl rfl rfl (fun ha => ?_) hhold hhd
  have hlive := hgranted ha
  rcases hnot with hnot | hnot <;> simp [isGranted, hflight, hnot] at hlive

theorem ResetValues.completeWordAccess (h : ResetValues s) (hd : s.mount.device = .resetHeld) :
    ResetValues (completeWordAccess s) := by
  cases hf : s.port.flight with
  | none => simp only [Machine.completeWordAccess, hf]; exact h
  | some f =>
    have hdeliver : ResetValues
        (deliver f s.port.underReset (requestWord f.request s.mem)
          (Claims.completed (performRequest f.request s.mem) s)) := by
      simp only [deliver]
      split
      · exact h.completed hf (.inl ‹_›) _
      · have hc := h.completed hf (.inl ‹_›) (performRequest f.request s.mem)
        rwa [hc.resumeEngine_eq]
      · exact h.completeHost hd _ _ _
      · have hc := h.completed hf (.inr ‹_›) (performRequest f.request s.mem)
        rwa [hc.completeEngine_eq]
    rw [completeWordAccess_eq_deliver hf, hdeliver.arbitrate_eq]
    exact hdeliver

/-! ### Entering and leaving RESET_HELD -/

theorem hostGranted_eq_isGranted (s : State) : s.port.hostGranted = isGranted s := rfl

/-- The access in flight goes on for the host when RST# is asserted. -/
theorem isGranted_enterReset (s : State) : isGranted (enterReset s) = isGranted (releaseAccess s) := by
  simp only [isGranted, enterReset, Port.atReset, Port.orphan]
  cases (releaseAccess s).port.flight with
  | none => rfl
  | some f =>
    simp only [Option.map_some]
    split
    next hwho =>
      simp [hwho]
    · rfl

theorem resetValues_enterReset (s : State) : ResetValues (enterReset s) := by
  refine ⟨rfl, rfl, rfl, rfl, rfl, rfl, rfl, rfl, rfl, rfl, rfl, rfl, fun ha => ?_, rfl, fun d hdrive => ?_⟩
  · rw [isGranted_enterReset]
    rcases releaseAccess_cases s with ⟨hnone | hgranted, heq⟩ | ⟨a, _, _, heq⟩
    · exact absurd (by simp only [enterReset, heq]; exact hnone) ha
    · rwa [heq]
    · exact absurd (by simp only [enterReset, heq]; exact refuse_access a false _) ha
  · simp only [enterReset, HostPath.atReset, Option.bind_eq_some_iff] at hdrive
    obtain ⟨d', -, hd'⟩ := hdrive
    split at hd'
    · cases hd'
      assumption
    · cases hd'

/-- RESET_HELD ends with the reset origin dropped. -/
theorem resetKept_leaveReset (s : State) : ResetKept (leaveReset s) := by
  simp only [leaveReset]
  split
  · exact ⟨fun _ => ⟨fun h => absurd (by simp) h, nofun⟩, nofun⟩
  · exact ⟨fun _ => ⟨fun h => absurd (by simp) h, nofun⟩, nofun⟩

/-! ### Every effect -/

theorem take_device {take : List Byte → State → List Byte × State} (htake : take ∈ takes) (args : List Byte)
    (hd : s.mount.device ≠ .resetHeld) : (take args s).2.mount.device ≠ .resetHeld := by
  refine takes_all (Q := fun take => (take args s).2.mount.device ≠ .resetHeld) ?status ?configRead ?configWrite
    ?eventPop ?eventAck ?commit ?abort ?groupList ?mapQuery ?guardRead ?guardStage ?guardDiscard ?format ?remount
    take htake
  case format => rcases takeFormat_cases args s with heq | heq <;> rw [heq]; exacts [hd, nofun]
  case remount => rcases takeRemount_cases args s with heq | heq <;> rw [heq]; exacts [hd, nofun]
  all_goals simpa using hd

theorem ResetKept.effect (s t : State) (he : Effect s t) (h : ResetKept s) : ResetKept t := by
  cases he with
  | nothing => exact h
  | power pfail rst scs =>
    exact ⟨fun _ => ⟨fun _ => rfl, nofun⟩, fun _ => ⟨rfl, rfl, rfl, rfl, rfl, rfl, rfl, rfl, rfl, rfl, rfl, rfl,
      absurd rfl, rfl, nofun⟩⟩
  | supplyLost =>
    exact ⟨nofun, fun _ => ⟨rfl, rfl, rfl, rfl, rfl, rfl, rfl, rfl, rfl, rfl, rfl, rfl, absurd rfl, rfl, nofun⟩⟩
  | powerOnEnded =>
    simp only [endPowerOn]
    split
    · split
      · exact h
      · exact resetKept_leaveReset _
    · exact h
  | rstReleased =>
    simp only [releaseRst]
    split
    · exact resetKept_leaveReset _
    · exact h
  | rstAsserted =>
    simp only [assertRst]
    split
    · exact h
    all_goals exact ⟨fun _ => ⟨fun _ => rfl, nofun⟩, fun _ => resetValues_enterReset s⟩
  | pfailAsserted =>
    cases hd : s.mount.device <;> simp only [assertPfail, hd]
    case resetHeld | halted => exact h
    all_goals exact h.of_not_held (by simp [hd]) nofun (by simp [setPfail]) (by simp [setPfail])
  | pfailReleased =>
    cases hd : s.mount.device <;> simp only [releasePfail, hd]
    case halted => exact h.of_not_held (by simp [hd]) nofun (by simp [setPfail]) (by simp [setPfail])
    all_goals exact h
  | taken address hoe hwe hlb hub w => exact h.of_frame (by simp) (by simp) fun hd hv => hv.takeAccess hd _ _ _ _ _ _
  | cycleEnded => exact h.of_frame (by simp) (by simp) fun _ hv => hv.endCycle
  | dataReleased =>
    refine h.of_frame (by simp) (by simp) fun _ hv => ?_
    obtain ⟨-, -, -, -, -, -, hhost, hengine, hpass, -, -, -, hgranted, hhold, hhd⟩ := id hv
    simp only [releaseData]
    split
    · exact hv
    · exact hv.with_host rfl rfl rfl rfl rfl rfl hhost hengine hpass rfl rfl rfl hgranted hhold nofun
  | wordCompleted =>
    by_cases hd : s.mount.device = .resetHeld
    · exact h.of_frame (completeWordAccess_mount (by simp [hd]) (by simp [hd])) (by simp) fun hd hv =>
        hv.completeWordAccess hd
    · refine h.of_not_held hd ?_ (by simp) (by simp)
      rcases completeWordAccess_device s with ht | ⟨_, ht | ht | ht⟩ | ⟨_, ht⟩ <;> rw [ht]
      · exact hd
      all_goals nofun
  | completeEnded => exact h.of_frame (by simp) (by simp) fun hd hv => by simpa [endComplete, hd] using hv
  | switched => exact h.of_frame (by simp) (by simp) fun hd hv => by simpa [takeSwitch, hd] using hv
  | requested => exact h.of_frame (by simp) (by simp) fun hd hv => by simpa [takeCmt, hd] using hv
  | expired => exact h.of_frame (by simp) (by simp) fun hd hv => by simpa [expire, hd] using hv
  | mountStarted =>
    simp only [startMount]
    split
    next hd _ _ _ =>
      have hnot : s.mount.device ≠ .resetHeld := by simp [hd]
      exact h.of_not_held hnot hnot rfl rfl
    · exact h
  | formatStarted =>
    simp only [startFormatWrites]
    split
    next hd _ _ _ =>
      have hnot : s.mount.device ≠ .resetHeld := by simp [hd]
      split
      · exact h.of_not_held hnot hnot rfl rfl
      · exact h
    · exact h
  | ticked =>
    refine h.of_frame (by simp) (by simp) fun _ hv => ?_
    obtain ⟨-, -, -, -, -, -, -, -, -, -, hevents, -⟩ := id hv
    simpa only [takeTick, hevents] using hv
  | pulseEnded =>
    refine h.of_frame (by simp) (by simp) fun _ hv => ?_
    obtain ⟨h1, h2, h3, h4, h5, h6, hrest⟩ := hv
    exact ⟨h1, h2, h3, h4, h5, by simp [endPulse, h6], hrest⟩
  | frameBegun =>
    refine h.of_frame (by simp) (by simp) fun hd hv => ?_
    simp only [beginFrame, hd]
    split <;> exact hv
  | frameEnded =>
    refine h.of_frame rfl rfl fun _ hv => ?_
    obtain ⟨h1, h2, h3, h4, h5, h6, h7, h8, h9, h10, h11, -, hhost⟩ := hv
    exact ⟨h1, h2, h3, h4, h5, h6, h7, h8, h9, h10, h11, rfl, hhost⟩
  | framed f hd => exact h.of_not_held hd hd rfl rfl
  | command code args given response take hd htake =>
    exact h.of_not_held hd (take_device htake given hd) (by simp [take_frame htake]) (by simp [take_frame htake])

end

/-- Settles O56. -/
theorem resetHeldKeepsTheResetValues : Obligations.ResetHeldKeepsTheResetValues := fun _ _ hs hstep =>
  step_keeps (P := ResetKept) (fun _ _ h => h) ResetKept.effect hs hstep

/-! ### The reset state -/

theorem resetKept_reset : ResetKept State.reset :=
  ⟨fun _ => ⟨fun _ => rfl, nofun⟩, fun _ => ⟨rfl, rfl, rfl, rfl, rfl, rfl, rfl, rfl, rfl, rfl, rfl, rfl,
    absurd rfl, rfl, nofun⟩⟩

/-- Settles O57. -/
theorem resetMeetsTheInvariants : Obligations.ResetMeetsTheInvariants := by
  have hrange : Ranged State.reset :=
    ⟨.inr ⟨rfl, rfl⟩, ⟨nofun, Nat.zero_le 8⟩, show 1 ≤ 4 ∧ 4 ≤ 8 by decide, Nat.zero_le 16, Nat.zero_le 32⟩
  exact ⟨reset_mem_wf, fun _ => ⟨rfl, rfl, rfl, rfl, rfl, none, rfl, nofun⟩, nofun,
    loadable_of_idle (.inl rfl) rfl, (inRange_iff _).mpr hrange, resetKept_reset⟩

/-- Settles O3: each reset value is the model's own. -/
theorem resetStateHoldsTheResetValues : Obligations.ResetStateHoldsTheResetValues :=
  ⟨rfl, rfl, rfl, rfl, rfl, rfl, rfl, rfl, rfl, rfl, rfl, rfl, rfl, rfl, rfl, rfl, rfl, rfl, rfl, rfl, rfl, rfl, rfl,
    rfl, rfl, rfl, rfl⟩

end Sys2Proof.Proofs
end

