-- ==== Sys2Proof/Proofs/Vocabulary.lean ====
section
/-! PROOFS. The claims' vocabulary in the model's words: each description of a state in the statements is the model's
operation that brings it about. -/

namespace Sys2Proof.Proofs

open Sys2Proof.Machine Sys2Proof.Claims

/-! ### The Host Path (R2, R13, R17) -/

theorem deviceByte_eq_code (d : DeviceState) : deviceByte d = d.code := by
  cases d <;> rfl

theorem isEmpty_iff (l : Lanes) : l.isEmpty = true ↔ l.low = false ∧ l.high = false := by
  simp [Lanes.isEmpty]

/-- A word driven on HD, unless no lane is enabled (R15). -/
theorem driveHd_eq_returning (w : Word16) (lanes : Lanes) (notReady : Bool) (s : State) :
    driveHd w lanes notReady s = { s with host := returning (readWordOn w false lanes notReady) s.host } := by
  simp only [driveHd, isEmpty_iff, readWordOn, Bool.false_eq_true, false_or]
  split <;> rfl

theorem refuse_eq_returning (a : Access) (notReady : Bool) (s : State) :
    refuse a notReady s =
      { s with host := returning (readWordOn 0xFFFF (a.kind == .write) a.lanes notReady)
                { s.host with access := none, hold := .none } } := by
  cases hk : a.kind with
  | read => simp only [refuse, hk, driveHd_eq_returning]; rfl
  | write => simp only [refuse, hk]; rfl

/-- A change of device state: what it makes of the access in service and of its request (R17, R125). -/
theorem releaseAccess_eq_changed (s : State) :
    releaseAccess s =
      { s with
        host := changedHost (isGranted s) s.host
        port := { s.port with hostReq := changedRequest s } } := by
  cases ha : s.host.access with
  | none =>
    have hhost : changedHost (isGranted s) s.host = s.host := by simp [changedHost, releasedHost, ha]
    have hreq : changedRequest s = s.port.hostReq := by simp [changedRequest, ha]
    rw [hhost, hreq]
    simp only [releaseAccess, ha]
  | some a =>
    cases hg : isGranted s with
    | true =>
      have hreq : changedRequest s = s.port.hostReq := by simp [changedRequest, hg]
      rw [hreq]
      simp only [releaseAccess, ha, hostGranted_eq_isGranted, hg]
      rfl
    | false =>
      have hreq : changedRequest s = none := by simp [changedRequest, hg, ha]
      rw [hreq]
      simp only [releaseAccess, ha, hostGranted_eq_isGranted, hg, refuse_eq_returning, changedHost, releasedHost]
      rfl

/-! ### Changes of device state -/

theorem enterHalted_eq_halted (s : State) : enterHalted s = halted s := by
  simp only [enterHalted, releaseAccess_eq_changed, halted, deviceByte_eq_code]
  rfl

theorem enterMounting_eq_mounting (cause : MountCause) (s : State) : enterMounting cause s = mounting cause s := by
  rw [enterMounting, releaseAccess_eq_changed, mounting]

theorem mountNothing_eq_mountedNothing (device : DeviceState) (reason : Option FaultedReason) (s : State) :
    mountNothing device reason s = mountedNothing device reason s := by
  simp only [mountNothing, releaseAccess_eq_changed, mountedNothing]

theorem freeFrames_eq_filter (g : Geometry) (map : List Nat) :
    g.freeFrames map = (poolList g).filter fun f => !map.contains f := by
  rw [Geometry.freeFrames, poolFrames_eq_poolList]

theorem loadVolume_eq_loaded (g : Geometry) (map : List Nat) (generation : BitVec 32) (slot : Slot)
    (table : List Guard) (s : State) :
    loadVolume g map generation slot table s = loaded g map generation slot table s := by
  simp only [loadVolume, releaseAccess_eq_changed, loaded, freeFrames_eq_filter]
  rfl

/-! ### Requests (R11, R122, R123) -/

theorem hostRequest_eq_hostWord (frame : Nat) (a : Access) :
    hostRequest frame a = hostWord (inFrame frame a.address) a := by
  cases hk : a.kind <;> simp [hostRequest, hostWord, hk, physicalAddress, inFrame, offsetOf, Lanes.both]

theorem requestEngine_eq_withEngine (kind : AccessKind) (address : Addr) (data : Option Word16) (s : State) :
    requestEngine kind address data s = withEngine kind address data s := rfl

theorem slotWord_eq_slotAddr (slot : Slot) (n : Nat) : slotWord slot n = slotAddr slot n := by
  cases slot <;> simp [slotWord, slotAddr]

/-! ### Fills, commits and aborts -/

theorem orderFill_eq_fillOrdered (e : Entry) (line : Nat) (s : State) :
    orderFill e line s = fillOrdered e line s := by
  simp only [orderFill, fillOrdered]
  cases s.group.running <;> rfl

theorem dissolveGroup_eq_abortedGroup (s : State) : dissolveGroup s = abortedGroup s := rfl

theorem otherSlot_eq_inactive (active : Option Slot) : otherSlot active = inactive active := by
  rcases active with _ | _ | _ <;> rfl

theorem newRecord_eq_recordAt (s : State) (kind : CommitKind) : newRecord s kind = recordAt s kind := by
  simp only [newRecord, recordAt, otherSlot_eq_inactive]
  cases s.guards.staged <;> rfl

/-! ### The next absent line (R65) -/

theorem firstAbsent_eq_none : ∀ (table : List Entry) (n : Nat),
    firstAbsent table n = none ↔ ∀ e ∈ table, firstLine e.present = none
  | [], _ => by simp [firstAbsent]
  | e :: table, n => by
    cases h : firstLine e.present with
    | some l => simp [firstAbsent, h]
    | none => simp [firstAbsent, h, firstAbsent_eq_none table (n + 1)]

/-- The search stops at the first entry with an absent line, and counts the entries before it. -/
theorem firstAbsent_eq_some : ∀ (table : List Entry) (n : Nat) {p : Nat × Nat}, firstAbsent table n = some p →
    ∃ i e l, p = (n + i, l) ∧ table[i]? = some e ∧ firstLine e.present = some l ∧
      ∀ j < i, ∀ e', table[j]? = some e' → firstLine e'.present = none
  | e :: table, n, p, hp => by
    cases h : firstLine e.present with
    | some l =>
      simp only [firstAbsent, h, Option.some.injEq] at hp
      exact ⟨0, e, l, hp.symm, rfl, h, nofun⟩
    | none =>
      simp only [firstAbsent, h] at hp
      obtain ⟨i, e', l, rfl, he', hl, hbefore⟩ := firstAbsent_eq_some table (n + 1) hp
      refine ⟨i + 1, e', l, by rw [Nat.add_right_comm]; rfl, he', hl, fun j hj e'' he'' => ?_⟩
      cases j with
      | zero => cases he''; exact h
      | succ j => exact hbefore j (Nat.lt_of_succ_lt_succ hj) e'' he''

/-- The claims number the lines of the group in one row, sixteen to an entry; the model searches entry by entry. -/
theorem firstAbsentLine_eq (table : List Entry) :
    firstAbsentLine table = (firstAbsent table 0).bind fun p => (table[p.1]?).map fun e => (p.1, e, p.2) := by
  cases h : firstAbsent table 0 with
  | none =>
    have hall := (firstAbsent_eq_none table 0).mp h
    simp only [firstAbsentLine, Option.bind_none, Option.bind_eq_none_iff]
    intro k hk
    rw [List.find?_range_eq_some] at hk
    obtain ⟨hp, -⟩ := hk
    cases he : table[k / 16]? with
    | none => rfl
    | some e =>
      have hline := (firstLine_none e.present).mp (hall e (List.mem_of_getElem? he)) (k % 16) (Nat.mod_lt k (by omega))
      simp [he, hline] at hp
  | some p =>
    obtain ⟨i, e, l, rfl, he, hl, hbefore⟩ := firstAbsent_eq_some table 0 h
    obtain ⟨hl16, habsent, hlines⟩ := (firstLine_some e.present l).mp hl
    have hi : i < table.length := (List.getElem?_eq_some_iff.mp he).1
    have hdiv : (16 * i + l) / 16 = i := by omega
    have hmod : (16 * i + l) % 16 = l := by omega
    simp only [firstAbsentLine, Nat.zero_add, Option.bind_some, he, Option.map_some]
    refine Option.bind_eq_some_iff.mpr ⟨16 * i + l, List.find?_range_eq_some.mpr ⟨?_, ?_, fun j hj => ?_⟩, ?_⟩
    · simp [hdiv, hmod, he, habsent]
    · exact List.mem_range.mpr (by omega)
    · cases he' : table[j / 16]? with
      | none => simp
      | some e' =>
        rcases Nat.lt_or_ge (j / 16) i with hlt | hge
        · simp [(firstLine_none e'.present).mp (hbefore _ hlt e' he') (j % 16) (Nat.mod_lt j (by omega))]
        · obtain hji : j / 16 = i := by omega
          rw [hji, he] at he'
          cases he'
          simp [hlines (j % 16) (by omega)]
    · simp [hdiv, hmod, he]

theorem requestCopy_eq_copyNext (r : CommitRecord) (s : State) : requestCopy r s = copyNext r s := by
  simp only [requestCopy, copyNext, firstAbsentLine_eq]
  cases firstAbsent s.group.table 0 with
  | none => rfl
  | some p =>
    obtain ⟨i, l⟩ := p
    simp only [Option.bind_some]
    cases s.group.table[i]? <;> rfl

/-! ### The engine's next operation (R42, R66) -/

section
variable {s : State}

theorem requestRetire_eq_withEngine (r : CommitRecord) (s : State) :
    requestRetire r s = withEngine .write (slotAddr r.target 0) (some 0x0000) s := by
  rw [requestRetire, slotWord_eq_slotAddr, requestEngine_eq_withEngine]

theorem engineNext_eq_engineGoesOn (h : s.group.running = none) : engineNext s = engineGoesOn s := by
  cases hw : s.group.waiting with
  | some f => simp only [engineNext, engineGoesOn, h, hw]; rfl
  | none =>
    simp only [engineNext, engineGoesOn, h, hw]
    cases hg : s.group.state with
    | committing phase =>
      cases s.commit.record with
      | none => cases phase <;> rfl
      | some r =>
        cases phase with
        | complete => exact requestCopy_eq_copyNext r s
        | retire => exact requestRetire_eq_withEngine r s
        | write | mark => rfl
    | _ => rfl

theorem resumeEngine_eq_engineResumes (s : State) : resumeEngine s = engineResumes s := by
  cases h : s.group.running with
  | some f =>
    have hself : { s with group := { s.group with running := some f } } = s := by rw [← h]
    simp only [resumeEngine, engineResumes, h, startFill, hself]
    rfl
  | none => simp only [resumeEngine, engineResumes, h, engineNext_eq_engineGoesOn h]

end

end Sys2Proof.Proofs
end

