-- ==== Sys2Proof/Proofs/PowerStatements.lean ====
section
/-! PROOFS. The statements of power, reset and the supply warning, and of the events of time (R51, R116, R128 to R136,
R150). -/

namespace Sys2Proof.Proofs

open Sys2Proof.Machine Sys2Proof.Claims

/-- Settles O1: `step` looks at the front of the queue only. -/
theorem stepRunsTheFrontCommand : Obligations.StepRunsTheFrontCommand :=
  ⟨fun _ _ _ => rfl, fun s h => by simp only [step, h]⟩

/-! ### Power (R128, R136) -/

theorem risePower_of_unpowered {s : State} (h : s.supply.powered = false) (pfail rst scs : Bool) :
    risePower pfail rst scs s =
      { State.reset with
        supply := { powered := true, powerOnEnded := false, pfail := pfail, rst := rst, origin := some .power }
        framer := .outside scs, mem := s.mem, freeNext := s.freeNext, pending := s.pending } := by
  simp only [risePower, h, Bool.false_eq_true, if_false]

/-- Settles O4: a POWER_ON on a part with supply begins with the supply's failure. -/
theorem powerOnEntersResetHeld : Obligations.PowerOnEntersResetHeld := by
  refine ⟨fun pfail rst scs s hunpowered => ?unpowered, fun pfail rst scs s u hpowered hfailed => ?powered⟩
  case unpowered => exact congrArg _ (risePower_of_unpowered hunpowered pfail rst scs)
  case powered =>
    have hu : u = loseSupply s := by
      rw [exec, execSupplyFailure, whenPowered_powered hpowered] at hfailed
      cases hfailed
      rfl
    subst hu
    refine congrArg Host.Outcome.next ?_
    rw [risePower_of_unpowered (s := loseSupply s) rfl, risePower, hpowered]
    rfl

/-- Without supply nothing but POWER_ON reaches the part. -/
theorem exec_unpowered {s : State} (h : s.supply.powered = false) {c : Instr}
    (hc : ∀ pfail rst scs, c ≠ .powerOn pfail rst scs) : exec c s = .next s := by
  cases c with
  | powerOn pfail rst scs => exact absurd rfl (hc pfail rst scs)
  | _ => exact whenPowered_unpowered h _

/-- Settles O5: what is lost is at its reset value, and memory changes only in the lanes of a write in flight. -/
theorem supplyFailureLosesVolatileState : Obligations.SupplyFailureLosesVolatileState := by
  refine ⟨fun c s hunpowered hc => exec_unpowered hunpowered hc, fun s hpowered => ?_⟩
  exact ⟨loseSupply s, whenPowered_powered hpowered _, rfl, rfl, rfl, rfl, rfl, rfl, rfl, rfl, rfl, rfl, rfl, rfl, rfl,
    rfl, rfl, fun k hk => readByte_tornMemory hk⟩

/-! ### Reset (R133, R135) -/

/-- The arbiter at an assertion of RST#: the engine's word in flight goes on for nobody. -/
theorem atReset_eq (p : Port) (req : Option Request) :
    { p with hostReq := req }.atReset =
      { flight := orphaned p.flight, hostReq := none, engineReq := none, passCount := 0,
        ma := if p.flight = none then 0 else p.ma, underReset := p.flight.isSome } := by
  cases p.flight <;> simp [Port.atReset, Port.orphan, orphaned]

/-- Settles O6: RST# enters RESET_HELD with the access released as a change of device state does, and every other block
at its reset value. -/
theorem rstAssertEntersResetHeld : Obligations.RstAssertEntersResetHeld := by
  intro s hpowered hd
  have henter : assertRst s = enterReset s := by
    cases h : s.mount.device <;> simp only [assertRst, h]
    exact absurd h hd
  rw [exec, execRstAssert, whenPowered_powered hpowered, henter]
  simp only [enterReset, releaseAccess_eq_changed, atReset_eq]
  rfl

/-- RESET_HELD is left with RST# released and power-on ended. -/
theorem leaveReset_eq (s : State) :
    leaveReset { s with supply := { s.supply with rst := false, powerOnEnded := true } } =
      if s.supply.pfail then halted (resetEnded s) else mounting (causeOf s.supply.origin) (resetEnded s) := by
  simp only [leaveReset, enterHalted_eq_halted, enterMounting_eq_mounting]
  rfl

theorem exec_of_resetEnd {c : Instr} {s : State} (hpowered : Powered s) (hd : s.mount.device = .resetHeld)
    (hc : (c = .rstRelease ∧ s.supply.rst = true ∧ s.supply.powerOnEnded = true) ∨
      (c = .endOfPowerOn ∧ s.supply.rst = false ∧ s.supply.powerOnEnded = false)) :
    exec c s = .next (if s.supply.pfail then halted (resetEnded s)
      else mounting (causeOf s.supply.origin) (resetEnded s)) := by
  rw [← leaveReset_eq]
  rcases hc with ⟨rfl, hrst, hended⟩ | ⟨rfl, hrst, hended⟩
  · rw [exec, execRstRelease, whenPowered_powered hpowered]
    simp only [releaseRst, hd, hrst, hended]
  · rw [exec, execEndOfPowerOn, whenPowered_powered hpowered]
    simp [endPowerOn, hd, hended, hrst]

/-- Settles O7. -/
theorem resetHeldEndsByThePfailLevel : Obligations.ResetHeldEndsByThePfailLevel := by
  intro c s hpowered hd hc
  rw [exec_of_resetEnd hpowered hd hc]
  refine ⟨fun hpfail => ?released, fun hpfail => by rw [hpfail, if_pos rfl]⟩
  case released =>
    rw [hpfail, if_neg nofun]
    exact ⟨fun horigin => by rw [horigin, causeOf], fun horigin => by rw [horigin, causeOf]⟩

/-! ### The supply warning (R129, R132) -/

/-- Settles O8. -/
theorem pfailAssertHalts : Obligations.PfailAssertHalts := by
  intro s hpowered
  rw [exec, execPfailAssert, whenPowered_powered hpowered]
  refine ⟨fun hheld hhalted => ?_, fun hd => ?_, fun hd => ?_⟩
  · have henter : assertPfail s = enterHalted (setPfail true s) := by
      cases h : s.mount.device <;> simp only [assertPfail, h]
      · exact absurd h hheld
      · exact absurd h hhalted
    rw [henter, enterHalted_eq_halted]
    rfl
  · simp only [assertPfail, hd]
  · simp only [assertPfail, hd]
    rfl

/-- Settles O9: in RESET_HELD and outside HALTED the events of the lines set their levels only. -/
theorem pfailReleaseMounts : Obligations.PfailReleaseMounts := by
  intro s hpowered
  simp only [exec, execPfailRelease, execRstAssert, execRstRelease, execEndOfPowerOn, whenPowered_powered hpowered,
    Host.Outcome.next.injEq]
  refine ⟨fun hd => ?_, fun hd => ⟨?_, ?_, fun hended => ?_, fun hended hrst => ?_⟩, fun hhalted hheld => ?_,
    fun hheld => ?_, fun hnot => ?_⟩
  · simp only [releasePfail, hd, enterMounting_eq_mounting]
    rfl
  · simp only [releasePfail, hd]
    rfl
  · simp only [assertRst, hd]
  · cases hrst : s.supply.rst <;> simp only [releaseRst, hd, hended, hrst]
  · simp [endPowerOn, hd, hended, hrst]
  · cases h : s.mount.device <;> simp only [releasePfail, h]
    case halted => exact absurd h hhalted
    all_goals rfl
  · cases h : s.mount.device <;> simp only [releaseRst, h]
    exact absurd h hheld
  · have hdue : ¬ (s.mount.device = .resetHeld ∧ s.supply.powerOnEnded = false) := by
      rintro ⟨hd, hended⟩
      rcases hnot with hnot | hnot
      · exact hnot hd
      · simp [hended] at hnot
    rw [endPowerOn, if_neg hdue]

/-! ### Time (R51, R116, R150) -/

/-- Settles O32. -/
theorem tickCountsAndThePulseEnds : Obligations.TickCountsAndThePulseEnds := by
  intro s hpowered
  simp only [exec, execTick, execHrstPulseEnd, whenPowered_powered hpowered, Host.Outcome.next.injEq]
  refine ⟨fun length hperiod => ?_, fun hperiod => ?_, rfl⟩
  · simp only [takeTick, hperiod]
    rfl
  · simp only [takeTick, hperiod]

end Sys2Proof.Proofs
end

