-- ==== Sys2Proof/Proofs/AccessStatements.lean ====
section
/-! PROOFS. The statements of host accesses: the take, class by class, the routing of atomic accesses by the group, and
the end of a host cycle (Chapter 1, R35 to R46, R55, R115). -/

namespace Sys2Proof.Proofs

open Sys2Proof.Machine Sys2Proof.Claims

section
variable {a : Addr} {hoe hwe hlb hub : Bool} {hd : Word16} {s : State} {g : Geometry} {cls : AccessClass}

/-! ### The take (R1) -/

/-- The Host Path once the cycle's access has been taken. -/
def cycleStarted (s : State) : State := { s with host := { s.host with cycleTaken := true } }

theorem accessRecord_eq_recordOf (a : Addr) (hwe hlb hub : Bool) (hd : Word16) (cls : AccessClass) :
    accessRecord a hwe hlb hub hd cls = recordOf a hwe hlb hub hd cls := by
  cases hwe <;> rfl

/-- A take that is due serves the record in its class, and the arbiter decides. -/
theorem exec_take (hpowered : Powered s) (hfree : s.host.cycleTaken = false) (hstrobe : hoe = true ∨ hwe = true)
    (hcls : classify s (pageNo a) (accessKind hwe) = cls) :
    exec (.hostAccessTake a hoe hwe hlb hub hd) s =
      .next (arbitrate (serveClass (recordOf a hwe hlb hub hd cls) (cycleStarted s))) := by
  have hdue : ¬ (s.host.cycleTaken || !(hoe || hwe)) = true := by
    rcases hstrobe with h | h <;> simp [hfree, h]
  rw [exec, execHostAccessTake, whenPowered_powered hpowered, takeAccess, if_neg hdue, serveAccess,
    accessRecord_eq_recordOf, ← hcls]
  cases hwe <;> rfl

/-- Settles O18. -/
theorem oneAccessInEachHostCycle : Obligations.OneAccessInEachHostCycle := by
  intro a hoe hwe hlb hub hd s h
  have hnot : (s.host.cycleTaken || !(hoe || hwe)) = true := by
    rcases h with h | ⟨h, h'⟩ <;> simp [*]
  have hsame : takeAccess a hoe hwe hlb hub hd s = s := by rw [takeAccess, if_pos hnot]
  rw [exec, execHostAccessTake, whenPowered, hsame, ite_self]

/-- The refusal of a taken access, in the claims' words. -/
theorem refuse_recordOf (notReady : Bool) :
    refuse (recordOf a hwe hlb hub hd cls) notReady (cycleStarted s) =
      { s with host := returning (readWordOn 0xFFFF hwe { low := hlb, high := hub } notReady) (endedHost s.host) } := by
  rw [refuse_eq_returning]
  cases hwe <;> rfl

/-- A take that asks for nothing at a settled port leaves the arbiter nothing to decide. -/
theorem exec_take_settled {t : State} (hpowered : Powered s) (hfree : s.host.cycleTaken = false)
    (hstrobe : hoe = true ∨ hwe = true) (hsettled : PortSettled s)
    (hcls : classify s (pageNo a) (accessKind hwe) = cls)
    (hserve : serveClass (recordOf a hwe hlb hub hd cls) (cycleStarted s) = t) (hport : t.port = s.port) :
    exec (.hostAccessTake a hoe hwe hlb hub hd) s = .next t := by
  rw [exec_take hpowered hfree hstrobe hcls, hserve, arbitrate_settled (by rw [hport]; exact hsettled)]

/-- A taken access that asks for its word. -/
theorem requestHost_recordOf (frame : Nat) :
    requestHost frame (recordOf a hwe hlb hub hd cls) (cycleStarted s) =
      waitingFor (inFrame frame a) (recordOf a hwe hlb hub hd cls) s := by
  rw [requestHost, hostRequest_eq_hostWord]
  rfl

theorem isEmpty_of_enabled (h : hlb = true ∨ hub = true) : ({ low := hlb, high := hub } : Lanes).isEmpty = false := by
  rcases h with h | h <;> simp [Lanes.isEmpty, h]

/-! ### NOT_READY and RAW (R5 to R7) -/

/-- Settles O10. -/
theorem notReadyAccessIsRefusedSilently : Obligations.NotReadyAccessIsRefusedSilently := by
  intro a hoe hwe hlb hub hd s hpowered hfree hstrobe hsettled hdevice
  have hcls : classify s (pageNo a) (accessKind hwe) = .notReady := by
    rcases hdevice with h | h | h | h <;> simp only [classify, h]
  exact exec_take_settled hpowered hfree hstrobe hsettled hcls (refuse_recordOf true) rfl

/-- The identical address: an offset of the frame that its page number names (R6). -/
theorem inFrame_pageOf (a : Addr) : inFrame (pageOf a) a = a := by
  refine BitVec.eq_of_toNat_eq ?_
  have := a.isLt
  simp only [inFrame, pageOf, BitVec.toNat_ofNat]
  omega

/-- A RAW access with a lane enabled goes to the identical address, unless it is a write in FAULTED. -/
theorem serveRaw_recordOf (hdevice : s.mount.device = .unformatted ∨ (s.mount.device = .faulted ∧ hwe = false)) :
    serveClass (recordOf a hwe hlb hub hd .raw) (cycleStarted s) =
      if ({ low := hlb, high := hub } : Lanes).isEmpty then { s with host := endedHost s.host }
      else waitingFor a (recordOf a hwe hlb hub hd .raw) s := by
  have hrequest := requestHost_recordOf (a := a) (hwe := hwe) (hlb := hlb) (hub := hub) (hd := hd) (cls := .raw)
    (s := s) (pageOf a)
  rw [inFrame_pageOf] at hrequest
  rw [← hrequest]
  have hd' : (cycleStarted s).mount.device = s.mount.device := rfl
  rcases hdevice with h | ⟨h, rfl⟩
  · simp only [serveClass, recordOf, serveRaw, hd', h]
    rfl
  · simp only [serveClass, recordOf, serveRaw, hd', h]
    rfl

/-- Settles O11. -/
theorem rawAccessGoesToTheIdenticalAddress : Obligations.RawAccessGoesToTheIdenticalAddress := by
  intro a hoe hwe hlb hub hd s hpowered hfree hstrobe
  refine ⟨fun hdevice hlanes => ?_, fun hdevice hwrite hsettled => ?_⟩
  · have hcls : classify s (pageNo a) (accessKind hwe) = .raw := by
      rcases hdevice with h | ⟨h, -⟩ <;> simp only [classify, h]
    rw [exec_take hpowered hfree hstrobe hcls, serveRaw_recordOf hdevice, if_neg (by simp [isEmpty_of_enabled hlanes])]
  · subst hwrite
    have hcls : classify s (pageNo a) (accessKind true) = .raw := by simp only [classify, hdevice]
    refine exec_take_settled hpowered hfree hstrobe hsettled hcls ?_ rfl
    have hd' : (cycleStarted s).mount.device = .faulted := hdevice
    simp only [serveClass, recordOf, serveRaw, hd']
    rfl

/-! ### The classes of READY (R8) -/

theorem refuses_iff (table : List Guard) (page : Nat) (hwe : Bool) :
    (Covered table .all page ∨ (Covered table .write page ∧ accessKind hwe = .write)) ↔ Refuses table page hwe := by
  cases hwe <;> simp [Refuses, accessKind]

section
variable {page : Nat}

theorem classify_unbacked (hm : Mounted s g) (hpage : g.d + g.p ≤ page) :
    classify s page (accessKind hwe) = .unbacked := by
  rw [classify_of_mounted hm, classifyReady_of_beyond_volume hpage]

theorem classify_guarded (hm : Mounted s g) (hpage : page < g.d + g.p) (h : Refuses s.guards.current page hwe) :
    classify s page (accessKind hwe) = .guarded := by
  rw [classify_of_mounted hm, classifyReady_of_backed hpage, if_pos ((refuses_iff _ _ _).mpr h)]

theorem classify_window (hm : Mounted s g) (hpage : page < g.d + g.p) (h : ¬ Refuses s.guards.current page hwe) :
    classify s page (accessKind hwe) = windowClass g page := by
  rw [classify_of_mounted hm, classifyReady_of_backed hpage, if_neg (mt (refuses_iff _ _ _).mp h)]

theorem classify_atomic (hplace : AtomicPlace s g a hwe) : classify s (pageNo a) (accessKind hwe) = .atomic := by
  obtain ⟨hm, hlow, hhigh, hguard⟩ := hplace
  rw [classify_window hm hhigh hguard, windowClass_of_ge hlow]

end

/-! ### Hits (R9, R10, R115, R116) -/

theorem startPulse_post (kind : EventKind) (a : Addr) (s : State) :
    startPulse (post kind (some a) none none s) = afterHit kind a s := by
  have hconfig : (post kind (some a) none none s).config = s.config := rfl
  simp only [startPulse, afterHit, hconfig]
  cases s.config.guardAction <;> rfl

theorem hit_recordOf (onRead onWrite : EventKind) :
    hit onRead onWrite (recordOf a hwe hlb hub hd cls) (cycleStarted s) =
      afterHit (if hwe then onWrite else onRead) a
        { s with host := returning (readWordOn 0xFFFF hwe { low := hlb, high := hub } false) (endedHost s.host) } := by
  simp only [hit, refuse_eq_returning, startPulse_post, recordOf]
  cases hwe <;> rfl

/-- Settles O12. -/
theorem hitsAreRefusedPostedAndFollowTheGuardAction : Obligations.HitsAreRefusedPostedAndFollowTheGuardAction := by
  intro a hoe hwe hlb hub hd s g hpowered hfree hstrobe hsettled hm
  refine ⟨fun hpage => ?_, fun hpage hguard => ?_⟩
  · exact exec_take_settled hpowered hfree hstrobe hsettled (classify_unbacked hm hpage) (hit_recordOf _ _) rfl
  · exact exec_take_settled hpowered hfree hstrobe hsettled (classify_guarded hm hpage hguard) (hit_recordOf _ _) rfl

/-! ### The direct window and the empty lane set (R11, R15) -/

/-- Settles O13. -/
theorem directAccessAndEmptyLanes : Obligations.DirectAccessAndEmptyLanes := by
  intro a hoe hwe hlb hub hd s g hpowered hfree hstrobe
  refine ⟨fun hm hpage hguard hlanes => ?direct, fun hsettled hlow hhigh hplace => ?empty⟩
  case direct =>
    have hcls : classify s (pageNo a) (accessKind hwe) = .direct := by
      rw [classify_window hm (by omega) hguard, windowClass_of_lt hpage]
    rw [exec_take hpowered hfree hstrobe hcls]
    simp only [serveClass]
    rw [if_neg (by simpa [recordOf] using isEmpty_of_enabled hlanes), requestHost_recordOf]
    rfl
  case empty =>
    subst hlow hhigh
    rcases hplace with ⟨hm, hpage, hguard⟩ | hraw
    · refine exec_take_settled hpowered hfree hstrobe hsettled (classify_window hm hpage hguard) ?_ rfl
      rcases Nat.lt_or_ge (pageNo a) g.d with hlt | hge
      · rw [windowClass_of_lt hlt]
        rfl
      · rw [windowClass_of_ge hge]
        rfl
    · have hcls : classify s (pageNo a) (accessKind hwe) = .raw := by
        rcases hraw with h | ⟨h, -⟩ <;> simp only [classify, h]
      exact exec_take_settled hpowered hfree hstrobe hsettled hcls (serveRaw_recordOf hraw) rfl

/-! ### The atomic window (R35 to R46, R55) -/

/-- An atomic access with a lane enabled goes to the Group Controller. -/
theorem serveClass_of_atomic {a : Access} (hcls : a.cls = .atomic) (hlanes : a.lanes.isEmpty = false) (t : State) :
    serveClass a t = serveAtomic a t := by
  simp only [serveClass, hcls, hlanes]
  rfl

theorem readFrame_eq_readTarget (hg : s.xlate.geometry = some g) (a : Addr) :
    readFrame s (pageOf a) (lineOf a) = readTarget g s a := by
  have hframe : s.committedFrame (pageOf a) = committed g s (pageNo a) := committedFrame_eq hg (pageOf a)
  have hentry : findEntry s.group.table (pageOf a) = entryOf s (pageNo a) := rfl
  simp only [readFrame, readTarget, hframe, hentry]
  cases hstate : s.group.state with
  | idle => cases entryOf s (pageNo a) <;> simp
  | _ =>
    cases entryOf s (pageNo a) with
    | none => rfl
    | some e =>
      simp only [Entry.hasLine, ne_eq, reduceCtorEq, not_false_eq_true, true_and]
      rfl

/-- Settles O14. -/
theorem atomicReadIsRoutedByLine : Obligations.AtomicReadIsRoutedByLine := by
  intro a hlb hub hd s g hpowered hfree hplace hlanes
  rw [exec_take hpowered hfree (.inl rfl) (classify_atomic hplace),
    serveClass_of_atomic rfl (isEmpty_of_enabled hlanes)]
  have hg : s.xlate.geometry = some g := by
    obtain ⟨⟨-, hg⟩, -⟩ := hplace
    exact hg
  rw [← readFrame_eq_readTarget hg, ← requestHost_recordOf]
  rfl

/-- The write of an atomic take, as the Group Controller gets it. -/
theorem exec_take_write (hpowered : Powered s) (hfree : s.host.cycleTaken = false) (hplace : AtomicPlace s g a true)
    (hlanes : hlb = true ∨ hub = true) :
    exec (.hostAccessTake a hoe true hlb hub hd) s =
      .next (arbitrate (routeWrite (recordOf a true hlb hub hd .atomic) (cycleStarted s))) := by
  rw [exec_take hpowered hfree (.inr rfl) (classify_atomic hplace),
    serveClass_of_atomic rfl (isEmpty_of_enabled hlanes)]
  rfl

/-- A new page with room and a free frame: its entry, and the fill of its line. -/
theorem routeOpen_new_page {t : State} {rec : Access} {page frame : Nat} {rest : List Nat}
    (hg : t.xlate.geometry = some g) (hpage : pageOf rec.address = page) (hentry : entryOf t page = none)
    (hroom : t.group.table.length < 32) (hpool : t.pool = frame :: rest) :
    routeOpen rec t =
      fillOrdered (entryFor g t page frame) (lineOf rec.address)
        (holdAccess .lineFill rec
          { t with
            pool := rest
            group := { t.group with table := t.group.table ++ [entryFor g t page frame] } }) := by
  subst hpage
  have hframe : t.committedFrame (pageOf rec.address) = committed g t (pageOf rec.address) := committedFrame_eq hg _
  have hfind : findEntry t.group.table (pageOf rec.address) = none := hentry
  have hfull : ¬ groupCapacity ≤ t.group.table.length := Nat.not_le.mpr hroom
  simp only [routeOpen, hfind, if_neg hfull, newEntry, hpool, orderFill_eq_fillOrdered, hframe]
  rfl

/-- Settles O15. -/
theorem atomicWriteOpensAGroup : Obligations.AtomicWriteOpensAGroup := by
  intro a hoe hlb hub hd s g frame rest hpowered hfree hplace hlanes hstate htable hpool
  have hg : s.xlate.geometry = some g := by
    obtain ⟨⟨-, hg⟩, -⟩ := hplace
    exact hg
  have hroute : routeWrite (recordOf a true hlb hub hd .atomic) (cycleStarted s) =
      routeOpen (recordOf a true hlb hub hd .atomic) (openGroup (cycleStarted s)) := by
    have hidle : (cycleStarted s).group.state = .idle := hstate
    simp only [routeWrite, hidle]
  have htable' : (openGroup (cycleStarted s)).group.table = [] := htable
  rw [exec_take_write hpowered hfree hplace hlanes, hroute,
    routeOpen_new_page (t := openGroup (cycleStarted s)) (page := pageNo a) hg rfl (by simp [entryOf, htable'])
      (by simp [htable']) hpool, htable']
  rfl

/-- Settles O16. -/
theorem atomicWriteInAnOpenGroup : Obligations.AtomicWriteInAnOpenGroup := by
  intro a hoe hlb hub hd s g hpowered hfree hplace hlanes hstate
  have hg : s.xlate.geometry = some g := by
    obtain ⟨⟨-, hg⟩, -⟩ := hplace
    exact hg
  have hroute : routeWrite (recordOf a true hlb hub hd .atomic) (cycleStarted s) =
      routeOpen (recordOf a true hlb hub hd .atomic) (cycleStarted s) := by
    have hopened : (cycleStarted s).group.state = .opened := hstate
    simp only [routeWrite, hopened]
  rw [exec_take_write hpowered hfree hplace hlanes, hroute]
  have hrouted : ∀ e, entryOf s (pageNo a) = some e → routeOpen (recordOf a true hlb hub hd .atomic) (cycleStarted s) =
      if e.present.getLsbD (lineNo a) then waitingFor (inFrame e.shadow a) (recordOf a true hlb hub hd .atomic) s
      else fillOrdered e (lineNo a) (heldFor .lineFill (recordOf a true hlb hub hd .atomic) s) := by
    intro e hentry
    have hfind : findEntry (cycleStarted s).group.table (pageOf (recordOf a true hlb hub hd .atomic).address) =
        some e := hentry
    rw [← requestHost_recordOf, ← orderFill_eq_fillOrdered]
    simp only [routeOpen, hfind]
    rfl
  refine ⟨fun e hentry hline => ?_, fun e hentry hline => ?_, fun frame rest hentry hroom hpool => ?_⟩
  · rw [hrouted e hentry, if_pos hline]
  · rw [hrouted e hentry, if_neg (by simp [hline])]
  · rw [routeOpen_new_page (t := cycleStarted s) (page := pageNo a) hg rfl hentry hroom hpool]
    rfl

/-- A write that fails the group is refused, and the group is FAILED with its event. -/
theorem failGroup_recordOf (kind : EventKind) :
    failGroup kind (recordOf a true hlb hub hd cls) (cycleStarted s) =
      post kind none (some (pageNo a)) none
        { s with host := endedHost s.host, group := { s.group with state := .failed } } := by
  rw [failGroup, refuse_recordOf]
  rfl

/-- Settles O17. -/
theorem atomicWriteRefusedOrHeldForACommit : Obligations.AtomicWriteRefusedOrHeldForACommit := by
  intro a hoe hlb hub hd s g hpowered hfree hplace hlanes hsettled
  have htake : ∀ t, routeWrite (recordOf a true hlb hub hd .atomic) (cycleStarted s) = t → t.port = s.port →
      exec (.hostAccessTake a hoe true hlb hub hd) s = .next t := fun t hroute hport =>
    exec_take_settled hpowered hfree (.inr rfl) hsettled (classify_atomic hplace)
      ((serveClass_of_atomic rfl (isEmpty_of_enabled hlanes) _).trans hroute) hport
  have hgroup : (cycleStarted s).group = s.group := rfl
  have hpage : ∀ h, findEntry s.group.table (pageOf (recordOf a true hlb hub hd .atomic).address) = h ↔
      entryOf s (pageNo a) = h := fun h => Iff.rfl
  refine ⟨fun hstate hentry hfull => ?_, fun hstate hentry hroom hpool => ?_, fun hstate => ?_,
    fun phase hstate => ?_⟩
  · refine htake _ ?_ rfl
    simp only [routeWrite, routeOpen, hgroup, hstate, (hpage _).mpr hentry, if_pos hfull, failGroup_recordOf]
  · refine htake _ ?_ rfl
    have hpool' : (cycleStarted s).pool = [] := hpool
    simp only [routeWrite, routeOpen, newEntry, hgroup, hstate, (hpage _).mpr hentry, if_neg (Nat.not_le.mpr hroom),
      hpool', failGroup_recordOf]
  · refine htake _ ?_ rfl
    simp only [routeWrite, hgroup, hstate, refuse_recordOf]
    rfl
  · refine htake _ ?_ rfl
    simp only [routeWrite, hgroup, hstate]
    rfl

/-! ### The end of a host cycle (R14, R16) -/

/-- Settles O19. -/
theorem hostCycleEndAndReadDataRelease : Obligations.HostCycleEndAndReadDataRelease := by
  intro s hpowered
  simp only [exec, execHostCycleEnd, execReadDataRelease, whenPowered_powered hpowered, Host.Outcome.next.injEq]
  refine ⟨fun hnone => ?_, fun a ha => ⟨fun hhold => ?_, fun hhold hwaiting => ?_, fun f hhold hwaiting => ?_,
    fun hhold => ?_⟩, fun hnone => ?_, fun hsome => ?_, trivial⟩
  · simp only [endCycle, hnone]
    rfl
  · simp only [endCycle, ha, giveUp, hhold]
    rfl
  · simp only [endCycle, ha, giveUp, hhold, hwaiting]
    rfl
  · simp only [endCycle, ha, giveUp, hhold, hwaiting]
    rfl
  · simp only [endCycle, ha, giveUp, hhold]
    rfl
  · simp only [releaseData, hnone]
  · obtain ⟨a, ha⟩ := Option.ne_none_iff_exists'.mp hsome
    simp only [releaseData, ha]

end

end Sys2Proof.Proofs
end

