-- ==== Sys2Proof/Proofs/WordStatements.lean ====
section
/-! PROOFS. The statements of a completed memory word access: the host's words, the words of a line fill and of a
COMPLETE copy (R11 to R17, R40 to R42, R65, R122). -/

namespace Sys2Proof.Proofs

open Sys2Proof.Machine Sys2Proof.Claims

section
variable {s : State} {r : Request} {w : Word16}

/-! ### The completion (R122) -/

theorem performRequest_of_read (hkind : r.kind = .read) (m : Memory) : performRequest r m = m := by
  simp only [performRequest, hkind]

theorem requestWord_of_read (hkind : r.kind = .read) (m : Memory) : requestWord r m = readWord m r.address := by
  simp only [requestWord, hkind]

theorem requestWord_of_write (hkind : r.kind = .write) (hdata : r.data = some w) (m : Memory) :
    requestWord r m = w := by
  simp only [requestWord, hkind, hdata, Option.getD_some]

section
variable {who : Requester} {live : Bool}

theorem exec_complete_read (hpowered : Powered s)
    (hflight : s.port.flight = some { request := r, requester := who, live := live }) (hkind : r.kind = .read) :
    exec .memoryWordAccessComplete s =
      .next (arbitrate (deliver { request := r, requester := who, live := live } s.port.underReset
        (readWord s.mem r.address) (completed s.mem s))) := by
  rw [exec, execMemoryWordAccessComplete, whenPowered_powered hpowered, completeWordAccess_eq_deliver hflight,
    performRequest_of_read hkind, requestWord_of_read hkind]

theorem exec_complete_write (hpowered : Powered s)
    (hflight : s.port.flight = some { request := r, requester := who, live := live }) (hkind : r.kind = .write)
    (hdata : r.data = some w) :
    exec .memoryWordAccessComplete s =
      .next (arbitrate (deliver { request := r, requester := who, live := live } s.port.underReset w
        (completed (writeWord s.mem r.address r.lanes w) s))) := by
  rw [exec, execMemoryWordAccessComplete, whenPowered_powered hpowered, completeWordAccess_eq_deliver hflight,
    performRequest_of_write hkind hdata, requestWord_of_write hkind hdata]

end

/-- A live word of the engine goes to its operation. -/
theorem exec_engine_read (hpowered : Powered s) (hflight : InFlight s r .engine) (hkind : r.kind = .read) :
    exec .memoryWordAccessComplete s =
      .next (arbitrate (completeEngine (readWord s.mem r.address) (completed s.mem s))) :=
  exec_complete_read hpowered hflight hkind

theorem exec_engine_write (hpowered : Powered s) (hflight : InFlight s r .engine) (hkind : r.kind = .write)
    (hdata : r.data = some w) :
    exec .memoryWordAccessComplete s =
      .next (arbitrate (completeEngine w (completed (writeWord s.mem r.address r.lanes w) s))) :=
  exec_complete_write hpowered hflight hkind hdata

/-! ### The host's words (R11, R14, R16) -/

/-- Settles O20: a live word ends the access in service, and an orphaned one is handed to nobody. -/
theorem hostWordCompletes : Obligations.HostWordCompletes := by
  intro s r hpowered
  refine ⟨fun hidle => ?idle, fun a ha => ⟨fun hflight hkind hread => ?read,
    fun w hflight hkind hdata hwrite => ?write⟩, fun who hflight => ?orphan⟩
  case idle =>
    rw [exec, execMemoryWordAccessComplete, whenPowered_powered hpowered]
    simp only [completeWordAccess, hidle]
  case read =>
    rw [exec_complete_read hpowered hflight hkind]
    have ha' : (completed s.mem s).host.access = some a := ha
    simp only [deliver, completeHost, ha', hread, driveHd_eq_returning]
    by_cases hreset : s.port.underReset = true ∨ s.mount.device = .resetHeld
    · have hreset' : s.port.underReset = true ∨ (completed s.mem s).mount.device = .resetHeld := hreset
      rw [if_pos hreset', if_pos hreset]
      rfl
    · have hreset' : ¬ (s.port.underReset = true ∨ (completed s.mem s).mount.device = .resetHeld) := hreset
      rw [if_neg hreset', if_neg hreset]
      rfl
  case write =>
    rw [exec_complete_write hpowered hflight hkind hdata]
    have ha' : (completed (writeWord s.mem r.address r.lanes w) s).host.access = some a := ha
    simp only [deliver, completeHost, ha', hwrite]
    rfl
  case orphan =>
    have hgoes : ∀ mem v, deliver { request := r, requester := who, live := false } s.port.underReset v
        (completed mem s) = if who = .engine then engineResumes (completed mem s) else completed mem s := by
      intro mem v
      cases who
      · rfl
      · exact resumeEngine_eq_engineResumes _
    refine ⟨fun hkind => ?_, fun w hkind hdata => ?_⟩
    · rw [exec_complete_read hpowered hflight hkind, hgoes]
    · rw [exec_complete_write hpowered hflight hkind hdata, hgoes]

/-! ### Line fills (R40 to R42) -/

theorem completeEngine_of_fill {t : State} {f : Fill} (h : t.group.running = some f) (w : Word16) :
    completeEngine w t = fillStep f w t := by
  simp only [completeEngine, h]

/-- Settles O21. -/
theorem lineFillCopiesWordByWord : Obligations.LineFillCopiesWordByWord := by
  intro s r f hpowered hflight hrunning
  refine ⟨fun hheld hkind => ?_, fun v w hheld hword hkind hdata => ?_⟩
  · rw [exec_engine_read hpowered hflight hkind, completeEngine_of_fill (t := completed _ s) hrunning]
    simp only [fillStep, hheld]
    rfl
  · rw [exec_engine_write hpowered hflight hkind hdata, completeEngine_of_fill (t := completed _ s) hrunning]
    simp only [fillStep, hheld, if_pos hword]
    rfl

/-- The filling write goes to its merge in the shadow frame. -/
theorem releaseFill_of_entry {f : Fill} {t : State} {a : Access} {page : Nat} (hentry : f.entry = some page)
    (hmerge : f.mergeWanted = true) (haccess : t.host.access = some a) (hhold : t.host.hold = .lineFill) :
    releaseFill f t = requestHost f.target a t := by
  simp only [releaseFill, hentry, hmerge, haccess, hhold]

/-- The filling write of a fill that has lost its entry is routed afresh. -/
theorem releaseFill_of_no_entry {f : Fill} {t : State} {a : Access} (hentry : f.entry = none)
    (hmerge : f.mergeWanted = true) (haccess : t.host.access = some a) (hhold : t.host.hold = .lineFill) :
    releaseFill f t = routeWrite a t := by
  simp only [releaseFill, hentry, hmerge, haccess, hhold]

/-- A released write waits for its word. -/
theorem requestHost_eq {t : State} {a : Access} (haccess : t.host.access = some a) (frame : Nat) :
    requestHost frame a t =
      { t with
        host := { t.host with hold := .none }
        port := { t.port with hostReq := some (hostWord (inFrame frame a.address) a) } } := by
  rw [requestHost, hostRequest_eq_hostWord, ← haccess]

/-- An access in service is held for another reason. -/
theorem holdAccess_eq {t : State} {a : Access} (haccess : t.host.access = some a) (why : HoldReason) :
    holdAccess why a t = { t with host := { t.host with hold := why } } := by
  rw [holdAccess, ← haccess]

/-- A write that stays held for the same reason. -/
theorem holdAccess_of_held {t : State} {a : Access} {why : HoldReason} (haccess : t.host.access = some a)
    (hhold : t.host.hold = why) : holdAccess why a t = t := by
  rw [holdAccess, ← haccess, ← hhold]

/-- A fill passes the engine requester on only when none runs. -/
theorem engineNext_of_running {t : State} {f : Fill} (h : t.group.running = some f) : engineNext t = t := by
  simp only [engineNext, h]

/-- Settles O22. -/
theorem lineFillEnds : Obligations.LineFillEnds := by
  intro s r f v w hpowered hflight hrunning hheld hword hkind hdata ended filled
  have hend : exec .memoryWordAccessComplete s =
      .next (arbitrate (endFill f (completed (writeWord s.mem r.address r.lanes w) s))) := by
    rw [exec_engine_write hpowered hflight hkind hdata, completeEngine_of_fill (t := completed _ s) hrunning]
    simp only [fillStep, hheld, hword, Nat.lt_irrefl, if_false]
  have hentered : ∀ page, f.entry = some page →
      exec .memoryWordAccessComplete s = .next (arbitrate (engineNext (releaseFill f (filled page)))) := by
    intro page hentry
    rw [hend, endFill, hentry]
    rfl
  have hlost : f.entry = none →
      exec .memoryWordAccessComplete s = .next (arbitrate (engineNext (releaseFill f ended))) := by
    intro hentry
    rw [hend, endFill, hentry]
    rfl
  have hhost : ended.host = s.host := rfl
  have hhost' : ∀ page, (filled page).host = s.host := fun _ => rfl
  refine ⟨fun page a hentry hmerge haccess hhold => ?merge, fun page hentry hmerge => ?givenUp,
    fun hentry hmerge => ?nobody,
    fun a g frame rest hentry hmerge haccess hhold hg hidle htable hwaiting hpool => ?opens,
    fun a phase hentry hmerge haccess hhold hstate => ?held⟩
  case merge =>
    rw [← hhost' page] at haccess hhold
    rw [hentered page hentry, releaseFill_of_entry hentry hmerge haccess hhold, requestHost_eq haccess]
    exact congrArg (fun t => Host.Outcome.next (arbitrate t)) (engineNext_eq_engineGoesOn rfl)
  case givenUp =>
    rw [hentered page hentry, releaseFill_of_given_up hmerge]
    exact congrArg (fun t => Host.Outcome.next (arbitrate t)) (engineNext_eq_engineGoesOn rfl)
  case nobody =>
    rw [hlost hentry, releaseFill_of_given_up hmerge]
    exact congrArg (fun t => Host.Outcome.next (arbitrate t)) (engineNext_eq_engineGoesOn rfl)
  case opens =>
    have hroute : routeWrite a ended = routeOpen a (openGroup ended) := by
      have hidle' : ended.group.state = .idle := hidle
      simp only [routeWrite, hidle']
    have htable' : (openGroup ended).group.table = [] := htable
    rw [← hhost] at haccess hhold
    rw [hlost hentry, releaseFill_of_no_entry hentry hmerge haccess hhold, hroute,
      routeOpen_new_page (t := openGroup ended) (page := pageNo a.address) hg rfl (by simp [entryOf, htable'])
        (by simp [htable']) hpool, htable', holdAccess_of_held]
    · exact congrArg (fun t => Host.Outcome.next (arbitrate t)) (engineNext_of_running rfl)
    · exact haccess
    · exact hhold
  case held =>
    have hroute : routeWrite a ended = holdAccess .commitHold a ended := by
      have hstate' : ended.group.state = .committing phase := hstate
      simp only [routeWrite, hstate']
    rw [← hhost] at haccess hhold
    rw [hlost hentry, releaseFill_of_no_entry hentry hmerge haccess hhold, hroute, holdAccess_eq haccess]
    exact congrArg (fun t => Host.Outcome.next (arbitrate t)) (engineNext_eq_engineGoesOn rfl)

/-! ### COMPLETE copies (R65) -/

/-- With no fill running a word of the engine is the Commit Engine's in READY. -/
theorem completeEngine_of_ready {t : State} (hdevice : t.mount.device = .ready) (hrunning : t.group.running = none)
    (w : Word16) : completeEngine w t = commitStep w t := by
  simp only [completeEngine, hrunning, hdevice]

/-- Settles O23. -/
theorem completeCopiesEachAbsentLine : Obligations.CompleteCopiesEachAbsentLine := by
  intro s req r e hpowered hdevice hrunning hstate hrecord hentry hflight
  have hstep : ∀ mem w, completeEngine w (completed mem s) = copyStep r w (completed mem s) := by
    intro mem w
    have hstate' : (completed mem s).group.state = .committing .complete := hstate
    have hrecord' : (completed mem s).commit.record = some r := hrecord
    rw [completeEngine_of_ready (t := completed mem s) hdevice hrunning, commitStep, hstate', hrecord']
  have hentry' : ∀ mem, (completed mem s).group.table[r.copyEntry]? = some e := fun _ => hentry
  refine ⟨fun hheld hkind => ?_, fun v w hheld hword hkind hdata => ?_, fun v w hheld hword hkind hdata => ?_⟩
  · rw [exec_engine_read hpowered hflight hkind, hstep]
    simp only [copyStep, hentry', hheld]
    rfl
  · rw [exec_engine_write hpowered hflight hkind hdata, hstep]
    simp only [copyStep, hentry', hheld, if_pos hword]
    rfl
  · rw [exec_engine_write hpowered hflight hkind hdata, hstep]
    simp only [copyStep, hentry', hheld, hword, Nat.lt_irrefl, if_false, requestCopy_eq_copyNext]
    rfl

end

end Sys2Proof.Proofs
end

