-- ==== Sys2Proof/Proofs/ImageStatements.lean ====
section
/-! PROOFS. The statements of the words of map images: the writes of a commit and of a format, and the reads and the
decision of a mount (R67 to R70, R84, R98 to R107). -/

namespace Sys2Proof.Proofs

open Sys2Proof.Machine Sys2Proof.Claims

/-! ### The order of an image's words (R69, R83, R89) -/

/-- The words of an image by their place in the order of writing. -/
theorem writeOrder_getElem?_eq_some {p i n : Nat} :
    (writeOrder p)[i]? = some n ↔
      (i < 25 ∧ n = i + 1) ∨ (25 ≤ i ∧ i < 25 + p ∧ n = i + 3) ∨ (i = 25 + p ∧ n = 26) ∨ (i = 26 + p ∧ n = 27) := by
  rcases Nat.lt_or_ge i (25 + p) with hi | hi
  · have hfirst : (writeOrder p)[i]? = (List.range' 1 25 ++ List.range' 28 p)[i]? :=
      List.getElem?_append_left (by simpa using hi)
    rw [hfirst]
    rcases Nat.lt_or_ge i 25 with h25 | h25
    · rw [List.getElem?_append_left (by simpa using h25), List.getElem?_range' h25, Option.some.injEq]
      omega
    · rw [List.getElem?_append_right (by simpa using h25), List.length_range', List.getElem?_range' (by omega),
        Option.some.injEq]
      omega
  · have hlast : (writeOrder p)[i]? = [26, 27][i - (25 + p)]? := by
      rw [writeOrder, List.getElem?_append_right (by simpa using hi)]
      simp
    rw [hlast]
    obtain ⟨k, rfl⟩ := Nat.exists_eq_add_of_le hi
    rw [Nat.add_sub_cancel_left]
    match k with
    | 0 => simp; omega
    | 1 => simp; omega
    | k + 2 => simp; omega

/-- The model's step from a word to the next follows the order of writing. -/
theorem nextWord_of_writeOrder {p i n n' : Nat} (hn : (writeOrder p)[i]? = some n)
    (hn' : (writeOrder p)[i + 1]? = some n') : nextWord p n = some n' := by
  rw [writeOrder_getElem?_eq_some] at hn hn'
  rw [nextWord, if_neg (by omega)]
  split_ifs <;> rw [Option.some.injEq] <;> omega

theorem accumulated_eq (acc : BitVec 32) (n : Nat) (w : Word16) :
    (if covered n then crcWord acc w else acc) = accumulated acc n w := by
  have hcovered : covered n = true ↔ ¬ (n = 0 ∨ n = 26 ∨ n = 27) := by
    simp [covered, Nat.one_le_iff_ne_zero]
    tauto
  rw [accumulated]
  by_cases h : n = 0 ∨ n = 26 ∨ n = 27
  · rw [if_pos h, if_neg (by rw [hcovered]; exact not_not_intro h)]
  · rw [if_neg h, if_pos (hcovered.mpr h)]

section
variable {s : State} {r : Request} {g : Geometry} {w : Word16}

/-! ### The writes of a commit (R67 to R70) -/

theorem geometry_of_mounted (h : Mounted s g) : s.geometry = g := by
  obtain ⟨-, hg⟩ := h
  simp only [State.geometry, hg, Option.getD_some]

theorem sourceGuards_eq (source : GuardSource) (u : GuardUnit) :
    sourceGuards source u = if source = .staged then u.staged.getD u.current else u.current := by
  cases source <;> rfl

/-- A word of a commit's image is asked for. -/
theorem requestImageWord_eq (hg : s.geometry = g) (c : CommitRecord) (b : CommitBody) (n : Nat) :
    requestImageWord c b n s =
      withEngine .write (slotAddr c.target n) (some ((imageOf s g c b).word b.acc n))
        { s with commit := { s.commit with record := some { c with body := some b, writePos := some n } } } := by
  simp only [requestImageWord, commitImage, committedMap, sourceGuards_eq, hg, slotWord_eq_slotAddr,
    requestEngine_eq_withEngine, withRecord]
  rfl

/-- Settles O24: the image's words follow one another as `nextWord_of_writeOrder` says. -/
theorem commitWritesTheImageInOrder : Obligations.CommitWritesTheImageInOrder := by
  intro s req r g w hpowered hm hrunning hrecord hflight hkind hdata mem
  have hg : (completed mem s).geometry = g := geometry_of_mounted hm
  have hrecord' : (completed mem s).commit.record = some r := hrecord
  have hexec : exec .memoryWordAccessComplete s = .next (arbitrate (commitStep w (completed mem s))) := by
    have hdevice : (completed mem s).mount.device = .ready := hm.1
    rw [exec_engine_write hpowered hflight hkind hdata, ← completeEngine_of_ready hdevice hrunning]
  rw [hexec]
  refine ⟨fun hstate => ?retire, fun b n n' i hstate hbody hpos hn hn' => ?body, fun b hstate hbody hpos => ?last,
    fun hstate => ?mark⟩
  all_goals have hstate' : (completed mem s).group.state = _ := hstate
  case retire =>
    have hg' : ({ completed mem s with group := { s.group with state := .committing .write } } : State).geometry = g :=
      hg
    simp only [commitStep, hstate', hrecord', startWrite]
    exact congrArg (fun t => Host.Outcome.next (arbitrate t)) (requestImageWord_eq hg' r _ 1)
  case body =>
    simp only [commitStep, hstate', hrecord', writeStep, hbody, hpos, hg, nextWord_of_writeOrder hn hn', accumulated_eq]
    rw [requestImageWord_eq hg]
    rfl
  case last =>
    have hself : ({ b with acc := if covered 27 then crcWord b.acc w else b.acc } : CommitBody) = b := rfl
    simp only [commitStep, hstate', hrecord', writeStep, hbody, hpos, nextWord, if_true, slotWord_eq_slotAddr,
      requestEngine_eq_withEngine]
    rw [hself, ← hbody]
    rfl
  case mark =>
    simp only [commitStep, hstate', hrecord']
    rfl

/-! ### The reads of a mount (R84, R98) -/

theorem wordAt_eq_iff {words : List Word16} {n : Nat} {v : Word16} (hv : v ≠ 0) :
    wordAt words n = v ↔ words[n]? = some v := by
  cases h : words[n]? with
  | none => simpa [wordAt, h] using hv.symm
  | some x => simp [wordAt, h]

/-- The slot is marked and its word 5 gives a pool size in range (R84). -/
theorem marked_iff (words : List Word16) :
    (wordAt words 0 = markWord ∧ 1 ≤ (wordAt words 5).toNat ∧ (wordAt words 5).toNat ≤ 4068) ↔
      (words[0]? = some 0x4D4A ∧ ∃ v, words[5]? = some v ∧ 1 ≤ v.toNat ∧ v.toNat ≤ 4068) := by
  rw [wordAt_eq_iff (by decide)]
  refine and_congr_right fun _ => ?_
  cases h : words[5]? with
  | none => simp [wordAt, h]
  | some v => simp [wordAt, h]

/-- The words of a slot a mount has still to read. -/
theorem lt_wordsToRead {words : List Word16}
    (h : words.length < 28 ∨ (words[0]? = some 0x4D4A ∧ ∃ v, words[5]? = some v ∧ 1 ≤ v.toNat ∧ v.toNat ≤ 4068 ∧
      words.length < 28 + v.toNat)) : words.length < wordsToRead words := by
  rw [wordsToRead]
  rcases h with h | ⟨hmark, v, hv, hlow, hhigh, hlt⟩
  · rw [if_neg (by omega)]
    exact h
  · rcases Nat.lt_or_ge words.length 28 with hshort | hlong
    · rw [if_neg (by omega)]
      exact hshort
    · rw [if_pos ⟨hlong, (marked_iff words).mpr ⟨hmark, v, hv, hlow, hhigh⟩⟩, wordAt, hv]
      exact hlt

theorem wordsToRead_of_slotRead {words : List Word16} (h : SlotRead words) : wordsToRead words = words.length := by
  rw [SlotRead] at h
  rw [wordsToRead, h]
  by_cases hc : words[0]? = some 0x4D4A ∧ ∃ v, words[5]? = some v ∧ 1 ≤ v.toNat ∧ v.toNat ≤ 4068
  · rw [if_pos hc, if_pos ⟨Nat.le_add_right 28 _, (marked_iff words).mpr hc⟩, wordAt]
  · rw [if_neg hc, if_neg fun ⟨_, hmarked⟩ => hc ((marked_iff words).mp hmarked)]

section
variable {slot : Slot} {va : Option Verdict} {words : List Word16} {acc : BitVec 32}

/-- A mount's word is taken by the Mount Engine. -/
theorem exec_mount_word (hpowered : Powered s) (hdevice : s.mount.device = .mounting)
    (hrunning : s.group.running = none) (hflight : InFlight s r .engine) (hkind : r.kind = .read) :
    exec .memoryWordAccessComplete s =
      .next (arbitrate (mountStep (readWord s.mem r.address) (completed s.mem s))) := by
  have hrunning' : (completed s.mem s).group.running = none := hrunning
  have hdevice' : (completed s.mem s).mount.device = .mounting := hdevice
  rw [exec_engine_read hpowered hflight hkind]
  simp only [completeEngine, hrunning', hdevice']

theorem readSlotWord_eq (slot : Slot) (va : Option Verdict) (words : List Word16) (acc : BitVec 32) (s : State) :
    readSlotWord slot va words acc s =
      withEngine .read (slotAddr slot words.length) none
        { s with mount := { s.mount with run := .reading slot va words acc } } := by
  rw [readSlotWord, slotWord_eq_slotAddr, requestEngine_eq_withEngine]

/-- A word that leaves words of the slot to read. -/
theorem mountStep_of_lt (hrun : s.mount.run = .reading slot va words acc)
    (hlt : (words ++ [w]).length < wordsToRead (words ++ [w])) :
    mountStep w s = readSlotWord slot va (words ++ [w]) (accumulated acc words.length w) s := by
  simp only [mountStep, hrun, if_pos hlt, accumulated_eq]

/-- The last word of a slot: the other slot, or the decision. -/
theorem mountStep_of_slotRead (hrun : s.mount.run = .reading slot va words acc) (hread : SlotRead (words ++ [w])) :
    (slot = .a → mountStep w s =
      readSlotWord .b (some (judge (words ++ [w]) (accumulated acc words.length w))) [] crcStart s) ∧
    (∀ v, slot = .b → va = some v → mountStep w s =
      endMount (mountDecision v (judge (words ++ [w]) (accumulated acc words.length w))) s) := by
  have hnot : ¬ (words ++ [w]).length < wordsToRead (words ++ [w]) := by
    rw [wordsToRead_of_slotRead hread]
    exact lt_irrefl _
  refine ⟨?_, fun v => ?_⟩
  · rintro rfl
    simp only [mountStep, hrun, if_neg hnot, accumulated_eq]
  · rintro rfl rfl
    simp only [mountStep, hrun, if_neg hnot, accumulated_eq]

/-- Settles O25. -/
theorem mountReadsSlotAThenSlotB : Obligations.MountReadsSlotAThenSlotB := by
  intro s r slot va words acc hpowered hdevice hrunning hflight hkind hrun words' acc'
  have hrun' : (completed s.mem s).mount.run = .reading slot va words acc := hrun
  refine ⟨fun hleft => ?_, fun hread hslot => ?_⟩
  · rw [exec_mount_word hpowered hdevice hrunning hflight hkind, mountStep_of_lt hrun' (lt_wordsToRead hleft),
      readSlotWord_eq]
    rfl
  · rw [exec_mount_word hpowered hdevice hrunning hflight hkind, (mountStep_of_slotRead hrun' hread).1 hslot,
      readSlotWord_eq]
    rfl

end

/-! ### The decision of a mount (R99 to R102) -/

theorem mountDetail_eq_mountByte (cause : Option MountCause) (slot : Slot) :
    mountDetail cause slot = mountByte cause slot := by
  rcases cause with _ | cause
  · cases slot <;> rfl
  · cases cause <;> cases slot <;> rfl

theorem endMount_ready (slot : Slot) (im : Image) (s : State) :
    endMount (.ready slot im) s =
      post .mountReady none none (some (mountByte s.mount.cause slot))
        (loaded im.geometry im.entries im.generation slot im.guards s) := by
  rw [endMount, mountReady, loadVolume_eq_loaded, mountDetail_eq_mountByte]
  rfl

theorem endMount_faulted (reason : FaultedReason) (s : State) :
    endMount (.faulted reason) s =
      post .mountFault none none (some (if reason = .noValid then 0x01 else 0x02))
        (mountedNothing .faulted (some reason) s) := by
  rw [endMount, mountNothing_eq_mountedNothing]
  cases reason <;> rfl

/-- Settles O26. -/
theorem mountEndsByItsDecision : Obligations.MountEndsByItsDecision := by
  intro s r va words acc hpowered hdevice hrunning hflight hkind hrun hread vb
  have hrun' : (completed s.mem s).mount.run = .reading .b (some va) words acc := hrun
  rw [exec_mount_word hpowered hdevice hrunning hflight hkind, (mountStep_of_slotRead hrun' hread).2 va rfl rfl]
  refine ⟨fun slot im hdecision => ?_, fun hdecision => ?_, fun reason hdecision => ?_⟩
  · rw [hdecision, endMount_ready]
    rfl
  · rw [hdecision, endMount, mountNothing_eq_mountedNothing]
  · rw [hdecision, endMount_faulted]

/-! ### The writes of a format (R105 to R107) -/

theorem freshMap_eq_map (g : Geometry) : freshMap g = (List.range g.p).map fun i => 32 + g.d + i := by
  rw [freshMap, List.range'_eq_map_range]

theorem formatImage_eq_freshImage (f : FormatRun) : formatImage f = freshImage f.geometry (f.stamp.getD 0) := by
  rw [formatImage, freshMap_eq_map]
  rfl

/-- An image word of a format is asked for. -/
theorem requestFormat_body (f : FormatRun) (n : Nat) (s : State) :
    requestFormat f (.body n) s =
      withEngine .write (slotAddr .a n) (some ((freshImage f.geometry (f.stamp.getD 0)).word f.acc n))
        { s with mount := { s.mount with format := some { f with step := some (.body n) } } } := by
  simp only [requestFormat, formatWrite, formatImage_eq_freshImage, slotWord_eq_slotAddr, requestEngine_eq_withEngine]

theorem endFormat_eq (f : FormatRun) (s : State) :
    endFormat f s =
      post .formatDone none none none
        (loaded f.geometry ((List.range f.geometry.p).map fun i => 32 + f.geometry.d + i) 1 .a offTable s) := by
  rw [endFormat, freshMap_eq_map, loadVolume_eq_loaded]
  rfl

/-- Settles O27: the image's words follow one another as `nextWord_of_writeOrder` says. -/
theorem formatWritesInOrderAndLoads : Obligations.FormatWritesInOrderAndLoads := by
  intro s r f w hpowered hdevice hrunning hformat hflight hkind hdata mem
  have hformat' : (completed mem s).mount.format = some f := hformat
  have hexec : exec .memoryWordAccessComplete s = .next (arbitrate (formatStep w (completed mem s))) := by
    have hrunning' : (completed mem s).group.running = none := hrunning
    have hdevice' : (completed mem s).mount.device = .formatting := hdevice
    rw [exec_engine_write hpowered hflight hkind hdata]
    simp only [mem, completeEngine, hrunning', hdevice']
  rw [hexec]
  refine ⟨fun hstep => ?retireA, fun hstep => ?retireB, fun n n' i hstep hn hn' => ?body, fun hstep => ?last,
    fun hstep => ?mark⟩
  case retireA =>
    simp only [formatStep, hformat', hstep]
    rfl
  case retireB =>
    simp only [formatStep, hformat', hstep, requestFormat_body]
    rfl
  case body =>
    simp only [formatStep, hformat', hstep, nextWord_of_writeOrder hn hn', requestFormat_body, accumulated_eq]
    rfl
  case last =>
    simp only [formatStep, hformat', hstep, nextWord, if_true]
    rfl
  case mark =>
    simp only [formatStep, hformat', hstep, endFormat_eq]

end

end Sys2Proof.Proofs
end

