-- ==== Sys2Proof/Proofs/CommitStatements.lean ====
section
/-! PROOFS. The statements of commits, aborts and the starts of a mount and a format (R47 to R49, R52, R56, R59 to R66,
R71, R98, R106). -/

namespace Sys2Proof.Proofs

open Sys2Proof.Machine Sys2Proof.Claims

section
variable {s : State} {g : Geometry} {a : Access}

/-! ### COMPLETE_END (R56, R65) -/

theorem isShadow_iff {table : List Entry} {frame : Nat} :
    isShadow table frame = true ↔ ∃ e ∈ table, e.shadow = frame := by
  simp [isShadow]

/-- The model's test finds the pending writes to shadow frames. -/
theorem shadowWritePending_iff (s : State) : shadowWritePending s = true ↔ ShadowWrite s := by
  have htoShadow : ∀ q : Request, (q.kind == .write && isShadow s.group.table q.frame) = true ↔
      q.kind = .write ∧ ∃ e ∈ s.group.table, e.shadow = pageNo q.address := by
    intro q
    rw [Bool.and_eq_true, isShadow_iff, beq_iff_eq]
    rfl
  constructor
  · intro h
    simp only [shadowWritePending, Bool.or_eq_true] at h
    rcases h with h | h
    · split at h
      next q hq => exact ⟨q, .inl hq, (htoShadow q).mp h⟩
      next => contradiction
    · split at h
      next f hf =>
        rw [Bool.and_eq_true, beq_iff_eq] at h
        obtain ⟨hwho, hto⟩ := h
        exact ⟨f.request, .inr ⟨f.live, by rw [hf, ← hwho]⟩, (htoShadow f.request).mp hto⟩
      next => contradiction
  · rintro ⟨q, hq | ⟨live, hq⟩, hto⟩
    · simp only [shadowWritePending, hq, (htoShadow q).mpr hto, Bool.true_or]
    · simp only [shadowWritePending, hq, (htoShadow q).mpr hto, beq_self_eq_true, Bool.and_true, Bool.or_true]

theorem completeDone_iff (s : State) :
    completeDone s = true ↔
      (∀ e ∈ s.group.table, e.present = 0xFFFF) ∧ s.group.running = none ∧ s.group.waiting = none ∧
        s.host.hold ≠ .lineFill ∧ ¬ ShadowWrite s := by
  rw [← shadowWritePending_iff]
  simp [completeDone, and_assoc]

/-- Settles O28. -/
theorem completeEndsWhenAllIsPresent : Obligations.CompleteEndsWhenAllIsPresent := by
  intro s hpowered
  rw [exec, execCompleteEnd, whenPowered_powered hpowered]
  refine ⟨fun r hdevice hstate hrecord hpresent hrunning hwaiting hhold hwrite => ?_, fun hnot => ?_⟩
  · have hdone : completeDone s = true := (completeDone_iff s).mpr ⟨hpresent, hrunning, hwaiting, hhold, hwrite⟩
    simp only [endComplete, hdevice, hstate, hrecord, if_pos hdone, requestRetire_eq_withEngine]
  · have hsame : endComplete s = s := by
      rw [endComplete]
      split
      next r hdevice hstate hrecord =>
        refine if_neg fun hdone => ?_
        obtain ⟨hpresent, hrunning, hwaiting, hhold, hwrite⟩ := (completeDone_iff s).mp hdone
        rcases hnot with h | h | ⟨e, he, h⟩ | h | h | h | h
        · exact h hdevice
        · exact h hstate
        · exact h (hpresent e he)
        · exact h hrunning
        · exact h hwaiting
        · exact hhold h
        · exact hwrite h
      next => rfl
    rw [hsame]

/-! ### A write taken afresh (R17) -/

/-- Serving a write again is the take of its record in a host cycle whose access has not been taken. -/
theorem exec_retake {t : State} {w : Word16} (hpowered : Powered t) (htaken : t.host.cycleTaken = true)
    (hkind : a.kind = .write) (hdata : a.data = some w) :
    exec (.hostAccessTake a.address false true a.lanes.low a.lanes.high w)
        { t with host := { t.host with cycleTaken := false } } =
      .next (arbitrate (serveAccess a t)) := by
  have hrecord : { accessRecord a.address true a.lanes.low a.lanes.high w .notReady with cls := a.cls } = a := by
    rcases a with ⟨address, kind, lanes, data, cls⟩
    cases hkind
    cases hdata
    rfl
  have hcycle : ({ t.host with cycleTaken := true } : HostPath) = t.host := by rw [← htaken]
  have hserve : serveAccess (accessRecord a.address true a.lanes.low a.lanes.high w .notReady) t = serveAccess a t := by
    rw [← hrecord]
    rfl
  rw [exec, execHostAccessTake,
    whenPowered_powered (s := { t with host := { t.host with cycleTaken := false } }) hpowered, ← hserve,
    takeAccess, if_neg (by simp)]
  simp only [hcycle]

/-! ### SWITCH (R71) -/

/-- Settles O29: the switch, then the release of a write held for it. -/
theorem switchIsTakenWhole : Obligations.SwitchIsTakenWhole := by
  refine ⟨fun s hpowered hnot => ?_, ?_⟩
  · rw [exec, execSwitch, whenPowered_powered hpowered]
    have hsame : takeSwitch s = s := by
      rw [takeSwitch]
      split
      next r hdevice hstate hrecord =>
        split
        next b _ hpos =>
          rcases hnot with h | h | ⟨r', hr', h⟩
          · exact absurd hdevice h
          · exact absurd hstate h
          · rw [hrecord] at hr'
            cases hr'
            exact absurd hpos h
        next => rfl
      next => rfl
    rw [hsame]
  · intro s r b g hpowered hm hstate hrecord hbody hpos switched
    have hg : s.geometry = g := geometry_of_mounted hm
    have hswitched : post .commitDone none none (some (num8 r.pageCount)) (switchState r b s) = switched := by
      rw [switchState, committedMap, hg]
      cases hsource : r.source <;> simp only [switched, hsource] <;> rfl
    have hexec : exec .switch s = .next (arbitrate (releaseCommitHold switched)) := by
      obtain ⟨hdevice, -⟩ := hm
      rw [exec, execSwitch, whenPowered_powered hpowered, ← hswitched]
      simp only [takeSwitch, hdevice, hstate, hrecord, hbody, hpos]
    refine ⟨fun hheld => ?_, fun a w haccess hhold htaken hkind hdata => ?_⟩
    · rw [hexec, releaseCommitHold]
      split
      next a haccess hhold =>
        rcases hheld with h | h
        · exact absurd (h.symm.trans haccess) nofun
        · exact absurd hhold h
      next => rfl
    · have haccess' : switched.host.access = some a := haccess
      have hhold' : switched.host.hold = .commitHold := hhold
      rw [hexec, releaseCommitHold, haccess', hhold']
      exact (exec_retake (t := switched) hpowered htaken hkind hdata).symm

/-! ### Commit requests (R59 to R62) -/

/-- A commit's start, with no request latched and no fill left to start (R62). -/
theorem startCommit_eq_commitStarted (hlatch : s.commit.latch = false)
    (hwaiting : s.group.waiting = none ∨ s.group.running ≠ none) (kind : CommitKind) :
    startCommit kind s = commitStarted kind s := by
  have hcommit : ∀ r, ({ s.commit with record := some r } : CommitEngine) = { latch := false, record := some r } := by
    intro r
    rw [← hlatch]
  simp only [startCommit, commitStarted, newRecord_eq_recordAt, withRecord, hcommit]
  cases hrunning : s.group.running with
  | some f =>
    rw [engineNext_of_running (f := f) rfl]
    cases kind <;> rfl
  | none =>
    obtain hwaiting : s.group.waiting = none := by simpa [hrunning] using hwaiting
    rw [engineNext_eq_engineGoesOn rfl, engineGoesOn, hwaiting]
    cases kind <;> rfl

/-- A request that is answered with a commit: it starts, and COMMIT is told its kind and page count. -/
theorem exec_commit_started {kind : CommitKind} (hpowered : Powered s) (hdevice : s.mount.device = .ready)
    (hanswer : commitAnswer s = .ok kind) (hwaiting : s.group.waiting = none ∨ s.group.running ≠ none) :
    exec .cmt s = .next (arbitrate (commitStarted kind s)) ∧
      (s.commit.latch = false → AwaitsCode s →
        exec .commit s = .next (answered 0x20 [0x00, kind.code, num8 s.group.table.length]
          (arbitrate (commitStarted kind s)))) := by
  refine ⟨?_, fun hlatch hawaits => ?_⟩
  · have hanswer' : commitAnswer { s with commit := { s.commit with latch := false } } = .ok kind := hanswer
    have hstart := startCommit_eq_commitStarted (s := { s with commit := { s.commit with latch := false } }) rfl
      hwaiting kind
    rw [exec, execCmt, whenPowered_powered hpowered]
    simp only [takeCmt, hdevice, answerLatch, if_true, hanswer', hstart]
    rfl
  · rw [exec, execCommit, whenPowered_takeCommand_of_awaitsCode hpowered hawaits]
    simp only [takeCommit, onVolume, volumeRefusal, hdevice, hanswer, okWith,
      startCommit_eq_commitStarted hlatch hwaiting]
    rfl

/-- A request that is refused: nothing but the refusal's event, or its result code. -/
theorem exec_commit_refused {why : Result} (hpowered : Powered s) (hdevice : s.mount.device = .ready)
    (hanswer : commitAnswer s = .error why) :
    exec .cmt s =
        .next (post .commitRefused none none (some why.code) { s with commit := { s.commit with latch := false } }) ∧
      (AwaitsCode s → exec .commit s = .next (answered 0x20 [why.code] s)) := by
  refine ⟨?_, fun hawaits => ?_⟩
  · have hanswer' : commitAnswer { s with commit := { s.commit with latch := false } } = .error why := hanswer
    rw [exec, execCmt, whenPowered_powered hpowered]
    simp only [takeCmt, hdevice, answerLatch, if_true, hanswer']
  · rw [exec, execCommit, whenPowered_takeCommand_of_awaitsCode hpowered hawaits]
    simp only [takeCommit, onVolume, volumeRefusal, hdevice, hanswer, resultOnly]

/-- Settles O30: the answer is the group's. -/
theorem commitRequestsAreAnsweredByTheGroup : Obligations.CommitRequestsAreAnsweredByTheGroup := by
  refine ⟨fun s hpowered hdevice => ?_, fun s hpowered hdevice =>
    ⟨fun kind hgroup hwaiting => ?_, fun code hgroup => ?_⟩⟩
  · have hsame : takeCmt s = s := by
      rw [takeCmt]
      split
      next h => exact absurd h hdevice
      all_goals rfl
    rw [exec, execCmt, whenPowered_powered hpowered, hsame]
  · rcases hgroup with ⟨hstate, rfl⟩ | ⟨hstate, hstaged, rfl⟩
    · exact exec_commit_started hpowered hdevice (by simp only [commitAnswer, hstate]) hwaiting
    · refine exec_commit_started hpowered hdevice ?_ hwaiting
      simp only [commitAnswer, hstate, if_pos (Option.isSome_iff_ne_none.mpr hstaged)]
  · rcases hgroup with ⟨hstate, hstaged, rfl⟩ | ⟨hstate, rfl⟩ | ⟨⟨phase, hstate⟩, rfl⟩
    · refine exec_commit_refused (why := .noGroup) hpowered hdevice ?_
      rw [commitAnswer, hstate, hstaged]
      rfl
    · exact exec_commit_refused (why := .groupFailed) hpowered hdevice (by simp only [commitAnswer, hstate])
    · exact exec_commit_refused (why := .busy) hpowered hdevice (by simp only [commitAnswer, hstate])

/-! ### The starts of a mount and a format (R98, R106) -/

/-- Neither start is due while a fill runs or an access is in flight. -/
theorem startMount_of_busy (h : s.group.running ≠ none ∨ s.port.flight ≠ none) : startMount s = s := by
  rw [startMount]
  split
  next hrunning hflight => exact (h.elim (absurd hrunning) (absurd hflight))
  next => rfl

theorem startFormatWrites_of_busy (h : s.group.running ≠ none ∨ s.port.flight ≠ none) : startFormatWrites s = s := by
  rw [startFormatWrites]
  split
  next hrunning hflight => exact (h.elim (absurd hrunning) (absurd hflight))
  next => rfl

/-- Settles O31. -/
theorem mountAndFormatStartAtAnIdlePort : Obligations.MountAndFormatStartAtAnIdlePort := by
  refine ⟨fun s hpowered hbusy => ?busy, fun s hpowered => ?notDue, fun s hpowered hrunning hflight => ?due⟩
  all_goals simp only [exec, execMountStart, execFormatWritesStart, whenPowered_powered hpowered]
  case busy => exact ⟨by rw [startMount_of_busy hbusy], by rw [startFormatWrites_of_busy hbusy]⟩
  case notDue =>
    refine ⟨fun hnot => congrArg _ ?_, fun hnot => congrArg _ ?_⟩
    · rw [startMount]
      split
      next hdevice hrun _ _ => exact hnot.elim (absurd hdevice) (absurd hrun)
      next => rfl
    · rw [startFormatWrites]
      split
      next f hdevice hformat _ _ =>
        split
        next hstep => exact hnot.elim (absurd hdevice) fun h => absurd hstep (h f hformat)
        next => rfl
      next => rfl
  case due =>
    refine ⟨fun hdevice hrun => congrArg _ ?_, fun f hdevice hformat hstep => congrArg _ ?_⟩
    · simp only [startMount, hdevice, hrun, hrunning, hflight, readSlotWord_eq]
      rfl
    · have hstart : startFormatWrites s = arbitrate (requestFormat f .retireA s) := by
        simp only [startFormatWrites, hdevice, hformat, hrunning, hflight, hstep]
      rw [hstart]
      rfl

end

end Sys2Proof.Proofs
end

