-- ==== Sys2Proof/Proofs/AbortStatements.lean ====
section
/-! PROOFS. The statements of the deadline's expiry, of ABORT and of a cancelled commit: the group given back, and what
becomes of the access in service (R17, R47 to R49, R52, R66). -/

namespace Sys2Proof.Proofs

open Sys2Proof.Machine Sys2Proof.Claims

section
variable {s base : State} {g : Geometry} {a : Access}

/-! ### The group given back (R47, R66) -/

theorem dissolveGroup_cancelCommit (s : State) : dissolveGroup (cancelCommit s) = cancelled s := by
  cases hrunning : s.group.running with
  | none =>
    simp only [cancelCommit, hrunning]
    simp only [cancelled, hrunning, if_true]
    rfl
  | some f =>
    simp only [cancelCommit, hrunning]
    simp only [cancelled, hrunning, reduceCtorEq, if_false]
    rfl

theorem cancelled_hostReq (s : State) : (cancelled s).port.hostReq = s.port.hostReq := by
  simp only [cancelled]
  split <;> rfl

/-- The group of `s` has been given back, and what routes and classifies the access in service is as it was. -/
structure GivenBack (s base : State) : Prop where
  powered : base.supply.powered = s.supply.powered
  host : base.host = s.host
  request : base.port.hostReq = s.port.hostReq
  device : base.mount.device = s.mount.device
  xlate : base.xlate = s.xlate
  guards : base.guards = s.guards
  idle : base.group.state = .idle

theorem GivenBack.aborted (s : State) (kind : EventKind) (detail : Option Byte) :
    GivenBack s (post kind none none detail (abortedGroup s)) :=
  ⟨rfl, rfl, rfl, rfl, rfl, rfl, rfl⟩

theorem GivenBack.cancelled (s : State) (kind : EventKind) (detail : Option Byte) :
    GivenBack s (post kind none none detail (Claims.cancelled s)) :=
  ⟨rfl, rfl, cancelled_hostReq s, rfl, rfl, rfl, rfl⟩

/-- The deadline has expired: the group goes, with its event (R52). -/
theorem exec_deadlineAbort (hpowered : Powered s) (hdevice : s.mount.device = .ready)
    (hstate : s.group.state = .opened ∨ s.group.state = .failed) (hdeadline : s.group.deadline = some 0) :
    exec .deadlineAbort s =
      .next (arbitrate (reroute s.group.table s.group.waiting.isSome
        (post .deadlineAbort none none none (abortedGroup s)))) := by
  rw [exec, execDeadlineAbort, whenPowered_powered hpowered]
  rcases hstate with hstate | hstate <;>
    simp only [expire, hdevice, hdeadline, hstate, abortGroup, dissolveGroup_eq_abortedGroup]

/-- ABORT of an OPEN or FAILED group (R47, R49). -/
theorem exec_abort_group (hpowered : Powered s) (hawaits : AwaitsCode s) (hdevice : s.mount.device = .ready)
    (hstate : s.group.state = .opened ∨ s.group.state = .failed) :
    exec .abort s =
      .next (abortAnswered s (arbitrate (reroute s.group.table s.group.waiting.isSome
        (abortTold s (abortedGroup s))))) := by
  rw [exec, execAbort, whenPowered_takeCommand_of_awaitsCode hpowered hawaits]
  rcases hstate with hstate | hstate <;>
    (simp only [takeAbort, onVolume, volumeRefusal, hdevice, hstate, okWith, abortGroup,
      dissolveGroup_eq_abortedGroup]
     rfl)

/-- ABORT of a commit in COMPLETE cancels it (R49, R66). -/
theorem exec_abort_commit (hpowered : Powered s) (hawaits : AwaitsCode s) (hdevice : s.mount.device = .ready)
    (hstate : s.group.state = .committing .complete) :
    exec .abort s =
      .next (abortAnswered s (arbitrate (reroute s.group.table s.group.waiting.isSome
        (abortTold s (cancelled s))))) := by
  have hgroup : (cancelCommit s).group = s.group := by
    rw [cancelCommit]
    split <;> rfl
  rw [exec, execAbort, whenPowered_takeCommand_of_awaitsCode hpowered hawaits]
  simp only [takeAbort, onVolume, volumeRefusal, hdevice, hstate, okWith, abortGroup, dissolveGroup_cancelCommit,
    hgroup]
  rfl

/-! ### An access in service that loses nothing (R48) -/

theorem reroute_of_unaffected (h : Unaffected s) (hback : GivenBack s base) :
    reroute s.group.table s.group.waiting.isSome base = base := by
  cases haccess : s.host.access with
  | none => simp only [reroute, hback.host, haccess]
  | some a =>
    rcases h a haccess with ⟨hhold, hrouting⟩ | ⟨hhold, hwaiting⟩
    · cases hreq : s.port.hostReq with
      | none => simp only [reroute, hback.host, haccess, hhold, hback.request, hreq]
      | some q =>
        simp only [reroute, hback.host, haccess, hhold, hback.request, hreq]
        refine if_neg fun ⟨hcls, hshadow⟩ => ?_
        obtain ⟨e, he, hframe⟩ := isShadow_iff.mp hshadow
        exact hrouting.elim (absurd hcls) fun h => h q hreq e he hframe
    · simp only [reroute, hback.host, haccess, hhold, hwaiting]
      rfl

/-- Settles O33. -/
theorem abortGivesTheGroupBack : Obligations.AbortGivesTheGroupBack := by
  refine ⟨fun s hpowered hnot => ?notDue, fun s hpowered hdevice => ⟨fun hunaffected =>
    ⟨fun hstate => ⟨fun hdeadline => ?expiry, fun hawaits => ?abort⟩, fun hstate hawaits => ?cancel⟩,
    fun hawaits => ⟨fun hstate => ?idle, fun hstate => ?late⟩⟩⟩
  case notDue =>
    have hsame : expire s = s := by
      rw [expire]
      split
      next hdevice hdeadline hstate =>
        exact hnot.elim (absurd hdevice) fun h => h.elim (absurd hdeadline) fun ⟨hopened, _⟩ => absurd hstate hopened
      next hdevice hdeadline hstate =>
        exact hnot.elim (absurd hdevice) fun h => h.elim (absurd hdeadline) fun ⟨_, hfailed⟩ => absurd hstate hfailed
      next => rfl
    rw [exec, execDeadlineAbort, whenPowered_powered hpowered, hsame]
  case expiry =>
    rw [exec_deadlineAbort hpowered hdevice hstate hdeadline, reroute_of_unaffected hunaffected (.aborted s _ _)]
  case abort =>
    rw [exec_abort_group hpowered hawaits hdevice hstate,
      reroute_of_unaffected (base := abortTold s (abortedGroup s)) hunaffected (.aborted s _ _)]
  case cancel =>
    rw [exec_abort_commit hpowered hawaits hdevice hstate,
      reroute_of_unaffected (base := abortTold s (cancelled s)) hunaffected (.cancelled s _ _)]
  case idle =>
    rw [exec, execAbort, whenPowered_takeCommand_of_awaitsCode hpowered hawaits]
    simp only [takeAbort, onVolume, volumeRefusal, hdevice, hstate, resultOnly, Result.code]
  case late =>
    rw [exec, execAbort, whenPowered_takeCommand_of_awaitsCode hpowered hawaits]
    rcases hstate with hstate | hstate | hstate <;>
      simp only [takeAbort, onVolume, volumeRefusal, hdevice, hstate, resultOnly, Result.code]

/-! ### An access in service routed afresh (R17, R48) -/

/-- An atomic access taken afresh is atomic again, and goes to the Group Controller. -/
theorem serveAccess_of_place (hplace : AtomicPlace base g a.address (a.kind == .write)) (hcls : a.cls = .atomic)
    (hlanes : a.lanes.isEmpty = false) : serveAccess a base = serveAtomic a base := by
  have hkind : accessKind (a.kind == .write) = a.kind := by cases a.kind <;> rfl
  have hclass : classify base (pageOf a.address) a.kind = .atomic := by
    rw [← hkind]
    exact classify_atomic hplace
  have hself : ({ a with cls := .atomic } : Access) = a := by rw [← hcls]
  rw [serveAccess, hclass, hself, serveClass_of_atomic hcls hlanes]

section
variable (hback : GivenBack s base)
include hback

theorem GivenBack.place (hplace : AtomicPlace s g a.address (a.kind == .write)) :
    AtomicPlace (withdrawHost base) g a.address (a.kind == .write) := by
  obtain ⟨⟨hdevice, hg⟩, hlow, hhigh, hguard⟩ := hplace
  refine ⟨⟨hback.device.trans hdevice, ?_⟩, hlow, hhigh, ?_⟩
  · show base.xlate.geometry = some g
    rw [hback.xlate, hg]
  · show ¬ Refuses base.guards.current _ _
    rw [hback.guards]
    exact hguard

/-- A held access with no word asked for has no request to withdraw. -/
theorem GivenBack.withdrawHost_eq (hrequest : s.port.hostReq = none) : withdrawHost base = base := by
  rw [withdrawHost, ← hback.request.trans hrequest]

/-- The access waits for a word in a shadow frame: its request is withdrawn and it is routed again. -/
theorem GivenBack.reroute_of_shadow {table : List Entry} {waited : Bool} {q : Request}
    (haccess : s.host.access = some a) (hcls : a.cls = .atomic) (hhold : s.host.hold = .none)
    (hrequest : s.port.hostReq = some q)
    (hshadow : ∃ e ∈ table, e.shadow = pageNo q.address) :
    reroute table waited base = serveAtomic a (withdrawHost base) := by
  simp only [reroute, hback.host, haccess, hhold, hback.request, hrequest]
  exact if_pos ⟨hcls, isShadow_iff.mpr hshadow⟩

/-- A write that loses its routing is served again in its class. -/
theorem GivenBack.reroute_write {waited : Bool} (hplace : AtomicPlace s g a.address (a.kind == .write))
    (haccess : s.host.access = some a) (hcls : a.cls = .atomic) (hlanes : a.lanes.isEmpty = false)
    (hkind : a.kind = .write)
    (hlost : (s.host.hold = .lineFill ∧ waited = true ∧ s.port.hostReq = none) ∨
      (s.host.hold = .none ∧ ∃ q, s.port.hostReq = some q ∧ ∃ e ∈ s.group.table, e.shadow = pageNo q.address) ∨
      (s.host.hold = .commitHold ∧ s.port.hostReq = none)) :
    reroute s.group.table waited base = serveAccess a (withdrawHost base) := by
  have hserve := serveAccess_of_place (hback.place hplace) hcls hlanes
  rcases hlost with ⟨hhold, rfl, hrequest⟩ | ⟨hhold, q, hrequest, hshadow⟩ | ⟨hhold, hrequest⟩
  · rw [hserve, hback.withdrawHost_eq hrequest]
    simp only [reroute, serveAtomic, hback.host, haccess, hhold, hkind, if_true]
  · rw [hserve, hback.reroute_of_shadow haccess hcls hhold hrequest hshadow]
  · rw [hback.withdrawHost_eq hrequest]
    simp only [reroute, hback.host, haccess, hhold]

/-- A read goes to the committed frame of its page: the group is IDLE. -/
theorem GivenBack.serveAtomic_read (hplace : AtomicPlace s g a.address (a.kind == .write))
    (haccess : s.host.access = some a) (hhold : s.host.hold = .none) (hkind : a.kind = .read) :
    serveAtomic a (withdrawHost base) =
      { base with port := { base.port with
        hostReq := some (hostWord (inFrame (committed g s (pageNo a.address)) a.address) a) } } := by
  obtain ⟨⟨-, hg⟩, -⟩ := hback.place hplace
  have hframe : readFrame (withdrawHost base) (pageOf a.address) (lineOf a.address) =
      committed g s (pageNo a.address) := by
    have hidle : (withdrawHost base).group.state = .idle := hback.idle
    simp only [readFrame, hidle]
    rw [committedFrame_eq hg]
    simp only [committed, ← hback.xlate]
    rfl
  have hhost : ({ base.host with hold := .none } : HostPath) = base.host := by
    rw [← hhold, ← hback.host]
  have haccess' : (withdrawHost base).host.access = some a := (congrArg HostPath.access hback.host).trans haccess
  simp only [serveAtomic, hkind, routeRead]
  rw [hframe, requestHost_eq haccess']
  show ({ base with host := { base.host with hold := .none }, port := _ } : State) = _
  rw [hhost]
  rfl

/-- What the statement calls rerouted is the model's `reroute` from the state with the group given back. -/
theorem GivenBack.rerouted (hpowered : Powered s) (hplace : AtomicPlace s g a.address (a.kind == .write))
    (haccess : s.host.access = some a) (hcls : a.cls = .atomic) (hlanes : a.lanes.isEmpty = false) :
    Rerouted s a g base (arbitrate (reroute s.group.table s.group.waiting.isSome base)) := by
  refine ⟨fun w hkind hdata htaken hlost => ?write, fun q hkind hhold hrequest hshadow => ?read,
    fun hhold hwaiting => ?fill, fun hhold hrequest => ?granted⟩
  case write =>
    have hpowered' : Powered (withdrawHost base) := hback.powered.trans hpowered
    have htaken' : (withdrawHost base).host.cycleTaken = true :=
      (congrArg HostPath.cycleTaken hback.host).trans htaken
    rw [Option.ne_none_iff_isSome] at hlost
    rw [hback.reroute_write hplace haccess hcls hlanes hkind hlost, ← exec_retake hpowered' htaken' hkind hdata,
      ← hback.host]
    rfl
  case read =>
    rw [hback.reroute_of_shadow haccess hcls hhold hrequest hshadow, hback.serveAtomic_read hplace haccess hhold hkind]
  case fill =>
    simp only [reroute, hback.host, haccess, hhold, hwaiting]
    rfl
  case granted =>
    simp only [reroute, hback.host, haccess, hhold, hback.request, hrequest]

end

/-- Settles O34. -/
theorem abortRoutesTheAccessAfresh : Obligations.AbortRoutesTheAccessAfresh := by
  intro s a g hpowered hplace haccess hcls hlanes
  have hdevice : s.mount.device = .ready := by
    obtain ⟨⟨hdevice, -⟩, -⟩ := hplace
    exact hdevice
  have hrerouted : ∀ base, GivenBack s base →
      Rerouted s a g base (arbitrate (reroute s.group.table s.group.waiting.isSome base)) := fun base hback =>
    hback.rerouted hpowered hplace haccess hcls (isEmpty_of_enabled hlanes)
  refine ⟨fun hstate => ⟨fun hdeadline => ?_, fun hawaits => ?_⟩, fun hstate hawaits => ?_⟩
  · exact ⟨_, exec_deadlineAbort hpowered hdevice hstate hdeadline, hrerouted _ (.aborted s _ _)⟩
  · exact ⟨_, exec_abort_group hpowered hawaits hdevice hstate, hrerouted _ (.aborted s _ _)⟩
  · exact ⟨_, exec_abort_commit hpowered hawaits hdevice hstate, hrerouted _ (.cancelled s _ _)⟩

end

end Sys2Proof.Proofs
end

