-- ==== Sys2Proof/Proofs/FramerStatements.lean ====
section
/-! PROOFS. The statements of the framer: the edges of SCS#, the bytes that arrive, and the commands that the device
state turns away (R134, R137 to R140, R143, Tables 10-2 and 12-2). -/

namespace Sys2Proof.Proofs

open Sys2Proof.Machine Sys2Proof.Claims

section
variable {s : State} {c : Instr} {code last : Byte} {count : Nat}

/-! ### The commands of Table 12-2 -/

/-- A command without arguments is the take that its code names. -/
theorem exec_short (h : (c, code) ∈ shortCommands) (s : State) :
    exec c s = whenPowered s (takeCommand code 0 none (takeOf code)) ∧ argumentCount code = some 0 := by
  simp only [shortCommands, List.mem_cons, Prod.mk.injEq, List.not_mem_nil, or_false] at h
  rcases h with ⟨rfl, rfl⟩ | ⟨rfl, rfl⟩ | ⟨rfl, rfl⟩ | ⟨rfl, rfl⟩ | ⟨rfl, rfl⟩ | ⟨rfl, rfl⟩ | ⟨rfl, rfl⟩ <;>
    exact ⟨rfl, rfl⟩

/-- A command with arguments is the take that its code names, with its last argument byte. -/
theorem exec_long (h : (c, code, count) ∈ longCommands last) (s : State) :
    exec c s = whenPowered s (takeCommand code count (some last) (takeOf code)) ∧ argumentCount code = some count ∧
      count ≠ 0 := by
  simp only [longCommands, List.mem_cons, Prod.mk.injEq, List.not_mem_nil, or_false] at h
  rcases h with ⟨rfl, rfl, rfl⟩ | ⟨rfl, rfl, rfl⟩ | ⟨rfl, rfl, rfl⟩ | ⟨rfl, rfl, rfl⟩ | ⟨rfl, rfl, rfl⟩ |
      ⟨rfl, rfl, rfl⟩ | ⟨rfl, rfl, rfl⟩ <;>
    exact ⟨rfl, rfl, by decide⟩

theorem awaits_code_iff (s : State) (code : Byte) :
    (portAnswers s && s.framer.awaits code 0) = true ↔ AwaitsCode s := by
  simp [portAnswers, Framer.awaits]

theorem awaits_last_iff (s : State) (code : Byte) (hcount : count ≠ 0) :
    (portAnswers s && s.framer.awaits code count) = true ↔ AwaitsLast s code count := by
  simp [portAnswers, Framer.awaits, hcount, and_assoc]

/-! ### Frames (R137 to R140) -/

/-- A code that names no command is answered BAD_CMD. -/
theorem takeBadCmd_of_awaitsCode (hcode : argumentCount code = none) (hawaits : AwaitsCode s) :
    takeBadCmd code s = answered code [0x0F] s := by
  obtain ⟨hdevice, hframe⟩ := hawaits
  rw [takeBadCmd, if_pos (by simp [portAnswers, hdevice, hframe, hcode])]
  rfl

theorem takeBadCmd_of_not (h : argumentCount code ≠ none ∨ ¬ AwaitsCode s) : takeBadCmd code s = s := by
  refine if_neg fun hdue => ?_
  simp only [portAnswers, Bool.and_eq_true, bne_iff_ne, beq_iff_eq] at hdue
  obtain ⟨⟨hdevice, hframe⟩, hcode⟩ := hdue
  exact h.elim (absurd hcode) (absurd ⟨hdevice, hframe⟩)

theorem badCmd_wellFormed_iff (code : Byte) : (Instr.badCmd code).wellFormed = true ↔ argumentCount code = none := by
  rw [Instr.wellFormed, Bool.not_eq_true', ← Bool.not_eq_true, namesCommand_iff, not_not]

/-- Settles O35. -/
theorem framesBeginEndAndTurnAwayBadCodes : Obligations.FramesBeginEndAndTurnAwayBadCodes := by
  intro s hpowered
  simp only [exec, execFrameBegin, execFrameEnd, execBadCmd, execByteArrives, whenPowered_powered hpowered]
  refine ⟨fun hdevice hhigh => ?begins, fun hdevice hhigh => ?held, fun hlow => ?low, fun code hnot => ?notDue, rfl,
    fun code hcode hawaits => ?badCmd⟩
  case begins =>
    rw [beginFrame, hhigh, if_neg (by decide)]
    split
    next h => exact absurd h hdevice
    all_goals rfl
  case held =>
    rw [beginFrame, hhigh, if_neg (by decide), hdevice]
  case low => rw [beginFrame, if_pos hlow]
  case notDue =>
    rw [takeBadCmd_of_not]
    refine hnot.imp_left fun h => ?_
    rw [ne_eq, ← badCmd_wellFormed_iff, h]
    decide
  case badCmd =>
    have hnone := (badCmd_wellFormed_iff code).mp hcode
    have harrives : arriveByte code s = takeBadCmd code s := by
      obtain ⟨hdevice, hframe⟩ := hawaits
      have hanswers : portAnswers s = true := by simp [portAnswers, hdevice]
      simp only [arriveByte, hanswers, if_true, hframe, commandByte, hnone]
    rw [harrives, takeBadCmd_of_awaitsCode hnone hawaits]
    exact ⟨rfl, rfl⟩

/-! ### Bytes (R137 to R139) -/

theorem arriveByte_of_resetHeld (hdevice : s.mount.device = .resetHeld) (b : Byte) : arriveByte b s = s :=
  if_neg (by simp [portAnswers, hdevice])

/-- Outside RESET_HELD a byte does what the framer's state makes of it. -/
theorem arriveByte_of_answers (hdevice : s.mount.device ≠ .resetHeld) (b : Byte) :
    (s.framer.state = .command → arriveByte b s = commandByte b s) ∧
    (s.framer.state = .arguments → arriveByte b s = argumentByte b s) ∧
    (s.framer.state = .response → arriveByte b s = responseByte s) ∧
    (s.framer.state = .outside ∨ s.framer.state = .spent → arriveByte b s = s) := by
  have hanswers : portAnswers s = true := by simp [portAnswers, hdevice]
  refine ⟨fun h => ?_, fun h => ?_, fun h => ?_, fun h => ?_⟩
  · simp only [arriveByte, hanswers, if_true, h]
  · simp only [arriveByte, hanswers, if_true, h]
  · simp only [arriveByte, hanswers, if_true, h]
  · rcases h with h | h <;> simp only [arriveByte, hanswers, if_true, h]

theorem responseByte_of_response (hstate : s.framer.state = .response) :
    responseByte s =
      { s with framer := { s.framer with
        next := s.framer.next + 1
        state := if s.framer.next + 1 < s.framer.response.length then .response else .spent } } := by
  rw [responseByte]
  split
  · rw [← hstate]
  · rfl

/-- Settles O36. -/
theorem byteArrivesDrivesTheFramer : Obligations.ByteArrivesDrivesTheFramer := by
  refine ⟨fun s hpowered => ⟨fun hdevice b => ?held, fun c code hc hnot => ?shortNot,
    fun c code count last hc hnot => ?longNot⟩, fun s b hpowered hdevice => ?answers⟩
  case held =>
    rw [exec, execByteArrives, whenPowered_powered hpowered, arriveByte_of_resetHeld hdevice]
  case shortNot =>
    obtain ⟨hexec, -⟩ := exec_short hc s
    rw [hexec, whenPowered_powered hpowered, takeCommand, if_neg (mt (awaits_code_iff s code).mp hnot)]
  case longNot =>
    obtain ⟨hexec, -, hcount⟩ := exec_long hc s
    rw [hexec, whenPowered_powered hpowered, takeCommand, if_neg (mt (awaits_last_iff s code hcount).mp hnot)]
  case answers =>
    obtain ⟨hcommand, harguments, hresponse, hidle⟩ := arriveByte_of_answers hdevice b
    rw [exec, execByteArrives, whenPowered_powered hpowered]
    refine ⟨fun c hc hstate => ?shortCode, fun c count last hc hstate => ?longCode, fun c code count hc hstate hcode =>
      ⟨fun hmore => ?collected, fun hlast => ?taken⟩, fun hstate => ?shifted, fun hstate => by rw [hidle hstate]⟩
    case shortCode =>
      obtain ⟨hexec, hcount⟩ := exec_short hc s
      simp only [hexec, whenPowered_powered hpowered, hcommand hstate, commandByte, hcount]
    case longCode =>
      obtain ⟨-, hcount, hpos⟩ := exec_long hc s
      obtain ⟨n, rfl⟩ := Nat.exists_eq_succ_of_ne_zero hpos
      simp only [hcommand hstate, commandByte, hcount]
    case collected =>
      obtain ⟨-, hcount, -⟩ := exec_long hc s
      simp only [harguments hstate, argumentByte, hcode, hcount, if_pos hmore]
    case taken =>
      obtain ⟨hexec, hcount, -⟩ := exec_long hc s
      rw [hexec, whenPowered_powered hpowered]
      simp only [harguments hstate, argumentByte, hcode, hcount, if_neg (Nat.not_lt.mpr hlast.ge)]
    case shifted =>
      rw [hresponse hstate, responseByte_of_response hstate]

/-! ### Commands turned away by the device state (R143, Table 10-2) -/

theorem onVolume_of_busy (h : BusyDevice s) (serve : State → List Byte × State) : onVolume serve s = ([0x01], s) := by
  rcases h with h | h | h <;> simp only [onVolume, volumeRefusal, h, resultOnly, Result.code]

theorem onVolume_of_raw (h : RawDevice s) (serve : State → List Byte × State) : onVolume serve s = ([0x02], s) := by
  rcases h with h | h <;> simp only [onVolume, volumeRefusal, h, resultOnly, Result.code]

/-- The codes of the commands that READY alone serves. -/
def volumeCodes : List Byte := [0x20, 0x21, 0x22, 0x23, 0x30, 0x31, 0x32]

/-- Their takes are served through `onVolume`. -/
theorem takeOf_eq_onVolume (h : code ∈ volumeCodes) :
    ∃ serve : List Byte → State → List Byte × State, takeOf code = fun args => onVolume (serve args) := by
  simp only [volumeCodes, List.mem_cons, List.not_mem_nil, or_false] at h
  rcases h with rfl | rfl | rfl | rfl | rfl | rfl | rfl
  · exact ⟨_, (rfl : takeOf 0x20 = takeCommit)⟩
  · exact ⟨_, (rfl : takeOf 0x21 = takeAbort)⟩
  · exact ⟨_, (rfl : takeOf 0x22 = takeGroupList)⟩
  · exact ⟨_, (rfl : takeOf 0x23 = takeMapQuery)⟩
  · exact ⟨_, (rfl : takeOf 0x30 = takeGuardRead)⟩
  · exact ⟨_, (rfl : takeOf 0x31 = takeGuardStage)⟩
  · exact ⟨_, (rfl : takeOf 0x32 = takeGuardDiscard)⟩

theorem takeOf_of_raw (hcode : code ∈ volumeCodes) (h : RawDevice s) (args : List Byte) :
    takeOf code args s = ([0x02], s) := by
  obtain ⟨serve, hserve⟩ := takeOf_eq_onVolume hcode
  have happly : takeOf code args = onVolume (serve args) := congrFun hserve args
  rw [happly, onVolume_of_raw h]

/-- CONFIG_WRITE, FORMAT and REMOUNT test the device state themselves. -/
theorem takeOf_of_busy (hcode : code ∈ volumeCodes ∨ code = 0x03 ∨ code = 0x40 ∨ code = 0x41) (h : BusyDevice s)
    (args : List Byte) : takeOf code args s = ([0x01], s) := by
  rcases hcode with hcode | rfl | rfl | rfl
  · obtain ⟨serve, hserve⟩ := takeOf_eq_onVolume hcode
    have happly : takeOf code args = onVolume (serve args) := congrFun hserve args
    rw [happly, onVolume_of_busy h]
  · have htake : takeOf 0x03 = takeConfigWrite := rfl
    rcases h with h | h | h <;> simp only [htake, takeConfigWrite, h, resultOnly, Result.code]
  · have htake : takeOf 0x40 = takeFormat := rfl
    rcases h with h | h | h <;> simp only [htake, takeFormat, h, resultOnly, Result.code]
  · have htake : takeOf 0x41 = takeRemount := rfl
    rcases h with h | h | h <;> simp only [htake, takeRemount, h, resultOnly, Result.code]

/-- The commands without arguments but STATUS, CONFIG_READ and EVENT_POP. -/
theorem shortCommands_cases (hc : (c, code) ∈ shortCommands) (hstatus : c ≠ .status) (hread : c ≠ .configRead)
    (hpop : c ≠ .eventPop) : code ∈ volumeCodes ∨ (c = .remount ∧ code = 0x41) := by
  simp only [shortCommands, List.mem_cons, Prod.mk.injEq, List.not_mem_nil, or_false] at hc
  rcases hc with ⟨rfl, rfl⟩ | ⟨rfl, rfl⟩ | ⟨rfl, rfl⟩ | ⟨rfl, rfl⟩ | ⟨rfl, rfl⟩ | ⟨rfl, rfl⟩ | ⟨rfl, rfl⟩
  · exact absurd rfl hstatus
  · exact absurd rfl hread
  · exact absurd rfl hpop
  · exact .inl (by decide)
  · exact .inl (by decide)
  · exact .inl (by decide)
  · exact .inr ⟨rfl, rfl⟩

/-- The commands with arguments but EVENT_ACK. -/
theorem longCommands_cases (hc : (c, code, count) ∈ longCommands last) (hack : c ≠ .eventAck last) :
    code ∈ volumeCodes ∨ (c = .configWrite last ∧ code = 0x03) ∨ (c = .format last ∧ code = 0x40) := by
  simp only [longCommands, List.mem_cons, Prod.mk.injEq, List.not_mem_nil, or_false] at hc
  rcases hc with ⟨rfl, rfl, rfl⟩ | ⟨rfl, rfl, rfl⟩ | ⟨rfl, rfl, rfl⟩ | ⟨rfl, rfl, rfl⟩ | ⟨rfl, rfl, rfl⟩ |
    ⟨rfl, rfl, rfl⟩ | ⟨rfl, rfl, rfl⟩
  · exact .inr (.inl ⟨rfl, rfl⟩)
  · exact absurd rfl hack
  · exact .inl (by decide)
  · exact .inl (by decide)
  · exact .inl (by decide)
  · exact .inl (by decide)
  · exact .inr (.inr ⟨rfl, rfl⟩)

/-- A command that the device state turns away: the take answers one code and leaves the state. -/
theorem exec_short_turned_away {result : Byte} (hpowered : Powered s) (hc : (c, code) ∈ shortCommands)
    (hawaits : AwaitsCode s) (htake : takeOf code [] s = ([result], s)) :
    exec c s = .next (answered code [result] s) := by
  obtain ⟨hexec, -⟩ := exec_short hc s
  rw [hexec, whenPowered_takeCommand_of_awaitsCode hpowered hawaits, htake]

theorem exec_long_turned_away {result : Byte} (hpowered : Powered s) (hc : (c, code, count) ∈ longCommands last)
    (hawaits : AwaitsLast s code count) (htake : takeOf code (s.framer.args ++ [last]) s = ([result], s)) :
    exec c s = .next (answeredArgs s.framer code last [result] s) := by
  obtain ⟨hexec, -⟩ := exec_long hc s
  rw [hexec, whenPowered_takeCommand_of_awaitsLast hpowered hawaits (by rw [htake]), htake]

/-- Settles O45. -/
theorem volumeCommandsAreTurnedAwayByTheDeviceState : Obligations.VolumeCommandsAreTurnedAwayByTheDeviceState := by
  intro s hpowered
  refine ⟨fun c code hc hawaits hstatus hread hpop => ?short, fun c code count last hc hawaits hack => ?long⟩
  case short =>
    have hcases := shortCommands_cases hc hstatus hread hpop
    refine ⟨fun hbusy => ?_, fun hraw hremount => ?_⟩
    · exact exec_short_turned_away hpowered hc hawaits
        (takeOf_of_busy (hcases.imp_right fun ⟨_, hcode⟩ => .inr (.inr hcode)) hbusy _)
    · exact exec_short_turned_away hpowered hc hawaits
        (takeOf_of_raw (hcases.resolve_right fun ⟨hc, _⟩ => hremount hc) hraw _)
  case long =>
    have hcases := longCommands_cases hc hack
    refine ⟨fun hbusy => ?_, fun hraw hwrite hformat => ?_⟩
    · exact exec_long_turned_away hpowered hc hawaits
        (takeOf_of_busy (hcases.imp_right fun h => h.imp (fun ⟨_, hcode⟩ => hcode) fun ⟨_, hcode⟩ => .inl hcode) hbusy
          _)
    · exact exec_long_turned_away hpowered hc hawaits
        (takeOf_of_raw
          (hcases.resolve_right fun h => h.elim (fun ⟨hc, _⟩ => hwrite hc) fun ⟨hc, _⟩ => hformat hc) hraw _)

end

end Sys2Proof.Proofs
end

