-- ==== Sys2Proof/Proofs/PortStatements.lean ====
section
/-! PROOFS. The statements of what the management port's commands answer and do: STATUS and the configuration (R144 to
R146), the group and the map (R148, R149), the guards (R118 to R120), FORMAT and REMOUNT (R104, R105, R109, R110). -/

namespace Sys2Proof.Proofs

open Sys2Proof.Machine Sys2Proof.Claims

section
variable {s : State} {g : Geometry}

/-! ### Numbers as bytes (R159) -/

theorem bytes32_eq (w : BitVec 32) :
    bytes32 w = [(w >>> 24).setWidth 8, (w >>> 16).setWidth 8, (w >>> 8).setWidth 8, w.setWidth 8] := by
  have hbyte : ∀ k : Nat, ((w >>> k).setWidth 8).toNat = w.toNat / 2 ^ k % 256 := by
    intro k
    rw [BitVec.toNat_setWidth, BitVec.toNat_ushiftRight, Nat.shiftRight_eq_div_pow]
  simp only [bytes32, bytes16, highByte, lowByte, List.cons_append, List.nil_append, List.cons.injEq, and_true]
  refine ⟨?_, ?_, ?_, ?_⟩ <;> apply BitVec.eq_of_toNat_eq <;>
    simp only [hbyte, BitVec.toNat_setWidth, BitVec.toNat_ushiftRight, Nat.shiftRight_eq_div_pow] <;> omega

/-- Two bytes as a number, most significant first. -/
theorem toNat_append_bytes (hi lo : Byte) : (hi ++ lo : Word16).toNat = 256 * hi.toNat + lo.toNat := by
  rw [BitVec.toNat_append, ← Nat.shiftLeft_add_eq_or_of_lt lo.isLt, Nat.shiftLeft_eq]
  omega

/-! ### STATUS (R144) -/

/-- The 23 bytes one by one. -/
theorem statusData_eq (s : State) :
    statusData s =
      [s.mount.device.code, reasonCode s.mount.reason, causeCode s.mount.cause, s.group.state.code,
        s.group.state.phaseCode, num8 s.group.table.length, BitVec.ofNat 8 (s.pool.length / 256),
        BitVec.ofNat 8 s.pool.length, (s.xlate.generation >>> 24).setWidth 8, (s.xlate.generation >>> 16).setWidth 8,
        (s.xlate.generation >>> 8).setWidth 8, s.xlate.generation.setWidth 8, slotCode s.xlate.activeSlot,
        if s.guards.staged.isSome then 0x01 else 0x00, classByte s.events.latches, num8 s.events.queue.length,
        num8 s.geometry.sizeCode, BitVec.ofNat 8 (s.geometry.d / 256), BitVec.ofNat 8 s.geometry.d,
        BitVec.ofNat 8 (s.geometry.p / 256), BitVec.ofNat 8 s.geometry.p, (s.events.tick >>> 8).setWidth 8,
        s.events.tick.setWidth 8] := by
  rw [statusData, bytes16_num16, bytes16_num16, bytes16_num16, bytes32_eq]
  rfl

/-- Settles O37: each byte is the code of its item. -/
theorem statusReportsOnePicture : Obligations.StatusReportsOnePicture := by
  intro s hpowered hawaits
  refine ⟨statusData s, ?taken, ?_⟩
  case taken =>
    rw [exec, execStatus, whenPowered_takeCommand_of_awaitsCode hpowered hawaits]
    rfl
  rw [statusData_eq]
  refine ⟨rfl, congrArg some (deviceByte_eq_code _).symm, congrArg some ?reason, congrArg some ?cause,
    congrArg some ?group, congrArg some ?phase, rfl, rfl, rfl, rfl, rfl, rfl, rfl, congrArg some ?slot,
    congrArg some ?staged, rfl, rfl, fun g hg => ?geometry, fun hg i hlow hhigh => ?noGeometry, rfl, rfl⟩
  case reason => rcases s.mount.reason with _ | _ | _ <;> rfl
  case cause => rcases s.mount.cause with _ | _ | _ | _ | _ <;> rfl
  case group => cases s.group.state <;> rfl
  case phase => rcases s.group.state with _ | _ | _ | _ | _ | _ | _ <;> rfl
  case slot => rcases s.xlate.activeSlot with _ | _ | _ <;> rfl
  case staged => cases s.guards.staged <;> rfl
  case geometry =>
    have hgeometry : s.geometry = g := by rw [State.geometry, hg, Option.getD_some]
    rw [hgeometry]
    exact ⟨rfl, rfl, rfl, rfl, rfl⟩
  case noGeometry =>
    have hgeometry : s.geometry = { sizeCode := 0, d := 0, p := 0 } := by rw [State.geometry, hg, Option.getD_none]
    rw [hgeometry]
    obtain rfl | rfl | rfl | rfl | rfl : i = 16 ∨ i = 17 ∨ i = 18 ∨ i = 19 ∨ i = 20 := by omega
    all_goals rfl

/-! ### The configuration (R145, R146) -/

theorem guardActionOf_eq {action : Byte} (h : action = 0x00 ∨ action = 0x01) :
    guardActionOf action = some (if action = 0x00 then .event else .eventAndHostReset) := by
  rcases h with rfl | rfl <;> rfl

section
variable {dh dl divider share action set : Byte}

theorem configOf_of_good (hlow : 1 ≤ share.toNat) (hhigh : share.toNat ≤ 8) (haction : action = 0x00 ∨ action = 0x01)
    (hset : set.toNat < 64) :
    configOf [dh, dl, divider, share, action, set] =
      some { deadline := dh ++ dl, divider := divider, stealShare := share.toNat
             guardAction := if action = 0x00 then .event else .eventAndHostReset, enable := set.setWidth 6 } := by
  have h4 : argByte [dh, dl, divider, share, action, set] 4 = action := rfl
  have h5 : argByte [dh, dl, divider, share, action, set] 5 = set := rfl
  simp only [configOf, h4, h5, guardActionOf_eq haction, classSetOf_of_lt hset]
  exact if_pos ⟨hlow, hhigh⟩

theorem configOf_of_not_good
    (h : ¬ (1 ≤ share.toNat ∧ share.toNat ≤ 8 ∧ (action = 0x00 ∨ action = 0x01) ∧ set.toNat < 64)) :
    configOf [dh, dl, divider, share, action, set] = none := by
  have h4 : argByte [dh, dl, divider, share, action, set] 4 = action := rfl
  have h5 : argByte [dh, dl, divider, share, action, set] 5 = set := rfl
  rcases Nat.lt_or_ge set.toNat 64 with hset | hset
  · by_cases haction : action = 0x00 ∨ action = 0x01
    · simp only [configOf, h4, h5, guardActionOf_eq haction, classSetOf_of_lt hset]
      exact if_neg fun ⟨hlow, hhigh⟩ => h ⟨hlow, hhigh, haction, hset⟩
    · have hnone : guardActionOf action = none := by
        rw [guardActionOf, if_neg (mt .inl haction), if_neg (mt .inr haction)]
      simp only [configOf, h4, h5, hnone]
  · simp only [configOf, h4, h5, classSetOf_of_ge hset]
    cases guardActionOf action <;> rfl

end

theorem takeConfigWrite_of_some {args : List Byte} {c : Configuration} (hdevice : s.mount.device = .ready ∨ RawDevice s)
    (hc : configOf args = some c) : takeConfigWrite args s = ([0x00], { s with config := c }) := by
  rcases hdevice with h | h | h <;> simp only [takeConfigWrite, h, hc, resultOnly, Result.code]

theorem takeConfigWrite_of_none {args : List Byte} (hdevice : s.mount.device = .ready ∨ RawDevice s)
    (hc : configOf args = none) : takeConfigWrite args s = ([0x06], s) := by
  rcases hdevice with h | h | h <;> simp only [takeConfigWrite, h, hc, resultOnly, Result.code]

/-- Settles O38. -/
theorem configurationIsReadAndWrittenWhole : Obligations.ConfigurationIsReadAndWrittenWhole := by
  intro s hpowered
  refine ⟨fun hawaits => ?read, ?write⟩
  case read =>
    have haction : s.config.guardAction.code = if s.config.guardAction = .event then 0x00 else 0x01 := by
      cases s.config.guardAction <;> rfl
    rw [exec, execConfigRead, whenPowered_takeCommand_of_awaitsCode hpowered hawaits, ← haction]
    rfl
  case write =>
    intro dh dl divider share action set hawaits hargs hdevice good
    rw [exec, execConfigWrite, whenPowered_takeCommand_of_awaitsLast hpowered hawaits
      (by simp only [takeConfigWrite_frame]), hargs]
    refine ⟨fun ⟨hlow, hhigh, haction, hset⟩ => ?_, fun hnot => ?_⟩
    · simp only [List.cons_append, List.nil_append]
      rw [takeConfigWrite_of_some hdevice (configOf_of_good hlow hhigh haction hset)]
    · simp only [List.cons_append, List.nil_append]
      rw [takeConfigWrite_of_none hdevice (configOf_of_not_good hnot)]

/-! ### GROUP_LIST and MAP_QUERY (R148, R149) -/

theorem onVolume_of_ready (h : s.mount.device = .ready) (serve : State → List Byte × State) :
    onVolume serve s = serve s := by
  simp only [onVolume, volumeRefusal, h]

theorem entry_bytes_eq (e : Entry) :
    e.bytes =
      [BitVec.ofNat 8 (e.page / 256), BitVec.ofNat 8 e.page, BitVec.ofNat 8 (e.shadow / 256), BitVec.ofNat 8 e.shadow,
        BitVec.ofNat 8 (e.superseded / 256), BitVec.ofNat 8 e.superseded, (e.present >>> 8).setWidth 8,
        e.present.setWidth 8] := by
  rw [Entry.bytes, bytes16_num16, bytes16_num16, bytes16_num16]
  rfl

section
variable {page : Nat}

theorem mapQueryData_of_lt (hg : s.geometry = g) (hpage : page < g.d) :
    mapQueryData s page =
      [0x00, BitVec.ofNat 8 ((32 + page) / 256), BitVec.ofNat 8 (32 + page), 0x00, 0xFF, 0xFF, 0x00, 0x00] := by
  rw [mapQueryData, hg, if_pos hpage, bytes16_num16]
  rfl

/-- The frame of an atomic page, then what the group holds of it. -/
theorem mapQueryData_of_atomic (hm : Mounted s g) (hlow : g.d ≤ page) (hhigh : page < g.d + g.p) :
    (∀ e, entryOf s page = some e → mapQueryData s page =
      [0x01, BitVec.ofNat 8 (committed g s page / 256), BitVec.ofNat 8 (committed g s page), 0x01,
        BitVec.ofNat 8 (e.shadow / 256), BitVec.ofNat 8 e.shadow, (e.present >>> 8).setWidth 8,
        e.present.setWidth 8]) ∧
    (entryOf s page = none → mapQueryData s page =
      [0x01, BitVec.ofNat 8 (committed g s page / 256), BitVec.ofNat 8 (committed g s page), 0x00, 0xFF, 0xFF, 0x00,
        0x00]) := by
  have hgeometry : s.geometry = g := geometry_of_mounted hm
  obtain ⟨-, hg⟩ := hm
  have hframe : s.committedFrame page = committed g s page := committedFrame_eq hg page
  refine ⟨fun e hentry => ?_, fun hentry => ?_⟩
  all_goals
    have hfind : findEntry s.group.table page = _ := hentry
    rw [mapQueryData, hgeometry, if_neg (Nat.not_lt.mpr hlow), if_pos hhigh, hfind, hframe, bytes16_num16]
  · simp only [bytes16_num16]
    rfl
  · rfl

theorem mapQueryData_of_ge (hg : s.geometry = g) (hpage : g.d + g.p ≤ page) :
    mapQueryData s page = [0x02, 0xFF, 0xFF, 0x00, 0xFF, 0xFF, 0x00, 0x00] := by
  rw [mapQueryData, hg, if_neg (by omega), if_neg (by omega)]

end

/-- Settles O41. -/
theorem groupListAndMapQueryReport : Obligations.GroupListAndMapQueryReport := by
  intro s g last hpowered hm
  have hdevice : s.mount.device = .ready := hm.1
  have hlist : AwaitsLast s 0x22 1 → s.framer.args = [] → exec (.groupList last) s =
      .next (answeredArgs s.framer 0x22 last (takeGroupList [last] s).1 (takeGroupList [last] s).2) := by
    intro hawaits hargs
    rw [exec, execGroupList, whenPowered_takeCommand_of_awaitsLast hpowered hawaits
      (by simp only [takeGroupList_frame]), hargs]
    rfl
  refine ⟨fun e stamp hawaits hargs hentry hstamp => ?entry, fun hawaits hargs hbeyond => ?beyond, ?query⟩
  case entry =>
    have hentry' : s.group.table[(argByte [last] 0).toNat]? = some e := hentry
    rw [hlist hawaits hargs]
    simp only [takeGroupList, onVolume_of_ready hdevice, hentry', okWith, hstamp, Option.getD_some, entry_bytes_eq]
    rfl
  case beyond =>
    have hnone : s.group.table[(argByte [last] 0).toNat]? = none := List.getElem?_eq_none hbeyond
    rw [hlist hawaits hargs]
    simp only [takeGroupList, onVolume_of_ready hdevice, hnone, resultOnly, Result.code]
  case query =>
    intro hi hawaits hargs page
    have hpage : (arg16 [hi, last] 0).toNat = page := toNat_append_bytes hi last
    have hquery : exec (.mapQuery last) s =
        .next (answeredArgs s.framer 0x23 last (takeMapQuery [hi, last] s).1 (takeMapQuery [hi, last] s).2) := by
      rw [exec, execMapQuery, whenPowered_takeCommand_of_awaitsLast hpowered hawaits
        (by simp only [takeMapQuery_frame]), hargs]
      rfl
    have hgood : page ≤ 4095 → takeMapQuery [hi, last] s = okWith (mapQueryData s page) s := by
      intro hrange
      simp only [takeMapQuery, onVolume_of_ready hdevice, hpage, if_neg (Nat.not_lt.mpr hrange)]
    have hgeometry : s.geometry = g := geometry_of_mounted hm
    refine ⟨fun hrange => ?_, fun hrange hdirect => ?_, fun hrange hlow hhigh => ⟨fun e hentry => ?_, fun hentry => ?_⟩,
      fun hrange hunbacked => ?_⟩
    · rw [hquery]
      simp only [takeMapQuery, onVolume_of_ready hdevice, hpage, if_pos hrange, resultOnly, Result.code]
    · rw [hquery, hgood hrange, mapQueryData_of_lt hgeometry hdirect]
      rfl
    · rw [hquery, hgood hrange, (mapQueryData_of_atomic hm hlow hhigh).1 e hentry]
      rfl
    · rw [hquery, hgood hrange, (mapQueryData_of_atomic hm hlow hhigh).2 hentry]
      rfl
    · rw [hquery, hgood hrange, mapQueryData_of_ge hgeometry hunbacked]
      rfl

/-! ### The guard commands (R118 to R120) -/

theorem modeByte_eq (m : GuardMode) : modeByte m = num8 m.code := by
  cases m <;> rfl

theorem isCommitting_iff (st : GroupState) : st.isCommitting = true ↔ ∃ phase, st = .committing phase := by
  cases st <;> simp [GroupState.isCommitting]

theorem guardModeOf_modeByte (m : GuardMode) : guardModeOf (modeByte m).toNat = some m := by
  cases m <;> rfl

theorem guardModeOf_of_gt {n : Nat} (h : 2 < n) : guardModeOf n = none := by
  rw [guardModeOf, if_neg (by omega), if_neg (by omega), if_neg (by omega)]

section
variable {index fh fl lh ll mode : Byte}

/-- The arguments of GUARD_STAGE as numbers. -/
theorem guardOf_eq (index fh fl lh ll mode : Byte) :
    guardOf [index, fh, fl, lh, ll, mode] =
      (guardModeOf mode.toNat).bind fun m =>
        if index.toNat ≤ 7 ∧ 256 * fh.toNat + fl.toNat ≤ 4095 ∧ 256 * lh.toNat + ll.toNat ≤ 4095 ∧
            256 * fh.toNat + fl.toNat ≤ 256 * lh.toNat + ll.toNat then
          some (index.toNat, { first := 256 * fh.toNat + fl.toNat, last := 256 * lh.toNat + ll.toNat, mode := m })
        else none := by
  have hfirst : (arg16 [index, fh, fl, lh, ll, mode] 1).toNat = 256 * fh.toNat + fl.toNat := toNat_append_bytes fh fl
  have hlast : (arg16 [index, fh, fl, lh, ll, mode] 3).toNat = 256 * lh.toNat + ll.toNat := toNat_append_bytes lh ll
  have hindex : argByte [index, fh, fl, lh, ll, mode] 0 = index := rfl
  have hmode : argByte [index, fh, fl, lh, ll, mode] 5 = mode := rfl
  simp only [guardOf, hfirst, hlast, hindex, hmode]
  cases guardModeOf mode.toNat <;> rfl

end

/-- Settles O42. -/
theorem guardCommandsReadStageAndDiscard : Obligations.GuardCommandsReadStageAndDiscard := by
  intro s hpowered hdevice
  refine ⟨fun index table hawaits hargs => ?read, ?stage, fun hawaits => ?discard⟩
  case read =>
    have hindex : argByte [index, table] 0 = index := rfl
    have hchoice : argByte [index, table] 1 = table := rfl
    rw [exec, execGuardRead, whenPowered_takeCommand_of_awaitsLast hpowered hawaits
      (by simp only [takeGuardRead_frame]), hargs]
    simp only [List.cons_append, List.nil_append, takeGuardRead, onVolume_of_ready hdevice, hindex, hchoice]
    refine ⟨fun e hlow htable hentry => ?_, fun hnot => ?_⟩
    · have hstaged : (decide (table = 0x01) && s.guards.staged.isSome) =
          decide (table = 0x01 ∧ s.guards.staged ≠ none) := by
        cases s.guards.staged <;> simp
      have hentry' : (chosenTable table s.guards)[index.toNat]? = some e := hentry
      rw [if_neg (by omega), hentry', Option.getD_some, hstaged, Guard.bytes, bytes16_num16, bytes16_num16, modeByte_eq]
      simp only [decide_eq_true_eq]
      rfl
    · rw [if_pos hnot]
      rfl
  case stage =>
    intro index fh fl lh ll mode hawaits hargs first last
    rw [exec, execGuardStage, whenPowered_takeCommand_of_awaitsLast hpowered hawaits
      (by simp only [takeGuardStage_frame]), hargs]
    simp only [List.cons_append, List.nil_append, takeGuardStage, onVolume_of_ready hdevice]
    refine ⟨fun hcommitting => ?_, fun hnot => ⟨fun m hindex hfirst hlast hmode => ?_, fun hbad => ?_⟩⟩
    · rw [if_pos ((isCommitting_iff _).mpr hcommitting)]
      rfl
    · have hguard : guardOf [index, fh, fl, lh, ll, mode] =
          some (index.toNat, { first := first, last := last, mode := m }) := by
        rw [guardOf_eq, ← hmode, guardModeOf_modeByte]
        exact if_pos ⟨hindex, hfirst.trans hlast, hlast, hfirst⟩
      rw [if_neg (mt (isCommitting_iff _).mp (not_exists.mpr hnot)), hguard]
      rfl
    · have hguard : guardOf [index, fh, fl, lh, ll, mode] = none := by
        rw [guardOf_eq, Option.bind_eq_none_iff]
        intro m hm
        have hmode : ¬ 2 < mode.toNat := fun h => absurd (hm.symm.trans (guardModeOf_of_gt h)) nofun
        exact if_neg (by omega)
      rw [if_neg (mt (isCommitting_iff _).mp (not_exists.mpr hnot)), hguard]
      rfl
  case discard =>
    rw [exec, execGuardDiscard, whenPowered_takeCommand_of_awaitsCode hpowered hawaits]
    simp only [takeGuardDiscard, onVolume_of_ready hdevice]
    refine ⟨fun hcommitting => ?_, fun hnot => ?_⟩
    · rw [if_pos ((isCommitting_iff _).mpr hcommitting)]
      rfl
    · rw [if_neg (mt (isCommitting_iff _).mp (not_exists.mpr hnot))]
      rfl

end

end Sys2Proof.Proofs
end

