-- ==== Sys2Proof/Proofs/VolumeStatements.lean ====
section
/-! PROOFS. The statements of FORMAT and REMOUNT (R50, R104, R105, R109, R110). -/

namespace Sys2Proof.Proofs

open Sys2Proof.Machine Sys2Proof.Claims

section
variable {s : State} {g : Geometry}

/-! ### FORMAT (R104, R105) -/

/-- The volume discarded at the entry to FORMATTING. -/
theorem discardVolume_enterFormatting (g : Geometry) (s : State) :
    discardVolume (enterFormatting g s) =
      { s with
        host := changedHost (isGranted s) s.host
        port := { s.port with hostReq := changedRequest s }
        xlate := clearedTable
        pool := []
        commit := { latch := false, record := none }
        guards := { s.guards with current := [], staged := none }
        group := idleGroup (s.group.running.map fun f => { f with mergeWanted := false, entry := none })
        mount := { s.mount with
          device := .formatting, reason := none, run := .idle
          format := some { geometry := g, step := none, stamp := none, acc := 0xFFFFFFFF } } } := by
  rw [enterFormatting, releaseAccess_eq_changed]
  rfl

theorem geometryOf_eq (code dh dl ph pl : Byte) :
    geometryOf [code, dh, dl, ph, pl] =
      { sizeCode := code.toNat, d := 256 * dh.toNat + dl.toNat, p := 256 * ph.toNat + pl.toNat } := by
  have hd : (arg16 [code, dh, dl, ph, pl] 1).toNat = 256 * dh.toNat + dl.toNat := toNat_append_bytes dh dl
  have hp : (arg16 [code, dh, dl, ph, pl] 3).toNat = 256 * ph.toNat + pl.toNat := toNat_append_bytes ph pl
  rw [geometryOf, hd, hp]
  rfl

theorem takeFormat_of_idle (h : (s.mount.device = .ready ∧ s.group.state = .idle) ∨ RawDevice s) (args : List Byte) :
    takeFormat args s = formatChecked args s := by
  rcases h with ⟨hdevice, hstate⟩ | h | h
  · simp only [takeFormat, hdevice, hstate]
  · simp only [takeFormat, h]
  · simp only [takeFormat, h]

/-- Settles O43. -/
theorem formatIsCheckedThenAccepted : Obligations.FormatIsCheckedThenAccepted := by
  intro s code dh dl ph pl hpowered hawaits hargs g
  have hgeometry : geometryOf [code, dh, dl, ph, pl] = g := geometryOf_eq code dh dl ph pl
  rw [exec, execFormat, whenPowered_takeCommand_of_awaitsLast hpowered hawaits (by simp only [takeFormat_frame]), hargs]
  simp only [List.cons_append, List.nil_append]
  refine ⟨fun hdevice ⟨phase, hstate⟩ => ?_, fun hdevice hstate => ?_, fun hidle => ⟨fun hbad => ?_, fun hgood => ?_⟩⟩
  · simp only [takeFormat, hdevice, hstate, resultOnly, Result.code]
  · rcases hstate with hstate | hstate <;> simp only [takeFormat, hdevice, hstate, resultOnly, Result.code]
  · rw [takeFormat_of_idle hidle, formatChecked, hgeometry, if_neg (mt (geometry_ok_iff g).mp hbad)]
    rfl
  · rw [takeFormat_of_idle hidle, formatChecked, hgeometry, if_pos ((geometry_ok_iff g).mpr hgood), resultOnly,
      discardVolume_enterFormatting]
    rfl

/-! ### REMOUNT (R50, R109, R110) -/

/-- What the acceptance of REMOUNT leaves: of the abort of a group it leaves the event alone. -/
theorem acceptRemount_eq (s : State) (hstate : ∀ phase, s.group.state ≠ .committing phase) :
    acceptRemount s =
      { s with
        events := if s.group.state = .idle then s.events
          else (post .abortDone none none (some (BitVec.ofNat 8 s.group.table.length)) s).events
        host := changedHost (isGranted s) s.host
        port := { s.port with hostReq := changedRequest s, passCount := 0 }
        xlate := clearedTable
        pool := []
        commit := { latch := false, record := none }
        guards := { s.guards with current := [], staged := none }
        group := idleGroup (s.group.running.map fun f => { f with mergeWanted := false, entry := none })
        mount :=
          { device := .mounting, reason := none, cause := some .command, run := .waiting, format := none } } := by
  have hopened : s.group.state = .opened ∨ s.group.state = .failed →
      remountAbort s = postAbortDone s.group.table.length (dissolveGroup s) ∧ s.group.state ≠ .idle := by
    rintro (h | h) <;> simp [remountAbort, h]
  have hrunning : (s.group.running.map fun f => ({ f with entry := none } : Fill)).map
      (fun f => { dropMerge f with entry := none }) =
        s.group.running.map fun f => { f with mergeWanted := false, entry := none } := by
    cases s.group.running <;> rfl
  cases h : s.group.state with
  | committing phase => exact absurd h (hstate phase)
  | idle =>
    rw [acceptRemount, enterMounting_eq_mounting, remountAbort, h]
    rfl
  | opened | failed =>
    obtain ⟨habort, hidle⟩ := hopened (by simp [h])
    rw [acceptRemount, enterMounting_eq_mounting, habort, ← hrunning]
    rfl

theorem takeRemount_of_accepted (h : (s.mount.device = .ready ∧ ∀ phase, s.group.state ≠ .committing phase) ∨
    (RawDevice s ∧ s.group.state = .idle)) : takeRemount [] s = resultOnly .ok (acceptRemount s) := by
  rcases h with ⟨hdevice, hstate⟩ | ⟨h | h, -⟩
  · cases hs : s.group.state with
    | committing phase => exact absurd hs (hstate phase)
    | _ => simp only [takeRemount, hdevice, hs]
  · simp only [takeRemount, h]
  · simp only [takeRemount, h]

/-- Settles O44. -/
theorem remountDiscardsTheVolumeAndMounts : Obligations.RemountDiscardsTheVolumeAndMounts := by
  intro s hpowered hawaits
  rw [exec, execRemount, whenPowered_takeCommand_of_awaitsCode hpowered hawaits]
  refine ⟨fun hdevice ⟨phase, hstate⟩ => ?_, fun haccepted => ?_⟩
  · simp only [takeRemount, hdevice, hstate, resultOnly, Result.code]
  · have hstate : ∀ phase, s.group.state ≠ .committing phase := by
      rcases haccepted with ⟨-, h⟩ | ⟨-, h⟩
      · exact h
      · simp [h]
    rw [takeRemount_of_accepted haccepted, resultOnly, acceptRemount_eq s hstate]
    rfl

end

end Sys2Proof.Proofs
end

