-- ==== Sys2Proof/Proofs/LineStatements.lean ====
section
/-! PROOFS. The statements of events and lines: a posting (R151, R152, R156), the output lines (R14, R97, R116, R122,
R137), the grant decision (R124) and the effective mode of a page (R113). -/

namespace Sys2Proof.Proofs

open Sys2Proof.Machine Sys2Proof.Claims

/-! ### Class sets (Tables 11-1 and 12-2) -/

theorem cls_bit_eq_twoPow (kind : EventKind) : kind.cls.bit = BitVec.twoPow 6 (classBit kind) := by
  cases kind <;> rfl

theorem classBit_lt (kind : EventKind) : classBit kind < 6 := by
  cases kind <;> decide

/-- A class set has the bit of the class. -/
theorem names_cls (set : BitVec 6) (kind : EventKind) : names set kind.cls = set.getLsbD (classBit kind) := by
  rw [names, cls_bit_eq_twoPow, BitVec.and_twoPow]
  cases set.getLsbD (classBit kind)
  · rfl
  · cases kind <;> rfl

/-- A latch after a posting: its own, the class's, and OVERRUN where an enabled record finds no room. -/
theorem latches_post (e : EventUnit) (enable : BitVec 6) (r : EventRecord) (i : Nat) :
    (e.post enable r).latches.getLsbD i =
      (e.latches.getLsbD i || decide (i = classBit r.kind) ||
        (decide (i = 5) && enable.getLsbD (classBit r.kind) && decide (16 ≤ e.queue.length))) := by
  have hclass : r.kind.cls.bit.getLsbD i = decide (i = classBit r.kind) := by
    simp [cls_bit_eq_twoPow, BitVec.getLsbD_twoPow, classBit_lt, eq_comm]
  have hoverrun : EventClass.overrun.bit.getLsbD i = decide (i = 5) := by
    have htwoPow : EventClass.overrun.bit = BitVec.twoPow 6 5 := rfl
    simp [htwoPow, BitVec.getLsbD_twoPow, eq_comm]
  rw [EventUnit.post, names_cls]
  cases henabled : enable.getLsbD (classBit r.kind) with
  | false => simp [BitVec.getLsbD_or, hclass]
  | true =>
    rcases Nat.lt_or_ge e.queue.length 16 with hroom | hfull
    · simp [BitVec.getLsbD_or, hclass, hroom, Nat.not_le.mpr hroom]
    · simp [BitVec.getLsbD_or, hclass, hoverrun, hfull, Nat.not_lt.mpr hfull]

theorem queue_post (e : EventUnit) (enable : BitVec 6) (r : EventRecord) :
    (e.post enable r).queue =
      if enable.getLsbD (classBit r.kind) = true ∧ e.queue.length < 16 then e.queue ++ [r] else e.queue := by
  rw [EventUnit.post, names_cls]
  cases enable.getLsbD (classBit r.kind) with
  | false => simp
  | true =>
    rcases Nat.lt_or_ge e.queue.length 16 with hroom | hfull
    · simp [hroom]
    · simp [Nat.not_lt.mpr hfull]

theorem clock_post (e : EventUnit) (enable : BitVec 6) (r : EventRecord) :
    (e.post enable r).tick = e.tick ∧ (e.post enable r).period = e.period := by
  rw [EventUnit.post]
  split_ifs <;> exact ⟨rfl, rfl⟩

/-- FAULT# is asserted when an enabled class is latched (R156). -/
theorem faultLine_iff (s : State) :
    s.faultLine = true ↔ ∃ i, i < 6 ∧ s.events.latches.getLsbD i = true ∧ s.config.enable.getLsbD i = true := by
  rw [State.faultLine, bne_iff_ne, ← not_iff_not, not_not]
  constructor
  · rintro h ⟨i, -, hlatch, henable⟩
    have hbit : (s.events.latches &&& s.config.enable).getLsbD i = true := by
      rw [BitVec.getLsbD_and, hlatch, henable]
      rfl
    simp [h] at hbit
  · intro h
    refine BitVec.eq_of_getLsbD_eq fun i hi => ?_
    have hnot : (s.events.latches &&& s.config.enable).getLsbD i = false := by
      rw [← Bool.not_eq_true, BitVec.getLsbD_and, Bool.and_eq_true]
      exact fun ⟨hlatch, henable⟩ => h ⟨i, hi, hlatch, henable⟩
    exact hnot.trans BitVec.getLsbD_zero.symm

/-- Settles O46. -/
theorem postingSetsLatchesQueuesAndDrivesFault : Obligations.PostingSetsLatchesQueuesAndDrivesFault := by
  intro kind a page detail s
  obtain ⟨htick, hperiod⟩ := clock_post s.events s.config.enable (s.eventRecord kind a page detail)
  exact ⟨rfl, htick, hperiod, fun i _ => latches_post _ _ _ i, queue_post _ _ _, faultLine_iff s⟩

/-! ### The output lines (R14, R97, R116, R122, R137) -/

/-- Settles O47. -/
theorem outputLinesFollowTheState : Obligations.OutputLinesFollowTheState := by
  intro s
  refine ⟨?ready, Option.isSome_iff_ne_none, Option.isSome_iff_ne_none, fun h => ?outside, fun h => ?waiting,
    fun b h hb => ?response, fun h => ?idle, fun f h => ?flight⟩
  case ready => cases h : s.mount.device <;> simp [State.readyPin, h]
  case outside => simp only [State.sdo, h]
  case waiting => rcases h with h | h | h <;> simp only [State.sdo, h]
  case response => simp only [State.sdo, h, hb, Option.getD_some]
  case idle =>
    simp only [State.mceLine, State.moeLine, State.mweLine, State.memoryLanes, State.mdDrive, h, Option.isSome_none,
      and_self]
  case flight =>
    simp only [State.mceLine, State.moeLine, State.mweLine, State.memoryLanes, State.mdDrive, h, Option.isSome_some,
      true_and]
    exact ⟨fun hkind => by simp [hkind], fun hkind => by simp [hkind]⟩

/-! ### The grant decision (R124) -/

/-- Settles O48: the rows of the decision, each read off `Port.decide`. -/
theorem grantDecision : Obligations.GrantDecision := by
  intro s granted
  refine ⟨fun hflight => arbitrate_settled (.inl hflight), fun hidle =>
    ⟨fun hhost hengine => arbitrate_settled (.inr ⟨hhost, hengine⟩), fun h hhost hengine => ?host,
      fun e hhost hengine => ?engine, fun h e hhost hengine => ⟨fun hbelow => ?pass, fun hfrom => ?steal⟩⟩⟩
  case host =>
    simp only [arbitrate, Port.decide, hidle, hhost, hengine]
    rfl
  case engine =>
    simp only [arbitrate, Port.decide, hidle, hhost, hengine]
    rfl
  case pass =>
    simp only [arbitrate, Port.decide, hidle, hhost, hengine, if_pos hbelow]
    rfl
  case steal =>
    simp only [arbitrate, Port.decide, hidle, hhost, hengine, if_neg (Nat.not_lt.mpr hfrom)]
    rfl

/-! ### The effective mode (R113) -/

theorem covered_perm {table table' : List Guard} (h : table.Perm table') (mode : GuardMode) (page : Nat) :
    Covered table' mode page ↔ Covered table mode page := by
  simp only [Covered, h.mem_iff]

/-- Settles O50: the order of the entries does not matter as only which modes cover the page does. -/
theorem effectiveModeIsTheStrongestThatCovers : Obligations.EffectiveModeIsTheStrongestThatCovers := by
  intro table page
  refine ⟨effectiveMode_of_covered_all, effectiveMode_of_covered_write, effectiveMode_of_not_covered,
    fun table' hperm => ?_⟩
  simp only [effectiveMode_eq_ite_covered, covered_perm hperm]

end Sys2Proof.Proofs
end

