-- ==== Sys2Proof/Proofs/ImageLayout.lean ====
section
/-! PROOFS. The layout of map images (Table 12-1): the words of an image, guard entries as two words (R82, R158), and
the check code's step (R83). -/

namespace Sys2Proof.Proofs

open Sys2Proof.Machine Sys2Proof.Claims

/-! ### Bits of a word -/

/-- A value on top of another: their bits do not meet. -/
theorem toNat_append_eq_add {n m : Nat} (x : BitVec n) (y : BitVec m) :
    (x ++ y).toNat = x.toNat * 2 ^ m + y.toNat := by
  rw [BitVec.toNat_append, ← Nat.shiftLeft_add_eq_or_of_lt y.isLt, Nat.shiftLeft_eq]

/-- Masking with a field of bits from bit k on. -/
theorem and_shiftLeft_eq_zero_iff (x m k : Nat) : x &&& (m <<< k) = 0 ↔ (x / 2 ^ k) &&& m = 0 := by
  have hfield : x &&& (m <<< k) = ((x >>> k) &&& m) <<< k := by
    refine Nat.eq_of_testBit_eq fun i => ?_
    simp only [Nat.testBit_and, Nat.testBit_shiftLeft, Nat.testBit_shiftRight]
    rcases Nat.lt_or_ge i k with hi | hi
    · simp [Nat.not_le.mpr hi]
    · simp [hi, Nat.add_sub_cancel' hi]
  rw [hfield, Nat.shiftRight_eq_div_pow, Nat.shiftLeft_eq]
  simp

/-- Bits 13 and 12 of a word are zero. -/
theorem and_3000_eq_zero_iff (w : Word16) : w &&& 0x3000 = 0 ↔ w.toNat / 4096 % 4 = 0 := by
  rw [← BitVec.toNat_inj]
  exact (and_shiftLeft_eq_zero_iff w.toNat 3 12).trans (by rw [Nat.and_two_pow_sub_one_eq_mod _ 2]; exact Iff.rfl)

/-- Bits 15 to 12 of a word are zero. -/
theorem and_F000_eq_zero_iff (w : Word16) : w &&& 0xF000 = 0 ↔ w.toNat < 4096 := by
  rw [← BitVec.toNat_inj]
  refine (and_shiftLeft_eq_zero_iff w.toNat 15 12).trans ?_
  rw [Nat.and_two_pow_sub_one_eq_mod _ 4]
  have := w.isLt
  omega

theorem toNat_and_0FFF (w : Word16) : (w &&& 0x0FFF).toNat = w.toNat % 4096 :=
  Nat.and_two_pow_sub_one_eq_mod w.toNat 12

/-! ### Guard entries (R82, R158) -/

theorem guardModeOf_eq_some_iff (n : Nat) (m : GuardMode) : guardModeOf n = some m ↔ n = modeNumber m := by
  rw [guardModeOf]
  split_ifs with h0 h1 h2 <;> cases m <;> simp_all [modeNumber]

/-- The two words of a well-formed entry. -/
theorem guardWords_words (e : Guard) (horder : e.first ≤ e.last) (hlast : e.last ≤ 4095) :
    GuardWords e e.word0.toNat e.word1.toNat := by
  refine ⟨?_, ?_, horder, hlast⟩
  · have hcode : e.mode.code = modeNumber e.mode ∧ e.mode.code < 4 := by cases e.mode <;> decide
    obtain ⟨hcode, hlt⟩ := hcode
    rw [Guard.word0, toNat_append_eq_add, toNat_append_eq_add, BitVec.toNat_ofNat, BitVec.toNat_ofNat, ← hcode]
    simp only [BitVec.toNat_ofNat]
    omega
  · rw [Guard.word1, toNat_append_eq_add, BitVec.toNat_ofNat]
    simp only [BitVec.toNat_ofNat]
    omega

/-- An entry is read from exactly the two words that it is written as. -/
theorem decodeGuard_eq_some_iff (w0 w1 : Word16) (e : Guard) :
    decodeGuard w0 w1 = some e ↔ GuardWords e w0.toNat w1.toNat := by
  have hmode : (w0 >>> 14).toNat = w0.toNat / 16384 := by
    rw [BitVec.toNat_ushiftRight, Nat.shiftRight_eq_div_pow]
  have hw0 := w0.isLt
  have hw1 := w1.isLt
  simp only [decodeGuard, hmode, toNat_and_0FFF, and_3000_eq_zero_iff, and_F000_eq_zero_iff]
  obtain ⟨first, last, mode⟩ := e
  simp only [GuardWords]
  cases hm : guardModeOf (w0.toNat / 16384) with
  | none =>
    simp only [reduceCtorEq, false_iff]
    rintro ⟨h0, -, horder, hlast⟩
    have : w0.toNat / 16384 = modeNumber mode := by omega
    rw [(guardModeOf_eq_some_iff _ mode).mpr this] at hm
    cases hm
  | some m =>
    rw [guardModeOf_eq_some_iff] at hm
    split_ifs with hformed
    · obtain ⟨hzero, hlt, horder⟩ := hformed
      simp only [Option.some.injEq, Guard.mk.injEq]
      constructor
      · rintro ⟨rfl, rfl, rfl⟩
        omega
      · rintro ⟨h0, h1, hle, hmax⟩
        have hmodes : guardModeOf (w0.toNat / 16384) = some mode := (guardModeOf_eq_some_iff _ _).mpr (by omega)
        rw [(guardModeOf_eq_some_iff _ m).mpr hm] at hmodes
        exact ⟨by omega, by omega, Option.some.inj hmodes⟩
    · simp only [false_iff]
      rintro ⟨h0, h1, hle, hmax⟩
      omega

/-! ### The words of an image (Table 12-1) -/

section
variable (b : ImageBody) (acc : BitVec 32)

theorem word_guard {k : Nat} (hk : k < 8) :
    b.word acc (8 + 2 * k) = ((b.guards[k]?).getD offGuard).word0 ∧
      b.word acc (9 + 2 * k) = ((b.guards[k]?).getD offGuard).word1 := by
  have hlow : (8 + 2 * k - 8) / 2 = k := by omega
  have hhigh : (9 + 2 * k - 8) / 2 = k := by omega
  constructor
  · simp (disch := omega) only [ImageBody.word, hlow, if_neg, if_pos]
  · simp (disch := omega) only [ImageBody.word, hhigh, if_neg, if_pos]

theorem word_entry (i : Nat) : b.word acc (28 + i) = num16 ((b.entries[i]?).getD 0) := by
  have hi : 28 + i - 28 = i := by omega
  simp (disch := omega) only [ImageBody.word, hi, if_neg]

/-- Only the two words of the check code depend on the accumulator. -/
theorem word_of_covered (acc' : BitVec 32) {n : Nat} (h26 : n ≠ 26) (h27 : n ≠ 27) : b.word acc n = b.word acc' n := by
  simp only [ImageBody.word, if_neg h26, if_neg h27]

theorem guardWords_word {k : Nat} {e : Guard} (hk : k < 8) (he : b.guards[k]? = some e) (horder : e.first ≤ e.last)
    (hlast : e.last ≤ 4095) :
    GuardWords e (b.word acc (8 + 2 * k)).toNat (b.word acc (9 + 2 * k)).toNat := by
  obtain ⟨h0, h1⟩ := word_guard b acc hk
  rw [h0, h1, he, Option.getD_some]
  exact guardWords_words e horder hlast

end

/-! ### The check code (R83) -/

theorem crcBit_eq (a : BitVec 32) :
    crcBit a = if a.toNat % 2 = 1 then (a >>> 1) ^^^ 0xEDB88320#32 else a >>> 1 := by
  have hbit : a.getLsbD 0 = true ↔ a.toNat % 2 = 1 := by
    rw [BitVec.getLsbD, Nat.testBit_zero, decide_eq_true_eq]
  simp only [crcBit, hbit]

theorem crcByte_eq_checkByte (acc : BitVec 32) (b : Byte) : crcByte acc b = checkByte acc b := by
  simp only [crcByte, crcBit_eq]
  rfl

theorem crcWord_eq_checkByte (acc : BitVec 32) (w : Word16) :
    crcWord acc w = checkByte (checkByte acc (w.setWidth 8)) ((w >>> 8).setWidth 8) := by
  rw [crcWord, crcByte_eq_checkByte, crcByte_eq_checkByte]
  rfl

end Sys2Proof.Proofs
end

