-- ==== Sys2Proof/Proofs/SlotJudgment.lean ====
section
/-! PROOFS. The judgment of a slot's words (R84 to R86): blank, valid exactly under the conditions of R85, or invalid;
and that a written image is read whole and judged valid. -/

namespace Sys2Proof.Proofs

open Sys2Proof.Machine Sys2Proof.Claims

/-! ### The contents of the words read (R84, R85) -/

/-- A list of options that all succeed. -/
theorem mapM_eq_some_iff {α β : Type} (f : α → Option β) (l : List α) (bs : List β) :
    l.mapM f = some bs ↔ l.map f = bs.map some := by
  induction l generalizing bs with
  | nil => cases bs <;> simp
  | cons x l ih =>
    cases bs with
    | nil => simp [List.mapM_cons, Option.bind_eq_some_iff]
    | cons y bs =>
      cases hf : f x <;> simp [List.mapM_cons, hf, ← ih, Option.bind_eq_some_iff, and_comm]

section
variable {words : List Word16} {acc : BitVec 32} {im : Image}

theorem readGuards_eq_some_iff (words : List Word16) (guards : List Guard) :
    readGuards words = some guards ↔ guards.length = 8 ∧ ∀ k e, guards[k]? = some e →
      GuardWords e (readNumber words (8 + 2 * k)) (readNumber words (9 + 2 * k)) := by
  have hdecode : ∀ k e, decodeGuard (wordAt words (8 + 2 * k)) (wordAt words (9 + 2 * k)) = some e ↔
      GuardWords e (readNumber words (8 + 2 * k)) (readNumber words (9 + 2 * k)) := fun k e =>
    decodeGuard_eq_some_iff _ _ e
  rw [readGuards, mapM_eq_some_iff]
  constructor
  · intro h
    have hlength : guards.length = 8 := by simpa using (congrArg List.length h).symm
    refine ⟨hlength, fun k e he => (hdecode k e).mp ?_⟩
    obtain ⟨hk, -⟩ := List.getElem?_eq_some_iff.mp he
    have hentry := congrArg (fun l => l[k]?) h
    rw [hlength] at hk
    simpa [List.getElem?_range hk, he] using hentry
  · rintro ⟨hlength, hwords⟩
    refine List.ext_getElem? fun k => ?_
    rcases Nat.lt_or_ge k 8 with hk | hk
    · have he : guards[k]? = some guards[k] := List.getElem?_eq_getElem (by omega)
      simp only [List.getElem?_map, List.getElem?_range hk, he, Option.map_some, (hdecode k _).mpr (hwords k _ he)]
    · rw [List.getElem?_eq_none (by simpa using hk), List.getElem?_eq_none (by simpa [hlength] using hk)]

theorem wordAt_eq_iff_readNumber (words : List Word16) (n : Nat) (v : Word16) :
    wordAt words n = v ↔ readNumber words n = v.toNat := BitVec.toNat_inj.symm

theorem toNat_wordPair (words : List Word16) (n : Nat) :
    (wordPair words n).toNat = readNumber words n + 65536 * readNumber words (n + 1) := by
  rw [wordPair, toNat_append_eq_add, Nat.add_comm, Nat.mul_comm]
  rfl

/-- A slot that is read whole with a geometry in range holds P entries. -/
theorem length_entries (hread : SlotRead words) (hmark : words[0]? = some 0x4D4A)
    (hok : GeometryOk (readGeometry words)) :
    ((words.drop 28).map BitVec.toNat).length = (readGeometry words).p := by
  obtain ⟨-, hlow, -, -, hhigh⟩ := hok
  have hmarked := (marked_iff words).mp ⟨(wordAt_eq_iff (by decide)).mpr hmark, hlow, hhigh⟩
  rw [SlotRead, if_pos hmarked] at hread
  rw [List.length_map, List.length_drop, hread, Nat.add_sub_cancel_left]
  rfl

/-- The image that the words read hold, once their guard entries are known. -/
def imageRead (words : List Word16) (guards : List Guard) : Image :=
  { geometry := readGeometry words, generation := wordPair words 6, guards := guards
    entries := (words.drop 28).map BitVec.toNat }

/-- What R85 asks of the words besides their guard entries. -/
def ImageChecks (words : List Word16) (acc : BitVec 32) : Prop :=
  wordAt words 1 = secondMagic ∧ wordAt words 2 = layoutVersion ∧ (readGeometry words).ok = true ∧
    crcFinal acc = wordPair words 26 ∧ ((words.drop 28).map BitVec.toNat).length = (readGeometry words).p ∧
    ((words.drop 28).map BitVec.toNat).all (readGeometry words).inPool = true ∧
    ((words.drop 28).map BitVec.toNat).Nodup

/-- The claim's conditions are the model's, for the image that the words hold. -/
theorem imageHeld_iff (hread : SlotRead words) (hmark : words[0]? = some 0x4D4A) :
    ImageHeld words acc im ↔
      ImageChecks words acc ∧ readGuards words = some im.guards ∧ im = imageRead words im.guards := by
  have hpool : ((words.drop 28).map BitVec.toNat).all (readGeometry words).inPool = true ↔
      ∀ f ∈ (words.drop 28).map BitVec.toNat, f ∈ poolList (readGeometry words) := by
    simp only [List.all_eq_true, inPool_iff_mem_poolList]
  have hcheck : crcFinal acc = wordPair words 26 ↔
      readNumber words 26 + 65536 * readNumber words 27 = (~~~acc).toNat := by
    rw [← BitVec.toNat_inj, toNat_wordPair, crcFinal, eq_comm]
  rw [readGuards_eq_some_iff, ImageChecks, wordAt_eq_iff_readNumber, wordAt_eq_iff_readNumber, geometry_ok_iff, hpool,
    hcheck]
  constructor
  · rintro ⟨h1, h2, hgeometry, hok, hcrc, hentries, hframes, hnodup, hgeneration, hlength, hguards⟩
    have hgeometry' : im.geometry = readGeometry words := hgeometry
    rw [hgeometry'] at hok
    rw [hgeometry', hentries] at hframes
    rw [hentries] at hnodup
    refine ⟨⟨h1, h2, hok, hcrc, length_entries hread hmark hok, hframes, hnodup⟩, ⟨hlength, hguards⟩, ?_⟩
    have hpair : im.generation = wordPair words 6 := by
      rw [← BitVec.toNat_inj, toNat_wordPair, hgeneration]
    rw [imageRead, ← hgeometry', ← hentries, ← hpair]
  · rintro ⟨⟨h1, h2, hok, hcrc, -, hframes, hnodup⟩, ⟨hlength, hguards⟩, him⟩
    rw [him] at hlength hguards ⊢
    exact ⟨h1, h2, rfl, hok, hcrc, rfl, hframes, hnodup, toNat_wordPair words 6, hlength, hguards⟩

/-! ### The verdict (R84 to R86) -/

theorem judge_blank_iff (words : List Word16) (acc : BitVec 32) :
    judge words acc = .blank ↔ words[0]? ≠ some 0x4D4A := by
  rw [← (wordAt_eq_iff (n := 0) (by decide)).ne, judge]
  by_cases hmark : wordAt words 0 ≠ markWord
  · rw [if_pos hmark]
    exact iff_of_true rfl hmark
  · rw [if_neg hmark]
    refine iff_of_false ?_ hmark
    split
    · nofun
    · dsimp only
      split_ifs <;> nofun

/-- A marked slot is valid with the image it holds, when its guard entries are well-formed and the checks pass. -/
theorem judge_eq_valid_iff (hmark : words[0]? = some 0x4D4A) :
    judge words acc = .valid im ↔
      ImageChecks words acc ∧ readGuards words = some im.guards ∧ im = imageRead words im.guards := by
  have hmark' : wordAt words 0 = markWord := (wordAt_eq_iff (by decide)).mpr hmark
  rw [judge, if_neg (not_not_intro hmark')]
  cases hguards : readGuards words with
  | none => simp
  | some guards =>
    simp only
    split_ifs with hchecks
    · rw [Verdict.valid.injEq]
      constructor
      · rintro rfl
        exact ⟨hchecks, rfl, rfl⟩
      · rintro ⟨-, hsome, him⟩
        rw [him, ← Option.some.inj hsome]
        rfl
    · exact iff_of_false nofun fun ⟨h, _⟩ => hchecks h

theorem judge_valid_iff (hread : SlotRead words) :
    judge words acc = .valid im ↔ words[0]? = some 0x4D4A ∧ ImageHeld words acc im := by
  by_cases hmark : words[0]? = some 0x4D4A
  · rw [judge_eq_valid_iff hmark, imageHeld_iff hread hmark, and_iff_right hmark]
  · refine iff_of_false ?_ fun ⟨h, _⟩ => hmark h
    rw [(judge_blank_iff words acc).mpr hmark]
    nofun

/-- The third verdict is what is left. -/
theorem judge_invalid_iff (hread : SlotRead words) :
    judge words acc = .invalid ↔ words[0]? = some 0x4D4A ∧ ∀ im, ¬ ImageHeld words acc im := by
  have hblank := judge_blank_iff words acc
  have hvalid := fun im => judge_valid_iff (acc := acc) (im := im) hread
  cases hverdict : judge words acc with
  | blank =>
    have hnot := hblank.mp hverdict
    exact iff_of_false nofun fun ⟨hmark, _⟩ => hnot hmark
  | valid im =>
    obtain ⟨-, hheld⟩ := (hvalid im).mp hverdict
    exact iff_of_false nofun fun ⟨_, hnone⟩ => hnone im hheld
  | invalid =>
    have hmark : words[0]? = some 0x4D4A := by
      by_contra h
      exact absurd (hverdict.symm.trans (hblank.mpr h)) nofun
    exact iff_of_true rfl ⟨hmark, fun im hheld =>
      absurd (hverdict.symm.trans ((hvalid im).mpr ⟨hmark, hheld⟩)) nofun⟩

end

/-! ### A written image (R80 to R83) -/

/-- A 32-bit value from its low and high words. -/
theorem toNat_halves (v : BitVec 32) : (v.setWidth 16).toNat + 65536 * ((v >>> 16).setWidth 16).toNat = v.toNat := by
  have := v.isLt
  simp only [BitVec.toNat_setWidth, BitVec.toNat_ushiftRight, Nat.shiftRight_eq_div_pow]
  omega

section
variable (b : ImageBody)

/-- The check accumulator of an image's covered words (R83). -/
def imageAccumulator : BitVec 32 :=
  (List.range' 1 25 ++ List.range' 28 b.geometry.p).foldl (fun acc n => crcWord acc (b.word acc n)) 0xFFFFFFFF

theorem slotWords_eq :
    slotWords b = 0x4D4A :: (List.range' 1 (27 + b.geometry.p)).map (b.word (imageAccumulator b)) := rfl

theorem length_slotWords : (slotWords b).length = 28 + b.geometry.p := by
  rw [slotWords_eq, List.length_cons, List.length_map, List.length_range']
  omega

/-- Word n of the marked slot. -/
theorem slotWords_getElem? {n : Nat} (hlow : 1 ≤ n) (hhigh : n < 28 + b.geometry.p) :
    (slotWords b)[n]? = some (b.word (imageAccumulator b) n) := by
  obtain ⟨k, rfl⟩ := Nat.exists_eq_add_of_le' hlow
  rw [slotWords_eq, List.getElem?_cons_succ, List.getElem?_map, List.getElem?_range' (by omega), Option.map_some,
    Nat.one_mul, Nat.add_comm 1 k]

theorem readNumber_slotWords {n : Nat} (hlow : 1 ≤ n) (hhigh : n < 28 + b.geometry.p) :
    readNumber (slotWords b) n = (b.word (imageAccumulator b) n).toNat := by
  rw [readNumber, slotWords_getElem? b hlow hhigh, Option.getD_some]

/-- A number in reach of a word stands in it. -/
theorem toNat_num16 {n : Nat} (h : n < 65536) : (num16 n).toNat = n := by
  rw [num16, BitVec.toNat_ofNat, Nat.mod_eq_of_lt h]

/-- A mount reads all the words of the slot and no more. -/
theorem slotRead_slotWords (hlow : 1 ≤ b.geometry.p) (hhigh : b.geometry.p ≤ 4068) : SlotRead (slotWords b) := by
  have hword5 : (slotWords b)[5]? = some (num16 b.geometry.p) := slotWords_getElem? b (by omega) (by omega)
  have hp : (num16 b.geometry.p).toNat = b.geometry.p := toNat_num16 (by omega)
  rw [SlotRead, length_slotWords, hword5, Option.getD_some, hp, if_pos ⟨rfl, _, rfl, by omega, by omega⟩]

/-- The words and their places, read in ascending order. -/
theorem zipIdx_map_range' (f : Nat → Word16) (i n : Nat) :
    ((List.range' i n).map f).zipIdx i = (List.range' i n).map fun k => (f k, k) := by
  refine List.ext_getElem? fun k => ?_
  simp only [List.getElem?_zipIdx, List.getElem?_map]
  rcases Nat.lt_or_ge k n with hk | hk
  · simp [List.getElem?_range' hk]
  · simp [hk]

/-- What a mount takes into its accumulator is what the writer took: words 0, 26 and 27 are left out, and no other word
depends on the accumulator. -/
theorem readAccumulator_slotWords : readAccumulator (slotWords b) = imageAccumulator b := by
  have hrange : List.range' 1 (27 + b.geometry.p) =
      List.range' 1 25 ++ (List.range' 26 2 ++ List.range' 28 b.geometry.p) := by
    rw [List.range'_append_1, List.range'_append_1]
    congr 1
    omega
  have htaken : ∀ l : List Nat, (∀ n ∈ l, n ≠ 0 ∧ n ≠ 26 ∧ n ≠ 27) → ∀ acc,
      l.foldl (fun acc n => accumulated acc n (b.word (imageAccumulator b) n)) acc =
        l.foldl (fun acc n => crcWord acc (b.word acc n)) acc := by
    intro l hl acc
    refine List.foldl_ext _ _ acc fun acc' n hn => ?_
    obtain ⟨h0, h26, h27⟩ := hl n hn
    rw [accumulated, if_neg (by omega), word_of_covered b _ acc' h26 h27]
  have hskipped : ∀ acc, (List.range' 26 2).foldl
      (fun acc n => accumulated acc n (b.word (imageAccumulator b) n)) acc = acc := fun _ => rfl
  have hmark : ∀ acc : BitVec 32, accumulated acc 0 0x4D4A = acc := fun _ => rfl
  rw [readAccumulator, slotWords_eq, List.zipIdx_cons, List.foldl_cons, hmark, Nat.zero_add, zipIdx_map_range',
    List.foldl_map, hrange, List.foldl_append, List.foldl_append, hskipped, htaken, htaken, ← List.foldl_append]
  · rfl
  · intro n hn
    rw [List.mem_range'_1] at hn
    omega
  · intro n hn
    rw [List.mem_range'_1] at hn
    omega

/-- The map entries are the words from 28 on. -/
theorem drop_slotWords (hlength : b.entries.length = b.geometry.p) (hframes : ∀ f ∈ b.entries, f < 65536) :
    ((slotWords b).drop 28).map BitVec.toNat = b.entries := by
  refine List.ext_getElem? fun i => ?_
  rw [List.getElem?_map, List.getElem?_drop]
  rcases Nat.lt_or_ge i b.geometry.p with hi | hi
  · have hentry : b.entries[i]? = some b.entries[i] := List.getElem?_eq_getElem (by omega)
    rw [slotWords_getElem? b (by omega) (by omega), word_entry, hentry, Option.getD_some, Option.map_some,
      toNat_num16 (hframes _ (List.getElem_mem _))]
  · rw [List.getElem?_eq_none (by rw [length_slotWords]; omega), List.getElem?_eq_none (by omega), Option.map_none]

/-- A pool frame is in reach of a word. -/
theorem frame_lt_of_mem_poolList {g : Geometry} {f : Nat} (h : f ∈ poolList g) : f < 65536 := by
  rw [poolList, List.mem_range'_1] at h
  have hframes : frameCount g.sizeCode ≤ 4096 := by
    simp only [frameCount]
    split <;> omega
  omega

/-- The written image meets every condition of R85. -/
theorem imageHeld_slotWords (hmap : MapOk b.geometry b.entries) (hguards : b.guards.length = 8)
    (hformed : ∀ e ∈ b.guards, e.first ≤ e.last ∧ e.last ≤ 4095) :
    ImageHeld (slotWords b) (imageAccumulator b)
      { geometry := b.geometry, generation := b.generation, guards := b.guards, entries := b.entries } := by
  obtain ⟨hok, hlength, hnodup, hframes⟩ := hmap
  have hnumber : ∀ n, 1 ≤ n → n < 28 → readNumber (slotWords b) n = (b.word (imageAccumulator b) n).toNat :=
    fun n hlow hhigh => readNumber_slotWords b hlow (by omega)
  have hentries := drop_slotWords b hlength fun f hf => frame_lt_of_mem_poolList (hframes f hf)
  have hgeometry := hok
  obtain ⟨hcode, hplow, hwindow, -, hphigh⟩ := hgeometry
  refine ⟨?_, ?_, ?_, hok, ?_, hentries.symm, hframes, hnodup, ?_, hguards, fun k e he => ?_⟩
  · exact hnumber 1 (by decide) (by decide)
  · exact hnumber 2 (by decide) (by decide)
  · rw [hnumber 3 (by decide) (by decide), hnumber 4 (by decide) (by decide), hnumber 5 (by decide) (by decide)]
    have h3 : (b.word (imageAccumulator b) 3).toNat = b.geometry.sizeCode := toNat_num16 (by omega)
    have h4 : (b.word (imageAccumulator b) 4).toNat = b.geometry.d := toNat_num16 (by omega)
    have h5 : (b.word (imageAccumulator b) 5).toNat = b.geometry.p := toNat_num16 (by omega)
    rw [h3, h4, h5]
  · rw [hnumber 26 (by decide) (by decide), hnumber 27 (by decide) (by decide)]
    exact toNat_halves _
  · rw [hnumber 6 (by decide) (by decide), hnumber 7 (by decide) (by decide)]
    exact (toNat_halves _).symm
  · have hk : k < 8 := by
      obtain ⟨hk, -⟩ := List.getElem?_eq_some_iff.mp he
      rwa [hguards] at hk
    obtain ⟨horder, hlast⟩ := hformed e (List.mem_of_getElem? he)
    rw [hnumber _ (by omega) (by omega), hnumber _ (by omega) (by omega)]
    exact guardWords_word b _ hk he horder hlast

end

/-- Settles O60: the words of an image, the check code's step, the verdict, and the verdict on a written image. -/
theorem slotsAreLaidOutAndJudged : Obligations.SlotsAreLaidOutAndJudged := by
  refine ⟨fun b acc => ?words, crcWord_eq_checkByte, fun words acc hread => ?judged,
    fun b hmap hguards hformed => ?written⟩
  case words =>
    refine ⟨rfl, rfl, rfl, rfl, rfl, rfl, rfl, fun k e hk he horder hlast => ?_, rfl, rfl, rfl, rfl, fun i f hf => ?_⟩
    · exact guardWords_word b acc hk he horder hlast
    · rw [word_entry, hf]
      rfl
  case judged =>
    exact ⟨judge_blank_iff words acc, fun im => judge_valid_iff hread, judge_invalid_iff hread⟩
  case written =>
    have hread : SlotRead (slotWords b) := by
      obtain ⟨⟨-, hlow, -, -, hhigh⟩, -⟩ := hmap
      exact slotRead_slotWords b hlow hhigh
    refine ⟨hread, ?_⟩
    rw [readAccumulator_slotWords, judge_valid_iff hread]
    exact ⟨rfl, imageHeld_slotWords b hmap hguards hformed⟩

end Sys2Proof.Proofs
end
